-- ==== Sys2Proof/Word.lean ====
section
/-! DEFINITION. The word types of shotHDR-CTP: bytes, 16-bit lanes, 32-bit registers and samples, the
64-bit packed word (10_state.md R22, R37, R39; 00_scope.md R7). -/

namespace Sys2Proof

/-- One byte of a buffer space (20_memory.md R50). -/
abbrev Byte := BitVec 8

/-- A 16-bit quantised lane, luminance measure or light level (10_state.md R34, R37, R38). -/
abbrev Half := BitVec 16

/-- A 32-bit register, command word or binary32 pattern (10_state.md R22; 00_scope.md R11). -/
abbrev Word := BitVec 32

/-- The 64-bit packed word `W` (10_state.md R39). -/
abbrev DWord := BitVec 64

end Sys2Proof
end

