-- ==== Sys2Proof/Syntax.lean ====
section
/-! DEFINITION. The syntax of shotHDR-CTP: the 24 commands (30_encoding.md R78), the register names
(10_state.md R22), the buffer spaces and windows (20_memory.md R50, R59), the host's bus operations, and
the lines and macros of a host program (30_encoding.md R82, R83). -/

namespace Sys2Proof

/-- The 24 commands of 30_encoding.md R78, one constructor per row. Operands are implicit (R76), so no
constructor has an argument. -/
inductive Instr where
  | nop | clr
  | gdec | genc | pqenc
  | nscale | mat3 | clamp | luma
  | q8 | q10a2 | q16 | pk8 | pk10 | pk16
  | ldpx | sts | sth10 | sth16
  | cllclr | cllacc | cllfin
  | runGm | runSl
  deriving DecidableEq, Repr

/-- The registers of 10_state.md R22, in the order of its table. -/
inductive Reg where
  | id | cmd | status | errcode | errinfo | irqEn
  | width | height | inCount | pixdone | idx | cap
  | maxcll | maxpall | cllMax | cllCnt | cllSumLo | cllSumHi
  | v0 | v1 | v2 | v3
  | q0 | q1 | q2 | q3
  | y | wLo | wHi
  deriving DecidableEq, Repr

/-- The three buffer spaces of 20_memory.md R50. -/
inductive Buffer where
  | input | sdr | hdr
  deriving DecidableEq, Repr

/-- The four windows of 20_memory.md R59. -/
inductive Window where
  | reg
  | buf (b : Buffer)
  deriving DecidableEq, Repr

/-- One bus operation of the host. `read` and `write` name a window and a byte offset in it, `n` is the
width in bytes, and a write of fewer than four bytes uses the low `8n` bits of `data` (20_memory.md R9,
R62; 10_state.md R41). `readAt` and `writeAt` give an address of the host's address space instead
(R59). `waitDone` is the polling loop of 30_encoding.md R82: one read of `STATUS`, repeated until it shows
`DONE` or `ERR`. -/
inductive HostOp where
  | read (win : Window) (off n : Nat)
  | write (win : Window) (off n : Nat) (data : Word)
  | readAt (addr n : Nat)
  | writeAt (addr n : Nat) (data : Word)
  | waitDone
  deriving DecidableEq, Repr

/-- The pseudo-commands of 30_encoding.md R83. -/
inductive Macro where
  | pixSdr | pixHdr10 | pixHdr16 | pixGm | pixSl
  deriving DecidableEq, Repr

/-- One line of a host program (30_encoding.md R82), or a macro standing for several (R83). -/
inductive HostLine where
  | wr (reg : Reg) (value : Word)
  | rd (reg : Reg)
  | cmd (i : Instr)
  | wrb (space : Buffer) (off n : Nat) (value : Word)
  | rdb (space : Buffer) (off n : Nat)
  | waitDone
  | pseudo (m : Macro)
  deriving DecidableEq, Repr

end Sys2Proof
end

