-- ==== Sys2Proof/WellFormed.lean ====
section
/-! DEFINITION. Well-formedness of syntax. A command has no operand field (30_encoding.md R75, R76), so
every `Instr` is well formed; a line of a host program has a width and an offset, which R82 and
20_memory.md R62 restrict. -/

namespace Sys2Proof

/-- A command carries no register field, immediate or modifier (30_encoding.md R75, R76): nothing in it
can be ill formed. Ill-formed WORDS are the decoder's to reject (R79). -/
def Instr.wellFormed : Instr → Bool
  | .nop | .clr | .gdec | .genc | .pqenc | .nscale | .mat3 | .clamp | .luma | .q8 | .q10a2 | .q16
  | .pk8 | .pk10 | .pk16 | .ldpx | .sts | .sth10 | .sth16 | .cllclr | .cllacc | .cllfin
  | .runGm | .runSl => true

/-- "`n` in 1, 2, 4" (30_encoding.md R82; 20_memory.md R62). -/
def widthWellFormed (n : Nat) : Bool := n == 1 || n == 2 || n == 4

/-- "naturally aligned (offset a multiple of the width)" (20_memory.md R62). -/
def alignWellFormed (off n : Nat) : Bool := off % n == 0

/-- A value written by `WRB` fits the width of the access (30_encoding.md R82; 00_scope.md R9). -/
def valueWellFormed (n : Nat) (value : Word) : Bool := decide (value.toNat < 2 ^ (8 * n))

/-- The lines a host program may hold (30_encoding.md R82). An ill-formed line is still an access the
block answers (with a bus error response, R62, where the width or the alignment is wrong). -/
def HostLine.wellFormed : HostLine → Bool
  | .wr _ _ | .rd _ | .waitDone | .pseudo _ => true
  | .cmd i => i.wellFormed
  | .wrb _ off n value => widthWellFormed n && alignWellFormed off n && valueWellFormed n value
  | .rdb _ off n => widthWellFormed n && alignWellFormed off n

end Sys2Proof
end

