-- ==== Sys2Proof/Decode.lean ====
section
/-! DEFINITION. Decoding of a command word (30_encoding.md R75, R78, R79), total on 32-bit words, and the
encoder, written from the same table. -/

namespace Sys2Proof

/-- Why a word is no command (30_encoding.md R79). The machine answers both with `E_ILLCMD`. -/
inductive DecodeError where
  /-- `RSV = w[31:8]` is not zero. -/
  | reservedBits (rsv : BitVec 24)
  /-- `RSV` is zero and `OP = w[7:0]` is not in the table. -/
  | unknownOpcode (op : BitVec 8)
  deriving DecidableEq, Repr

/-- Field `RSV` of format C (30_encoding.md R75). -/
def fieldRsv (w : Word) : BitVec 24 := w.extractLsb 31 8

/-- Field `OP` of format C (30_encoding.md R75). -/
def fieldOp (w : Word) : BitVec 8 := w.extractLsb 7 0

/-- The opcode map of 30_encoding.md R78. -/
def decodeOp (op : BitVec 8) : Option Instr :=
  match op with
  | 0x00 => some .nop
  | 0x01 => some .clr
  | 0x10 => some .gdec
  | 0x11 => some .genc
  | 0x12 => some .pqenc
  | 0x20 => some .nscale
  | 0x21 => some .mat3
  | 0x22 => some .clamp
  | 0x23 => some .luma
  | 0x30 => some .q8
  | 0x31 => some .q10a2
  | 0x32 => some .q16
  | 0x38 => some .pk8
  | 0x39 => some .pk10
  | 0x3A => some .pk16
  | 0x40 => some .ldpx
  | 0x41 => some .sts
  | 0x42 => some .sth10
  | 0x43 => some .sth16
  | 0x50 => some .cllclr
  | 0x51 => some .cllacc
  | 0x52 => some .cllfin
  | 0x80 => some .runGm
  | 0x81 => some .runSl
  | _ => none

/-- The command a word names, or why it names none (30_encoding.md R75, R78, R79). -/
def decode (w : Word) : Except DecodeError Instr :=
  if fieldRsv w = 0 then
    match decodeOp (fieldOp w) with
    | some i => .ok i
    | none => .error (.unknownOpcode (fieldOp w))
  else .error (.reservedBits (fieldRsv w))

/-- The match word of a command (30_encoding.md R78). -/
def encode (i : Instr) : Word :=
  match i with
  | .nop => 0x00000000
  | .clr => 0x00000001
  | .gdec => 0x00000010
  | .genc => 0x00000011
  | .pqenc => 0x00000012
  | .nscale => 0x00000020
  | .mat3 => 0x00000021
  | .clamp => 0x00000022
  | .luma => 0x00000023
  | .q8 => 0x00000030
  | .q10a2 => 0x00000031
  | .q16 => 0x00000032
  | .pk8 => 0x00000038
  | .pk10 => 0x00000039
  | .pk16 => 0x0000003A
  | .ldpx => 0x00000040
  | .sts => 0x00000041
  | .sth10 => 0x00000042
  | .sth16 => 0x00000043
  | .cllclr => 0x00000050
  | .cllacc => 0x00000051
  | .cllfin => 0x00000052
  | .runGm => 0x00000080
  | .runSl => 0x00000081

/-- The command that the decoder reads from an instruction whose `nbits` bits are `w`; bits above are zero.
A command is one 32-bit word written with one register write (30_encoding.md R75), so there is no byte
layout in between. -/
def decodeTableWord (nbits w : Nat) : Option Instr :=
  match decode (BitVec.ofNat 32 (w % 2 ^ nbits)) with
  | .ok i => some i
  | .error _ => none

end Sys2Proof
end

