-- ==== Sys2Proof/Machine/Constants.lean ====
section
/-! DEFINITION. The datapath constants of 00_scope.md R14, as the binary32 patterns the block holds, and
the identity constant of 10_state.md R23. -/

namespace Sys2Proof.Machine

/-- `ID` reads this (10_state.md R23). -/
def idValue : Word := 0x43545001

/-- `G22`: the decode exponent 2.2 (R14). -/
def kG22 : Word := 0x400CCCCD
/-- `GINV`: the encode exponent 1/2.2 (R14, 40_transfer.md R92). -/
def kGINV : Word := 0x3EE8BA2E
/-- `S`: 203/10000 (R14, 41_gamut.md R100). -/
def kS : Word := 0x3CA64C30
/-- `K`: the inner PQ exponent 0.1593017578125 (R14). -/
def kK : Word := 0x3E232000
/-- `C1`: 0.1640625 (R14). -/
def kC1 : Word := 0x3E280000
/-- `C3`: 18.6875 (R14). -/
def kC3 : Word := 0x41958000
/-- `M2`: the outer PQ exponent 78.84375 (R14). -/
def kM2 : Word := 0x429DB000
/-- `LW[0]`: 0.2627 (R14). -/
def kLW0 : Word := 0x3E86809D
/-- `LW[1]`: 0.6780 (R14). -/
def kLW1 : Word := 0x3F2D9168
/-- `LW[2]`: 0.0593 (R14). -/
def kLW2 : Word := 0x3D72E48F
/-- `NITS`: 10000 (R14). -/
def kNITS : Word := 0x461C4000
/-- `S8`: 255 (R14). -/
def kS8 : Word := 0x437F0000
/-- `S10`: 1023 (R14, 42_quantize_pack.md R114). -/
def kS10 : Word := 0x447FC000
/-- `S16`: 65535 (R14). -/
def kS16 : Word := 0x477FFF00
/-- `S2`: 3 (R14). -/
def kS2 : Word := 0x40400000
/-- `ONE`: 1 (R14). -/
def kONE : Word := 0x3F800000

/-- `+0.0` (R11). -/
def fZero : Word := 0x00000000
/-- `+infinity` (R11). -/
def fInf : Word := 0x7F800000
/-- The canonical quiet NaN (R11). -/
def fNaN : Word := 0x7FC00000

/-- The four exponents `POW32` is called with (R13). -/
def powExponents : List Word := [kG22, kGINV, kK, kM2]

/-- One row of a 3×3 matrix of binary32 coefficients (R14). -/
structure MatRow where
  c0 : Word
  c1 : Word
  c2 : Word
  deriving DecidableEq, Repr

/-- A 3×3 matrix, row-major (R14, 41_gamut.md R103). -/
structure Mat where
  row0 : MatRow
  row1 : MatRow
  row2 : MatRow
  deriving DecidableEq, Repr

/-- `MAT` of R14: the rows exactly as the source writes them (90_conflicts.md C5). -/
def matR14 : Mat where
  row0 := ⟨0x3F209DE0, 0x3D8D914E, 0x3C868A5E⟩
  row1 := ⟨0x3EA894C4, 0x3F6B6790, 0x3DB45268⟩
  row2 := ⟨0x3D313DE0, 0x3C397AE0, 0x3F654728⟩

end Sys2Proof.Machine
end

