-- ==== Sys2Proof/Config.lean ====
section
/-! DEFINITION. What is fixed for an instance of the block and what the spec leaves free. The OPEN
parameters of 00_scope.md R6 are one uninterpreted constant that satisfies the spec's conditions on them;
the values no rule constrains are uninterpreted functions. `MAT` is held in the configuration record as
00_scope.md R6 and 90_conflicts.md C5 ask. -/

namespace Sys2Proof

open Machine

/-- Laws P1 to P5 of 00_scope.md R13 for a power function. P1 (total, deterministic, a function of its
arguments) is the type. The domain is `+0`, positive finite and `+infinity`: exactly the patterns at most
`fInf`, and on those patterns the order of values is the unsigned order of patterns. -/
structure PowLaws (pow : Word → Word → Word) : Prop where
  /-- P2. -/
  zero : ∀ y ∈ powExponents, pow fZero y = fZero
  /-- P3. -/
  one : ∀ y ∈ powExponents, pow kONE y = kONE
  /-- P4. -/
  mono : ∀ y ∈ powExponents, ∀ x x' : Word, x ≤ x' → x' ≤ fInf → pow x y ≤ pow x' y
  /-- P5, at `+infinity`. -/
  inf : ∀ y ∈ powExponents, pow fInf y = fInf
  /-- P5, at the other arguments: not NaN and not negative (DEDUCED: the sign bit is clear, assumption 7). -/
  range : ∀ y ∈ powExponents, ∀ x : Word, x ≤ fInf → pow x y ≤ fInf

/-- The OPEN parameters of 00_scope.md R6. -/
structure OpenParams where
  /-- `MAX_PIXELS − 1`: the type says `1 ≤ MAX_PIXELS ≤ 2^32 − 1`. -/
  lastPixel : Fin 4294967295
  regBase : Nat
  inBase : Nat
  sdrBase : Nat
  hdrBase : Nat
  /-- `POW32` of R13. -/
  pow32 : Word → Word → Word

/-- The capacity of each buffer in pixels (R6). -/
def OpenParams.maxPixels (p : OpenParams) : Nat := p.lastPixel.val + 1

/-- Size in bytes of a window (20_memory.md R50; 10_state.md R22). -/
def OpenParams.windowSize (p : OpenParams) : Window → Nat
  | .reg => 256
  | .buf .input => 16 * p.maxPixels
  | .buf .sdr => 4 * p.maxPixels
  | .buf .hdr => 8 * p.maxPixels

/-- Where a window starts in the host's address space (20_memory.md R59). -/
def OpenParams.windowBase (p : OpenParams) : Window → Nat
  | .reg => p.regBase
  | .buf .input => p.inBase
  | .buf .sdr => p.sdrBase
  | .buf .hdr => p.hdrBase

/-- The conditions 00_scope.md R6 and R13 put on the OPEN parameters. -/
structure OpenParams.Admissible (p : OpenParams) : Prop where
  aligned : ∀ w : Window, p.windowBase w % 8 = 0
  disjoint : ∀ w w' : Window, w ≠ w' →
    p.windowBase w + p.windowSize w ≤ p.windowBase w' ∨ p.windowBase w' + p.windowSize w' ≤ p.windowBase w
  pow : PowLaws p.pow32

/-- OPEN parameters with the proof that the spec admits them. -/
structure AdmissibleParams where
  params : OpenParams
  ok : params.Admissible

/-- A power function that obeys the laws, used only to show that there is one: 0 below 1.0, 1.0 from there
on, infinity at infinity. -/
def stepPow (x _y : Word) : Word :=
  if x < kONE then fZero else if x < fInf then kONE else fInf

theorem stepPow_le_inf (x y : Word) : stepPow x y ≤ fInf := by
  unfold stepPow; split <;> [skip; split] <;> decide

theorem stepPow_laws : PowLaws stepPow where
  zero := fun _ _ => by simp [stepPow, fZero, kONE]
  one := fun _ _ => by simp [stepPow, kONE, fInf]
  mono := fun _ _ x x' h h' => by
    rw [BitVec.le_def] at h ⊢
    unfold stepPow
    simp only [BitVec.lt_def]
    repeat' split
    all_goals first
      | exact Nat.zero_le _
      | exact Nat.le_refl _
      | decide
      | omega
  inf := fun _ _ => by simp [stepPow, kONE, fInf]
  range := fun _ _ x _ => stepPow_le_inf x _

/-- One admissible choice of the OPEN parameters, used only to show that there is one. -/
def someAdmissible : AdmissibleParams where
  params := ⟨0, 0, 256, 272, 280, stepPow⟩
  ok :=
    { aligned := fun w => by rcases w with _ | _ | _ | _ <;> rfl
      disjoint := fun w w' h => by
        rcases w with _ | _ | _ | _ <;> rcases w' with _ | _ | _ | _ <;>
          simp_all [OpenParams.windowBase, OpenParams.windowSize, OpenParams.maxPixels]
      pow := stepPow_laws }

/-- The OPEN parameters of the instance at hand: an UNINTERPRETED constant. Nothing but `AdmissibleParams.ok`
can be proved of it. (The bracketed argument only shows Lean that the type has a member; it gives the
constant no value.) -/
opaque Config.instanceParams [Inhabited AdmissibleParams] : AdmissibleParams

/-- The OPEN parameters, with their conditions (00_scope.md R6, R13). -/
def Config.openParams : AdmissibleParams := @Config.instanceParams ⟨someAdmissible⟩

/-- The configuration record: the OPEN parameters, and the matrix, which the source fixes but a claim is to
name (00_scope.md R6; 90_conflicts.md C5; 92_eei_decisions.md D32). -/
structure Config where
  params : OpenParams
  mat : Mat

/-- The configuration of the machine of this model. -/
def Config.here : Config := ⟨Config.openParams.params, matR14⟩

/-- `MAX_PIXELS` (00_scope.md R6). -/
def Config.maxPixels (c : Config) : Nat := c.params.maxPixels

/-- What the register `CAP` reads (10_state.md R33). -/
def Config.cap (c : Config) : Word := BitVec.ofNat 32 c.maxPixels

/-- Size in bytes of a buffer space (20_memory.md R50). -/
def Config.size (c : Config) (b : Buffer) : Nat := c.params.windowSize (.buf b)

/-- The byte an offset of a buffer space reads as until it is first written, after the given number of
resets: no rule constrains it, and it is stable (70_reset_and_hazards.md R196, R197). -/
opaque Config.unspecifiedByte (resets : Nat) (b : Buffer) (off : Nat) : Byte

/-- The agents (45_frame.md R151; 20_memory.md R65; 70_reset_and_hazards.md R195). -/
inductive Machine.Agent where
  | host | engine | platform
  deriving DecidableEq, Repr

/-- A schedule: for each number of a choice, which of the agents that can move does so. It is free (20_memory.md
R65) but for what 45_frame.md R151 assumes: an enabled engine step is eventually taken (weak fairness). -/
structure Schedule where
  pick : Nat → List Agent → Agent
  /-- The agent picked is one that can move. -/
  mem : ∀ (k : Nat) (enabled : List Agent), enabled ≠ [] → pick k enabled ∈ enabled
  /-- R151: again and again comes a choice at which the engine moves if it can. -/
  fair : ∀ k : Nat, ∃ j, k ≤ j ∧ ∀ enabled : List Agent, .engine ∈ enabled → pick j enabled = .engine

/-- One schedule, used only to show that there is one: the engine moves whenever it can. -/
def someSchedule : Schedule where
  pick _ enabled := if .engine ∈ enabled then .engine else enabled.headD .engine
  mem _ enabled h := by
    cases enabled with
    | nil => exact absurd rfl h
    | cons a rest =>
      simp only [List.headD_cons]
      split
      · assumption
      · exact List.mem_cons_self
  fair k := ⟨k, Nat.le_refl k, fun _ h => if_pos h⟩

/-- The schedule of the run at hand: an UNINTERPRETED constant. Nothing but the two laws of `Schedule` can be
proved of it. (The bracketed argument only shows Lean that the type has a member; it gives the constant no
value.) -/
opaque Config.instanceSchedule [Inhabited Schedule] : Schedule

/-- The schedule, with its laws (45_frame.md R151; assumption 2). -/
def Config.schedule : Schedule := @Config.instanceSchedule ⟨someSchedule⟩

/-- Which of the pixels still to do the engine takes: free (45_frame.md R152). -/
opaque Config.pixelPick (choice : Nat) : Nat

/-- How many pixel steps beyond the completed ones a read of `PIXDONE` counts while the engine runs: free
within the bounds of 10_state.md R31. -/
opaque Config.stepsAhead (choice : Nat) : Nat

end Sys2Proof
end

