-- ==== Sys2Proof/Machine/Float.lean ====
section
/-! DEFINITION. IEEE 754 binary32 arithmetic as 00_scope.md R11 fixes it: round to nearest, ties to even,
subnormals kept, overflow to infinity, one canonical NaN, no fused multiply-add. A finite value is held as
a whole number of units of 2^-149 (the smallest subnormal), so every exact result is a fraction of two
natural numbers and is rounded once. -/

namespace Sys2Proof.Machine

/-- What a binary32 pattern denotes (00_scope.md R11). `fin neg mag` is `mag · 2^-149` with its sign. -/
inductive FVal where
  | nan
  | inf (neg : Bool)
  | fin (neg : Bool) (mag : Nat)
  deriving DecidableEq, Repr

/-- Bit 31 (R11). -/
def fSign (w : Word) : Bool := w.toNat / 2 ^ 31 == 1

/-- Bits 30:23 (R11). -/
def fExp (w : Word) : Nat := w.toNat / 2 ^ 23 % 2 ^ 8

/-- Bits 22:0 (R11). -/
def fFrac (w : Word) : Nat := w.toNat % 2 ^ 23

/-- The pattern without its sign bit; on non-NaN patterns it is ordered as the absolute values are. -/
def fMag (w : Word) : Nat := w.toNat % 2 ^ 31

/-- The value of a pattern: exponent bias 127, subnormals, signed zeros, infinities, NaN (R11). -/
def fUnpack (w : Word) : FVal :=
  if fExp w = 255 then (if fFrac w = 0 then .inf (fSign w) else .nan)
  else if fExp w = 0 then .fin (fSign w) (fFrac w)
  else .fin (fSign w) ((2 ^ 23 + fFrac w) * 2 ^ (fExp w - 1))

/-- `num / den` rounded to the nearest integer, ties to even. -/
def roundEven (num den : Nat) : Nat :=
  let q := num / den
  let r := num % den
  if 2 * r < den then q else if den < 2 * r then q + 1 else q + q % 2

/-- The magnitude pattern (bits 30:0) nearest to `num / den` units of 2^-149, ties to even, saturating at
infinity (R11). The significand is cut at 24 bits; below 2^24 units the pattern is the number itself. -/
def roundMag (num den : Nat) : Nat :=
  let k := Nat.log2 (num / den) - 23
  min (k * 2 ^ 23 + roundEven num (den * 2 ^ k)) 0x7F800000

/-- A pattern from a sign and a magnitude pattern. -/
def fPack (neg : Bool) (mag : Nat) : Word := BitVec.ofNat 32 (mag + if neg then 2 ^ 31 else 0)

/-- A signed infinity. -/
def fInfOf (neg : Bool) : Word := fPack neg 0x7F800000

/-- A finite exact value `± num / den` units, rounded (R11). -/
def fRound (neg : Bool) (num den : Nat) : Word := fPack neg (roundMag num den)

/-- `fadd` (R11). A sum of opposite values that is exactly zero is `+0`, as round to nearest has it
(PRESUMED IEEE 754, assumption 10). -/
def fadd (a b : Word) : Word :=
  match fUnpack a, fUnpack b with
  | .nan, _ => fNaN
  | _, .nan => fNaN
  | .inf s, .inf t => if s = t then fInfOf s else fNaN
  | .inf s, .fin _ _ => fInfOf s
  | .fin _ _, .inf t => fInfOf t
  | .fin s m, .fin t n =>
    if s = t then fRound s (m + n) 1
    else if n < m then fRound s (m - n) 1
    else if m < n then fRound t (n - m) 1
    else fZero

/-- A pattern with the sign bit flipped. -/
def fneg (a : Word) : Word := a ^^^ 0x80000000

/-- `fsub` (R11): the sum with the subtrahend's sign flipped. -/
def fsub (a b : Word) : Word := fadd a (fneg b)

/-- `fmul` (R11). -/
def fmul (a b : Word) : Word :=
  match fUnpack a, fUnpack b with
  | .nan, _ => fNaN
  | _, .nan => fNaN
  | .inf s, .inf t => fInfOf (s != t)
  | .inf s, .fin t n => if n = 0 then fNaN else fInfOf (s != t)
  | .fin s m, .inf t => if m = 0 then fNaN else fInfOf (s != t)
  | .fin s m, .fin t n => fRound (s != t) (m * n) (2 ^ 149)

/-- `fdiv` (R11). A non-zero number divided by zero is an infinity (PRESUMED IEEE 754, assumption 10). -/
def fdiv (a b : Word) : Word :=
  match fUnpack a, fUnpack b with
  | .nan, _ => fNaN
  | _, .nan => fNaN
  | .inf _, .inf _ => fNaN
  | .inf s, .fin t _ => fInfOf (s != t)
  | .fin s _, .inf t => fPack (s != t) 0
  | .fin s m, .fin t n =>
    if n = 0 then (if m = 0 then fNaN else fInfOf (s != t))
    else fRound (s != t) (m * 2 ^ 149) n

/-- `is_nonfinite` (R11): the exponent field is all ones. -/
def isNonfinite (w : Word) : Bool := fExp w == 255

/-- The pattern is a NaN (R11). -/
def isNaN (w : Word) : Bool := fExp w == 255 && fFrac w != 0

/-- A key ordered as the values are: sign and magnitude as an integer, both zeros at 0. -/
def fKey (w : Word) : Int := if fSign w then -(fMag w : Int) else (fMag w : Int)

/-- `a < b` (R11): false if either is a NaN; `−0` equals `+0`. -/
def flt (a b : Word) : Bool := !isNaN a && !isNaN b && decide (fKey a < fKey b)

/-- `a > b` (R11). -/
def fgt (a b : Word) : Bool := flt b a

/-- `rhaz` (R12): round half away from zero, for a finite `p ≥ 0`. Its callers pass nothing else; the value
at an infinity or a NaN is never used (assumption 11). -/
def rhaz (p : Word) : Nat :=
  match fUnpack p with
  | .fin _ m => m / 2 ^ 149 + if 2 ^ 149 ≤ 2 * (m % 2 ^ 149) then 1 else 0
  | .inf _ | .nan => 0

/-- `clamp01` (R15). -/
def clamp01 (v : Word) : Word :=
  if fgt v fZero then (if flt v kONE then v else kONE) else fZero

end Sys2Proof.Machine
end

