-- ==== Sys2Proof/Machine/State.lean ====
section
/-! DEFINITION. The state of shotHDR-CTP (10_state.md R20): every register of R22, the three buffers, the
hidden engine state of R42, the level of `rst`, and the model's own fields (inputs not yet consumed, the
last bus response, two counters for free values). -/

namespace Sys2Proof.Machine

/-- Four lanes r, g, b, a: lane index 0 is red, 3 is alpha (00_scope.md R8). -/
structure Lanes (α : Type) where
  r : α
  g : α
  b : α
  a : α
  deriving DecidableEq, Repr

/-- A buffer's bytes: (offset, byte) pairs with offsets strictly rising. A listed offset holds the byte last
written to it; an unlisted offset has not been written since reset and holds NO byte of this list: it reads
as `Config.unspecifiedByte` (10_state.md R43; 70_reset_and_hazards.md R196). -/
abbrev Memory := List Host.Cell

/-- Which frame command is running: `ENG_MODE` of 10_state.md R42. -/
inductive EngMode where
  | gm | sl
  deriving DecidableEq, Repr

/-- The hidden engine state of 10_state.md R42, which exists only while `BUSY = 1`. -/
structure Engine where
  /-- `ENG_MODE`. -/
  mode : EngMode
  /-- `ENG_N`: the frame's pixel count. -/
  n : Nat
  /-- `DONESET`: the pixels whose step has been performed, as a strictly rising list. -/
  doneSet : List Nat
  deriving DecidableEq, Repr

/-- The block's answer to a host access. -/
inductive Response where
  /-- Normal response to a write. -/
  | ok
  /-- Normal response to a read, with its data, zero-extended to 32 bits. -/
  | data (v : Word)
  /-- Bus error response (10_state.md R41; 20_memory.md R62, R63; 60_exceptions.md R185). -/
  | busError
  deriving DecidableEq, Repr

/-- Reasons a step of the model stops. The block itself stops for nothing (93_implementation_defined.md,
section 2): both are raised by engine steps in states that no run reaches (`Inv` of Safety.lean rules them
out), where the spec defines no access or no quotient. Both are safe: nothing is claimed of what follows. -/
inductive Fault where
  /-- A pixel step for a pixel at or beyond `MAX_PIXELS`: the access is outside its space, where
  00_scope.md R9 defines none. Raised by `pixelStep` only; safe. -/
  | outsideSpace (pixel : Nat)
  /-- A single-layer completion with `CLL_CNT = 0`: 44_cll.md R139 defines no quotient. Raised by
  `completionStep` only; safe. -/
  | meanOfNothing
  deriving DecidableEq, Repr

/-- Refusals. -/
inductive Refusal where
  /-- The instruction has no meaning in the model yet. Raised by an arm of `exec` only; safe. No arm raises
  it: every command has its meaning. -/
  | notModelled (mnemonic : String)
  deriving DecidableEq, Repr

/-- The state of the machine. `STATUS.BUSY` is not stored: it is 1 exactly while the engine state exists
(10_state.md R42, assumption 8). `ID` and `CAP` are constants (R23, R33), `CMD` is a port (R24). -/
structure State where
  /-- `STATUS.DONE` (R25). -/
  done : Bool
  /-- `STATUS.ERR` (R25). -/
  err : Bool
  /-- `STATUS.NONFIN` (R25). -/
  nonfin : Bool
  /-- `ERRCODE` (R26). -/
  errcode : BitVec 4
  /-- `ERRINFO` (R27). -/
  errinfo : Word
  /-- `IRQ_EN`: bit 0 `DONE_IE`, bit 1 `ERR_IE` (R28). -/
  irqEn : BitVec 2
  /-- `WIDTH` (R29). -/
  width : Word
  /-- `HEIGHT` (R29). -/
  height : Word
  /-- `IN_COUNT` (R30). -/
  inCount : Word
  /-- `PIXDONE` (R31). -/
  pixdone : Word
  /-- `IDX` (R32). -/
  idx : Word
  /-- `MAXCLL` (R34). -/
  maxcll : Half
  /-- `MAXPALL` (R34). -/
  maxpall : Half
  /-- `CLL_MAX` (R35). -/
  cllMax : Half
  /-- `CLL_CNT` (R35). -/
  cllCnt : Word
  /-- `CLL_SUM` (R35). -/
  cllSum : BitVec 48
  /-- `V0`..`V3` (R36). -/
  v : Lanes Word
  /-- `Q0`..`Q3` (R37). -/
  q : Lanes Half
  /-- `Y` (R38). -/
  y : Half
  /-- `W` (R39). -/
  w : DWord
  /-- The `IN` buffer (R43; 20_memory.md R52). -/
  inBuf : Memory
  /-- The `SDR` buffer (R43; 20_memory.md R53). -/
  sdrBuf : Memory
  /-- The `HDR` buffer (R43; 20_memory.md R54, R55). -/
  hdrBuf : Memory
  /-- The hidden engine state (R42). -/
  engine : Option Engine
  /-- The level of the reset input (70_reset_and_hazards.md R195). -/
  rst : Bool
  /-- The model's own: how many resets have been released; argument of the unspecified bytes. -/
  resets : Nat
  /-- The model's own: how many free choices have been made. -/
  choice : Nat
  /-- The model's own: the host's accesses not yet delivered, in delivery order (20_memory.md R65). -/
  host : List HostOp
  /-- The model's own: the levels the platform will drive on `rst`, in order. -/
  rstInput : List Bool
  /-- The model's own: the response to the host's last access. -/
  response : Option Response
  deriving DecidableEq, Repr

/-- The state after reset (10_state.md R44). Buffer bytes are unspecified, so none is listed; the model's
own fields are empty (assumptions 1, 2, 5, 16, 17). -/
def State.reset : State where
  done := false
  err := false
  nonfin := false
  errcode := 0
  errinfo := 0
  irqEn := 0
  width := 0
  height := 0
  inCount := 0
  pixdone := 0
  idx := 0
  maxcll := 0
  maxpall := 0
  cllMax := 0
  cllCnt := 0
  cllSum := 0
  v := ⟨0, 0, 0, 0⟩
  q := ⟨0, 0, 0, 0⟩
  y := 0
  w := 0
  inBuf := []
  sdrBuf := []
  hdrBuf := []
  engine := none
  rst := false
  resets := 0
  choice := 0
  host := []
  rstInput := []
  response := none

end Sys2Proof.Machine
end

