-- ==== Sys2Proof/Machine/Flags.lean ====
section
/-! DEFINITION. The block's flags: the `STATUS` word (10_state.md R25), the non-finite sample flag (R25,
43_memory_ops.md R129, 45_frame.md R153) and the interrupt line (R46). No arithmetic command writes a
flag (R25). -/

namespace Sys2Proof.Machine

/-- `STATUS.BUSY` (R25): the engine state exists (R42). -/
def State.busy (s : State) : Bool := s.engine.isSome

/-- What a read of `STATUS` returns: bit 0 `BUSY`, bit 1 `DONE`, bit 2 `ERR`, bit 3 `NONFIN`, the rest
zero (R25). -/
def State.statusWord (s : State) : Word :=
  0#28 ++ BitVec.ofBool s.nonfin ++ BitVec.ofBool s.err ++ BitVec.ofBool s.done ++ BitVec.ofBool s.busy

/-- `irq` (R46): a level, combinational in `DONE`, `ERR` and the two enables. -/
def State.irq (s : State) : Bool :=
  (s.done && s.irqEn.getLsbD 0) || (s.err && s.irqEn.getLsbD 1)

/-- Some lane of a sample is a NaN or an infinity (43_memory_ops.md R129). -/
def sampleNonfinite (p : Lanes Word) : Bool :=
  isNonfinite p.r || isNonfinite p.g || isNonfinite p.b || isNonfinite p.a

/-- `NONFIN` is set, never cleared, by a sample with a non-finite lane (R25, R129, R153). -/
def State.noteSample (s : State) (p : Lanes Word) : State :=
  { s with nonfin := s.nonfin || sampleNonfinite p }

end Sys2Proof.Machine
end

