-- ==== Sys2Proof/Machine/Memory.lean ====
section
/-! DEFINITION. A buffer's bytes as a list in one canonical form: reading and writing one byte, storing
several (00_scope.md R9; 10_state.md R43; 20_memory.md R57). -/

namespace Sys2Proof.Machine

/-- The byte last written at an offset, if one was written since reset (R43). -/
def Memory.byte? (m : Memory) (x : Nat) : Option Byte :=
  match m with
  | [] => none
  | (a, b) :: rest => if x = a then some b else Memory.byte? rest x

/-- Write one byte, keeping the offsets strictly rising (R43). -/
def Memory.put (m : Memory) (x : Nat) (v : Byte) : Memory :=
  match m with
  | [] => [(x, v)]
  | (a, b) :: rest =>
    if x < a then (x, v) :: (a, b) :: rest
    else if x = a then (x, v) :: rest
    else (a, b) :: Memory.put rest x v

/-- `MemWrite` on a list of bytes: the `n` low bytes of `v` at `a`, little-endian (00_scope.md R9). -/
def Memory.store (m : Memory) (a n v : Nat) : Memory :=
  match n with
  | 0 => m
  | k + 1 => Memory.store (Memory.put m a (BitVec.ofNat 8 v)) (a + 1) k (v / 256)

/-- `n` bytes from `a`, assembled little-endian into a number (00_scope.md R9). -/
def readLittle (byte : Nat → Byte) (a n : Nat) : Nat :=
  match n with
  | 0 => 0
  | k + 1 => (byte a).toNat + 256 * readLittle byte (a + 1) k

/-- The canonical form: offsets strictly rising. An unlisted offset holds no byte, so no entry can equal
what an unlisted offset holds, and memories that hold the same bytes are the same list. -/
abbrev Memory.wf (m : Memory) : Prop := m.Pairwise (fun p q => p.1 < q.1)

/-- Every listed offset lies inside a space of the given size (20_memory.md R50). -/
abbrev Memory.within (m : Memory) (size : Nat) : Prop := ∀ p ∈ m, p.1 < size

end Sys2Proof.Machine
end

