-- ==== Sys2Proof/Machine/Ops.lean ====
section
/-! DEFINITION. The named operations over the buffers and the registers that several rules share: memory
reads and writes (00_scope.md R9), taking an error and returning from one (60_exceptions.md R180, R182),
the bus response. -/

namespace Sys2Proof.Machine

/-- What a meaning answers. -/
abbrev Result := Host.Outcome State Fault Refusal

/-- The bytes of a buffer space (20_memory.md R50). -/
def State.buffer (s : State) (b : Buffer) : Memory :=
  match b with
  | .input => s.inBuf
  | .sdr => s.sdrBuf
  | .hdr => s.hdrBuf

/-- Replace the bytes of a buffer space. -/
def State.setBuffer (s : State) (b : Buffer) (m : Memory) : State :=
  match b with
  | .input => { s with inBuf := m }
  | .sdr => { s with sdrBuf := m }
  | .hdr => { s with hdrBuf := m }

/-- The byte at an offset of a buffer space: the byte last written, or the unspecified byte that the offset
has held since reset (10_state.md R43; 70_reset_and_hazards.md R196). -/
def State.byteAt (s : State) (b : Buffer) (x : Nat) : Byte :=
  (Memory.byte? (s.buffer b) x).getD (Config.unspecifiedByte s.resets b x)

/-- `MemRead(space, addr, n)` (00_scope.md R9). Its callers check the bounds. -/
def State.memRead (s : State) (b : Buffer) (a n : Nat) : Nat := readLittle (s.byteAt b) a n

/-- `MemWrite(space, addr, n, v)` (00_scope.md R9). Its callers check the bounds. -/
def State.memWrite (s : State) (b : Buffer) (a n v : Nat) : State :=
  s.setBuffer b (Memory.store (s.buffer b) a n v)

/-- The causes of 60_exceptions.md R176. -/
inductive Cause where
  | illcmd | dim | size | cap | idx | cll
  deriving DecidableEq, Repr

/-- The cause codes of 60_exceptions.md R176. -/
def Cause.code : Cause → BitVec 4
  | .illcmd => 1
  | .dim => 2
  | .size => 3
  | .cap => 4
  | .idx => 5
  | .cll => 6

/-- Error entry, the whole of `raise E(info)` (60_exceptions.md R180; 00_scope.md R10). -/
def State.raise (s : State) (e : Cause) (info : Word) : State :=
  { s with err := true, errcode := e.code, errinfo := info }

/-- The return from an error: what `CLR` clears (60_exceptions.md R182; 46_control.md R168; 10_state.md
R45). -/
def State.clearStatus (s : State) : State :=
  { s with done := false, err := false, nonfin := false, errcode := 0, errinfo := 0 }

/-- Record the bus response of the host's access. -/
def State.respond (s : State) (r : Response) : State := { s with response := some r }

/-- One free choice has been made. -/
def State.tick (s : State) : State := { s with choice := s.choice + 1 }

end Sys2Proof.Machine
end

