-- ==== Sys2Proof/Machine/Operands.lean ====
section
/-! DEFINITION. The operand forms of the commands: lanes of `V` and `Q` (00_scope.md R8), a sample of `IN`
(20_memory.md R52), the pixel index with its check (43_memory_ops.md R128). -/

namespace Sys2Proof.Machine

/-- `for c in 0..3: V[c] <- f(V[c])`. -/
def Lanes.map {α β : Type} (f : α → β) (l : Lanes α) : Lanes β := ⟨f l.r, f l.g, f l.b, f l.a⟩

/-- `for c in 0..2: V[c] <- f(V[c])`; lane 3, alpha, is kept (40_transfer.md R93). -/
def Lanes.mapRgb {α : Type} (f : α → α) (l : Lanes α) : Lanes α := ⟨f l.r, f l.g, f l.b, l.a⟩

/-- The lane with an index: 0 red, 1 green, 2 blue, 3 alpha (00_scope.md R8). -/
def Lanes.lane {α : Type} (l : Lanes α) : Fin 4 → α
  | 0 => l.r
  | 1 => l.g
  | 2 => l.b
  | 3 => l.a

/-- Sample `i` of `IN`: four binary32 patterns at `16i`, `16i+4`, `16i+8`, `16i+12` (20_memory.md R52). -/
def State.sample (s : State) (i : Nat) : Lanes Word where
  r := BitVec.ofNat 32 (s.memRead .input (16 * i) 4)
  g := BitVec.ofNat 32 (s.memRead .input (16 * i + 4) 4)
  b := BitVec.ofNat 32 (s.memRead .input (16 * i + 8) 4)
  a := BitVec.ofNat 32 (s.memRead .input (16 * i + 12) 4)

/-- The index check common to the scalar memory commands (43_memory_ops.md R128): at or beyond `CAP` the
command raises `E_IDX(IDX)` and does nothing else. -/
def State.indexChecked (c : Config) (s : State) (effect : State) : State :=
  if c.maxPixels ≤ s.idx.toNat then s.raise .idx s.idx else effect

end Sys2Proof.Machine
end

