-- ==== Sys2Proof/Machine/Datapath.lean ====
section
/-! DEFINITION. The pure functions of the datapath: transfer (40_transfer.md), gamut (41_gamut.md),
quantiser and packers (42_quantize_pack.md), light level (44_cll.md), and the per-pixel functions of
45_frame.md R148. Each takes the configuration where it depends on `POW32` or `MAT`. -/

namespace Sys2Proof.Machine

/-- `POW32` of a configuration (00_scope.md R13). -/
def pow32 (c : Config) (x y : Word) : Word := c.params.pow32 x y

/-- `gdec` (40_transfer.md R91). -/
def gdec (c : Config) (v : Word) : Word := if fgt v fZero then pow32 c v kG22 else fZero

/-- `genc` (40_transfer.md R92). -/
def genc (c : Config) (v : Word) : Word := if fgt v fZero then pow32 c v kGINV else fZero

/-- The inner value `y` of `pq` (40_transfer.md R95). -/
def pqY (c : Config) (v : Word) : Word := pow32 c (clamp01 v) kK

/-- `num` of `pq` for an inner value (R95). -/
def pqNum (y : Word) : Word := fsub (fmul kC1 y) kC1

/-- `den` of `pq` for an inner value (R95). -/
def pqDen (y : Word) : Word := fadd kONE (fmul kC3 y)

/-- `t` of `pq` for an inner value (R95). -/
def pqT (y : Word) : Word := fadd kONE (fdiv (pqNum y) (pqDen y))

/-- `pq` (40_transfer.md R95), in exactly the order the rule writes. -/
def pq (c : Config) (v : Word) : Word := pow32 c (pqT (pqY c v)) kM2

/-- `nscale` (41_gamut.md R100). -/
def nscale (v : Word) : Word := fmul v kS

/-- Three colour values. -/
structure Rgb where
  r : Word
  g : Word
  b : Word
  deriving DecidableEq, Repr

/-- One row of `mat3`: products rounded, the first two added first (41_gamut.md R103). -/
def matRow (m : MatRow) (n0 n1 n2 : Word) : Word :=
  fadd (fadd (fmul m.c0 n0) (fmul m.c1 n1)) (fmul m.c2 n2)

/-- `mat3` (41_gamut.md R103). -/
def mat3 (c : Config) (n0 n1 n2 : Word) : Rgb :=
  ⟨matRow c.mat.row0 n0 n1 n2, matRow c.mat.row1 n0 n1 n2, matRow c.mat.row2 n0 n1 n2⟩

/-- The weighted sum `d` of `luma`, on clamped lanes (41_gamut.md R108). -/
def lumaDot (x0 x1 x2 : Word) : Word :=
  fadd (fadd (fmul kLW0 (clamp01 x0)) (fmul kLW1 (clamp01 x1))) (fmul kLW2 (clamp01 x2))

/-- `luma` as a number (41_gamut.md R108). -/
def luma (x0 x1 x2 : Word) : Nat := min 65535 (rhaz (fmul (lumaDot x0 x1 x2) kNITS))

/-- The four quantiser ranges (42_quantize_pack.md R112). -/
inductive Depth where
  | d2 | d8 | d10 | d16
  deriving DecidableEq, Repr

/-- `MAX` of a range (R112). -/
def Depth.max : Depth → Nat
  | .d2 => 3
  | .d8 => 255
  | .d10 => 1023
  | .d16 => 65535

/-- `float(MAX)` of a range (R112; 00_scope.md R14). -/
def Depth.scale : Depth → Word
  | .d2 => kS2
  | .d8 => kS8
  | .d10 => kS10
  | .d16 => kS16

/-- `quant` (42_quantize_pack.md R112). -/
def quant (v : Word) (d : Depth) : Nat := min d.max (rhaz (fmul (clamp01 v) d.scale))

/-- `quant` as a lane of `Q`. -/
def quantLane (d : Depth) (v : Word) : Half := BitVec.ofNat 16 (quant v d)

/-- The low `bits` bits of a lane, shifted into place (42_quantize_pack.md R118 to R120). -/
def packField (h : Half) (bits shift : Nat) : DWord := (h.extractLsb' 0 bits).setWidth 64 <<< shift

/-- `W` of `PK8` (R118). -/
def pack8 (q : Lanes Half) : DWord :=
  packField q.r 8 0 ||| packField q.g 8 8 ||| packField q.b 8 16 ||| packField q.a 8 24

/-- `W` of `PK10` (R119; 20_memory.md R56). -/
def pack10 (q : Lanes Half) : DWord :=
  packField q.r 10 0 ||| packField q.g 10 10 ||| packField q.b 10 20 ||| packField q.a 2 30

/-- `W` of `PK16` (R120). -/
def pack16 (q : Lanes Half) : DWord :=
  packField q.r 16 0 ||| packField q.g 16 16 ||| packField q.b 16 32 ||| packField q.a 16 48

/-- `rdiv` (44_cll.md R139), for `1 ≤ n`. -/
def rdiv (s n : Nat) : Nat := (2 * s + n) / (2 * n)

/-- `sdr_px` (45_frame.md R148). -/
def sdrPx (p : Lanes Word) : Word :=
  BitVec.ofNat 32 (quant p.r .d8) ||| BitVec.ofNat 32 (quant p.g .d8) <<< 8
    ||| BitVec.ofNat 32 (quant p.b .d8) <<< 16 ||| BitVec.ofNat 32 (quant p.a .d8) <<< 24

/-- The matrix output of the linear part, before its clamp (45_frame.md R148). -/
def linRaw (c : Config) (p : Lanes Word) : Rgb :=
  mat3 c (nscale (gdec c p.r)) (nscale (gdec c p.g)) (nscale (gdec c p.b))

/-- `lin` (45_frame.md R148). -/
def lin (c : Config) (p : Lanes Word) : Rgb :=
  ⟨clamp01 (linRaw c p).r, clamp01 (linRaw c p).g, clamp01 (linRaw c p).b⟩

/-- `enc` (45_frame.md R148). -/
def encPq (c : Config) (p : Lanes Word) : Rgb :=
  ⟨pq c (lin c p).r, pq c (lin c p).g, pq c (lin c p).b⟩

/-- `hdr10_px` (45_frame.md R148). -/
def hdr10Px (c : Config) (p : Lanes Word) : Word :=
  BitVec.ofNat 32 (quant (encPq c p).r .d10) ||| BitVec.ofNat 32 (quant (encPq c p).g .d10) <<< 10
    ||| BitVec.ofNat 32 (quant (encPq c p).b .d10) <<< 20 ||| BitVec.ofNat 32 (quant p.a .d2) <<< 30

/-- `hdr16_px` (45_frame.md R148). -/
def hdr16Px (c : Config) (p : Lanes Word) : DWord :=
  BitVec.ofNat 64 (quant (encPq c p).r .d16) ||| BitVec.ofNat 64 (quant (encPq c p).g .d16) <<< 16
    ||| BitVec.ofNat 64 (quant (encPq c p).b .d16) <<< 32 ||| BitVec.ofNat 64 (quant p.a .d16) <<< 48

/-- `y_px` (45_frame.md R148). -/
def yPx (c : Config) (p : Lanes Word) : Nat := luma (lin c p).r (lin c p).g (lin c p).b

end Sys2Proof.Machine
end

