-- ==== Sys2Proof/Machine/Cll.lean ====
section
/-! DEFINITION. The content light level commands (44_cll.md): `CLLCLR`, `CLLACC`, `CLLFIN`. -/

namespace Sys2Proof.Machine

/-- Clear the accumulators (R140; 45_frame.md R149). -/
def State.cllClear (s : State) : State := { s with cllMax := 0, cllSum := 0, cllCnt := 0 }

/-- Accumulate one measure (R141; 45_frame.md R154). -/
def State.cllAccumulate (s : State) (y : Half) : State :=
  { s with
    cllMax := if s.cllMax < y then y else s.cllMax
    cllSum := s.cllSum + y.setWidth 48
    cllCnt := s.cllCnt + 1 }

/-- Produce the light level from the accumulators (R143; 45_frame.md R158). -/
def State.cllPublish (s : State) : State :=
  { s with
    maxcll := s.cllMax
    maxpall := BitVec.ofNat 16 (rdiv s.cllSum.toNat s.cllCnt.toNat) }

/-- `CLLCLR` (R140). -/
def execCllclr (s : State) : Result := .next s.cllClear

/-- `CLLACC` (R141). -/
def execCllacc (s : State) : Result :=
  .next (if s.cllCnt = 0xFFFFFFFF then s.raise .cll (encode .cllacc) else s.cllAccumulate s.y)

/-- `CLLFIN` (R143). -/
def execCllfin (s : State) : Result :=
  .next (if s.cllCnt = 0 then s.raise .cll (encode .cllfin) else s.cllPublish)

end Sys2Proof.Machine
end

