-- ==== Sys2Proof/Machine/Control.lean ====
section
/-! DEFINITION. The control commands (46_control.md): `NOP`, `CLR`. -/

namespace Sys2Proof.Machine

/-- `NOP`: no operation (R167). -/
def execNop (s : State) : Result := .next s

/-- `CLR`: clear status and the recorded error, the return from an error (R168; 60_exceptions.md R182). -/
def execClr (s : State) : Result := .next s.clearStatus

end Sys2Proof.Machine
end

