-- ==== Sys2Proof/Machine/Frame.lean ====
section
/-! DEFINITION. The frame commands `RUN_GM` and `RUN_SL` (45_frame.md): acceptance (R149), the engine's pixel
steps in free order (R151, R152, R153, R154) and its completion step (R158). -/

namespace Sys2Proof.Machine

/-- `N = zext_64(WIDTH) × zext_64(HEIGHT)` (10_state.md R29). -/
def State.frameSize (s : State) : Nat := s.width.toNat * s.height.toNat

/-- What acceptance does (45_frame.md R149, step 4). -/
def acceptFrame (mode : EngMode) (s : State) : State :=
  let t := { s with done := false, pixdone := 0, engine := some ⟨mode, s.frameSize, []⟩ }
  match mode with
  | .gm => t
  | .sl => t.cllClear

/-- Acceptance of a frame command with word `c` (45_frame.md R149): three checks in order, then `BUSY`. -/
def startFrame (cfg : Config) (mode : EngMode) (c : Word) (s : State) : State :=
  if s.width = 0 ∨ s.height = 0 then s.raise .dim c
  else if s.frameSize ≠ s.inCount.toNat then s.raise .size (BitVec.ofNat 32 (min s.frameSize 0xFFFFFFFF))
  else if cfg.maxPixels < s.frameSize then s.raise .cap (BitVec.ofNat 32 s.frameSize)
  else acceptFrame mode s

/-- `RUN_GM` (R155): acceptance; the engine does the rest. -/
def execRunGm (s : State) : Result := .next (startFrame Config.here .gm (encode .runGm) s)

/-- `RUN_SL` (R156): acceptance; the engine does the rest. -/
def execRunSl (s : State) : Result := .next (startFrame Config.here .sl (encode .runSl) s)

/-- Add a pixel to a strictly rising `DONESET`. -/
def insertPixel (i : Nat) : List Nat → List Nat
  | [] => [i]
  | j :: rest => if i < j then i :: j :: rest else if i = j then j :: rest else j :: insertPixel i rest

/-- The buffer writes and the accumulation of one pixel step, for the sample `p` (R153, R154). -/
def writePixel (cfg : Config) (mode : EngMode) (i : Nat) (p : Lanes Word) (s : State) : State :=
  let t := (s.noteSample p).memWrite .sdr (4 * i) 4 (sdrPx p).toNat
  match mode with
  | .gm => t.memWrite .hdr (4 * i) 4 (hdr10Px cfg p).toNat
  | .sl => (t.memWrite .hdr (8 * i) 8 (hdr16Px cfg p).toNat).cllAccumulate (BitVec.ofNat 16 (yPx cfg p))

/-- Pixel step for index `i` of the engine state `e` (R153). The pixel lies inside the buffers in every
state a run reaches; elsewhere no access is defined (assumption 20). -/
def pixelStep (cfg : Config) (i : Nat) (e : Engine) (s : State) : Result :=
  if cfg.maxPixels ≤ i then .fault (.outsideSpace i)
  else
    let t := writePixel cfg e.mode i (s.sample i) s
    .next { t with pixdone := t.pixdone + 1, engine := some { e with doneSet := insertPixel i e.doneSet } }

/-- Completion step (R158). -/
def completionStep (e : Engine) (s : State) : Result :=
  match e.mode with
  | .gm => .next { s with engine := none, done := true }
  | .sl =>
    if s.cllCnt = 0 then .fault .meanOfNothing
    else .next { s.cllPublish with engine := none, done := true }

/-- The pixels whose step is still to be taken: `0 ≤ i < ENG_N`, `i` not in `DONESET` (R151). -/
def Engine.remaining (e : Engine) : List Nat := (List.range e.n).filter (fun i => !e.doneSet.contains i)

/-- One step of the engine (R151): the pixel step of a freely chosen remaining pixel (R152), or completion
when none remains. -/
def engineStep (cfg : Config) (e : Engine) (s : State) : Result :=
  match e.remaining with
  | [] => completionStep e s
  | first :: rest =>
    pixelStep cfg ((first :: rest).getD (Config.pixelPick s.choice % (rest.length + 1)) first) e s.tick

end Sys2Proof.Machine
end

