-- ==== Sys2Proof/Machine/Transfer.lean ====
section
/-! DEFINITION. The transfer commands (40_transfer.md): `GDEC`, `GENC`, `PQENC`. Lane 3 is never touched. -/

namespace Sys2Proof.Machine

/-- A command that maps lanes r, g, b of `V` one by one and leaves alpha (R93, R94, R96, R101). -/
def onColourLanes (f : Word → Word) (s : State) : State := { s with v := s.v.mapRgb f }

/-- `GDEC` (R93). -/
def execGdec (s : State) : Result := .next (onColourLanes (gdec Config.here) s)

/-- `GENC` (R94). -/
def execGenc (s : State) : Result := .next (onColourLanes (genc Config.here) s)

/-- `PQENC` (R96). -/
def execPqenc (s : State) : Result := .next (onColourLanes (pq Config.here) s)

end Sys2Proof.Machine
end

