-- ==== Sys2Proof/Machine/Gamut.lean ====
section
/-! DEFINITION. The gamut commands (41_gamut.md): `NSCALE`, `MAT3`, `CLAMP`, `LUMA`. -/

namespace Sys2Proof.Machine

/-- The effect of `MAT3`: all three lanes are read before any is written (R104). -/
def applyMatrix (c : Config) (s : State) : State :=
  let m := mat3 c s.v.r s.v.g s.v.b
  { s with v := ⟨m.r, m.g, m.b, s.v.a⟩ }

/-- `NSCALE` (R101). -/
def execNscale (s : State) : Result := .next (onColourLanes nscale s)

/-- `MAT3` (R104). -/
def execMat3 (s : State) : Result := .next (applyMatrix Config.here s)

/-- `CLAMP` (R106). -/
def execClamp (s : State) : Result := .next { s with v := s.v.map clamp01 }

/-- `LUMA` (R109). -/
def execLuma (s : State) : Result := .next { s with y := BitVec.ofNat 16 (luma s.v.r s.v.g s.v.b) }

end Sys2Proof.Machine
end

