-- ==== Sys2Proof/Machine/MemoryOps.lean ====
section
/-! DEFINITION. The scalar memory commands (43_memory_ops.md): `LDPX`, `STS`, `STH10`, `STH16`, each over the
index check of R128. -/

namespace Sys2Proof.Machine

/-- The effect of `LDPX` (R129). -/
def loadPixel (c : Config) (s : State) : State :=
  s.indexChecked c { s.noteSample (s.sample s.idx.toNat) with v := s.sample s.idx.toNat }

/-- The effect of a store of the low `n` bytes of `W` at pixel `IDX`, pixels `n` bytes apart (R130, R131,
R132). -/
def storePixel (c : Config) (b : Buffer) (n : Nat) (s : State) : State :=
  s.indexChecked c (s.memWrite b (n * s.idx.toNat) n s.w.toNat)

/-- `LDPX` (R129). -/
def execLdpx (s : State) : Result := .next (loadPixel Config.here s)

/-- `STS` (R130): 4 bytes of `SDR`. -/
def execSts (s : State) : Result := .next (storePixel Config.here .sdr 4 s)

/-- `STH10` (R131): 4 bytes of `HDR`. -/
def execSth10 (s : State) : Result := .next (storePixel Config.here .hdr 4 s)

/-- `STH16` (R132): 8 bytes of `HDR`. -/
def execSth16 (s : State) : Result := .next (storePixel Config.here .hdr 8 s)

end Sys2Proof.Machine
end

