-- ==== Sys2Proof/Machine/Quantize.lean ====
section
/-! DEFINITION. The quantise and pack commands (42_quantize_pack.md): `Q8`, `Q10A2`, `Q16`, `PK8`, `PK10`,
`PK16`. -/

namespace Sys2Proof.Machine

/-- `Q8` (R113). -/
def execQ8 (s : State) : Result := .next { s with q := s.v.map (quantLane .d8) }

/-- `Q10A2` (R115): colour lanes to 10 bits, alpha to 2. -/
def execQ10a2 (s : State) : Result :=
  .next { s with q := ⟨quantLane .d10 s.v.r, quantLane .d10 s.v.g, quantLane .d10 s.v.b, quantLane .d2 s.v.a⟩ }

/-- `Q16` (R116). -/
def execQ16 (s : State) : Result := .next { s with q := s.v.map (quantLane .d16) }

/-- `PK8` (R118). -/
def execPk8 (s : State) : Result := .next { s with w := pack8 s.q }

/-- `PK10` (R119). -/
def execPk10 (s : State) : Result := .next { s with w := pack10 s.q }

/-- `PK16` (R120). -/
def execPk16 (s : State) : Result := .next { s with w := pack16 s.q }

end Sys2Proof.Machine
end

