-- ==== Sys2Proof/Machine/Dispatch.lean ====
section
/-! DEFINITION. Which meaning each command has: step 4 of the dispatch rule 46_control.md R165. The
conditions of its steps 1 to 3 (busy, error, illegal word) stand in Bus.lean. -/

namespace Sys2Proof.Machine

/-- Execute the command `i` by its own rule (30_encoding.md R78; 46_control.md R165, step 4). -/
def exec (i : Instr) (s : State) : Host.Outcome State Fault Refusal :=
  match i with
  | .nop => Sys2Proof.Machine.execNop s
  | .clr => Sys2Proof.Machine.execClr s
  | .gdec => Sys2Proof.Machine.execGdec s
  | .genc => Sys2Proof.Machine.execGenc s
  | .pqenc => Sys2Proof.Machine.execPqenc s
  | .nscale => Sys2Proof.Machine.execNscale s
  | .mat3 => Sys2Proof.Machine.execMat3 s
  | .clamp => Sys2Proof.Machine.execClamp s
  | .luma => Sys2Proof.Machine.execLuma s
  | .q8 => Sys2Proof.Machine.execQ8 s
  | .q10a2 => Sys2Proof.Machine.execQ10a2 s
  | .q16 => Sys2Proof.Machine.execQ16 s
  | .pk8 => Sys2Proof.Machine.execPk8 s
  | .pk10 => Sys2Proof.Machine.execPk10 s
  | .pk16 => Sys2Proof.Machine.execPk16 s
  | .ldpx => Sys2Proof.Machine.execLdpx s
  | .sts => Sys2Proof.Machine.execSts s
  | .sth10 => Sys2Proof.Machine.execSth10 s
  | .sth16 => Sys2Proof.Machine.execSth16 s
  | .cllclr => Sys2Proof.Machine.execCllclr s
  | .cllacc => Sys2Proof.Machine.execCllacc s
  | .cllfin => Sys2Proof.Machine.execCllfin s
  | .runGm => Sys2Proof.Machine.execRunGm s
  | .runSl => Sys2Proof.Machine.execRunSl s

end Sys2Proof.Machine
end

