-- ==== Sys2Proof/Machine/Registers.lean ====
section
/-! DEFINITION. The register window (10_state.md R22 to R41): offsets, what a read returns, what a write
stores. The conditions on the access itself stand in Bus.lean. -/

namespace Sys2Proof.Machine

/-- Byte offset from `REG_BASE` (R22). -/
def regOffset : Reg → Nat
  | .id => 0x00
  | .cmd => 0x04
  | .status => 0x08
  | .errcode => 0x0C
  | .errinfo => 0x10
  | .irqEn => 0x14
  | .width => 0x18
  | .height => 0x1C
  | .inCount => 0x20
  | .pixdone => 0x24
  | .idx => 0x28
  | .cap => 0x2C
  | .maxcll => 0x30
  | .maxpall => 0x34
  | .cllMax => 0x38
  | .cllCnt => 0x3C
  | .cllSumLo => 0x40
  | .cllSumHi => 0x44
  | .v0 => 0x50
  | .v1 => 0x54
  | .v2 => 0x58
  | .v3 => 0x5C
  | .q0 => 0x60
  | .q1 => 0x64
  | .q2 => 0x68
  | .q3 => 0x6C
  | .y => 0x70
  | .wLo => 0x78
  | .wHi => 0x7C

/-- Every register of R22. -/
def allRegs : List Reg :=
  [.id, .cmd, .status, .errcode, .errinfo, .irqEn, .width, .height, .inCount, .pixdone, .idx, .cap,
   .maxcll, .maxpall, .cllMax, .cllCnt, .cllSumLo, .cllSumHi, .v0, .v1, .v2, .v3, .q0, .q1, .q2, .q3,
   .y, .wLo, .wHi]

/-- The register at an offset; none at a reserved offset (R40). -/
def regAt (off : Nat) : Option Reg := allRegs.find? (fun r => regOffset r == off)

/-- What a read of `PIXDONE` returns (R31). Not busy: the register. Busy: 0 before the first pixel step;
after that some value from the number of steps performed up to `ENG_N`, which no rule constrains further
(assumption 4). -/
def State.pixdoneRead (s : State) : Word :=
  match s.engine with
  | none => s.pixdone
  | some e =>
    if e.doneSet = [] then s.pixdone
    else s.pixdone + BitVec.ofNat 32 (Config.stepsAhead s.choice % (e.n - e.doneSet.length + 1))

/-- What a read of a register returns (R22 to R39): bits above the used ones are zero; `CMD` reads 0. -/
def readReg (c : Config) (s : State) (r : Reg) : Word :=
  match r with
  | .id => idValue
  | .cmd => 0
  | .status => s.statusWord
  | .errcode => s.errcode.setWidth 32
  | .errinfo => s.errinfo
  | .irqEn => s.irqEn.setWidth 32
  | .width => s.width
  | .height => s.height
  | .inCount => s.inCount
  | .pixdone => s.pixdoneRead
  | .idx => s.idx
  | .cap => c.cap
  | .maxcll => s.maxcll.setWidth 32
  | .maxpall => s.maxpall.setWidth 32
  | .cllMax => s.cllMax.setWidth 32
  | .cllCnt => s.cllCnt
  | .cllSumLo => s.cllSum.extractLsb' 0 32
  | .cllSumHi => (s.cllSum.extractLsb' 32 16).setWidth 32
  | .v0 => s.v.r
  | .v1 => s.v.g
  | .v2 => s.v.b
  | .v3 => s.v.a
  | .q0 => s.q.r.setWidth 32
  | .q1 => s.q.g.setWidth 32
  | .q2 => s.q.b.setWidth 32
  | .q3 => s.q.a.setWidth 32
  | .y => s.y.setWidth 32
  | .wLo => s.w.extractLsb' 0 32
  | .wHi => s.w.extractLsb' 32 32

/-- What a write to a register other than `CMD` stores (R22 to R39): read-only registers ignore it (R41),
bits above the used ones are dropped. A write to `CMD` executes a command and is Bus.lean's. -/
def writeReg (s : State) (r : Reg) (x : Word) : State :=
  match r with
  | .irqEn => { s with irqEn := x.setWidth 2 }
  | .width => { s with width := x }
  | .height => { s with height := x }
  | .inCount => { s with inCount := x }
  | .idx => { s with idx := x }
  | .v0 => { s with v := { s.v with r := x } }
  | .v1 => { s with v := { s.v with g := x } }
  | .v2 => { s with v := { s.v with b := x } }
  | .v3 => { s with v := { s.v with a := x } }
  | .q0 => { s with q := { s.q with r := x.setWidth 16 } }
  | .q1 => { s with q := { s.q with g := x.setWidth 16 } }
  | .q2 => { s with q := { s.q with b := x.setWidth 16 } }
  | .q3 => { s with q := { s.q with a := x.setWidth 16 } }
  | .y => { s with y := x.setWidth 16 }
  | .wLo => { s with w := s.w.extractLsb' 32 32 ++ x }
  | .wHi => { s with w := x ++ s.w.extractLsb' 0 32 }
  | .id | .cmd | .status | .errcode | .errinfo | .pixdone | .cap | .maxcll | .maxpall
  | .cllMax | .cllCnt | .cllSumLo | .cllSumHi => s

end Sys2Proof.Machine
end

