-- ==== Sys2Proof/Machine/Bus.lean ====
section
/-! DEFINITION. What a host access does: the dispatch of a `CMD` write (46_control.md R165, R166), register
accesses (10_state.md R40, R41), buffer accesses (20_memory.md R62, R63), routing by address (R59), and the
level of `rst` (70_reset_and_hazards.md R195, R197). -/

namespace Sys2Proof.Machine

/-- A 32-bit write of word `w` to `CMD` while the block is not in reset (46_control.md R165). -/
def writeCmd (w : Word) (s : State) : Result :=
  if s.busy then .next (s.respond .busError)
  else if s.err then
    if w = encode .clr then exec .clr (s.respond .ok) else .next (s.respond .ok)
  else
    match decode w with
    | .error _ => .next ((s.respond .ok).raise .illcmd w)
    | .ok i => exec i (s.respond .ok)

/-- A register access has 32 bits, is 4-byte aligned and lies in the window (10_state.md R41; 20_memory.md
R50; 60_exceptions.md R185). -/
def regAccessOk (off n : Nat) : Bool := n == 4 && off % 4 == 0 && decide (off + n ≤ 256)

/-- A buffer access has 1, 2 or 4 bytes, is naturally aligned and lies wholly in the space (20_memory.md
R62). -/
def bufAccessOk (c : Config) (b : Buffer) (off n : Nat) : Bool :=
  (n == 1 || n == 2 || n == 4) && off % n == 0 && decide (off + n ≤ c.size b)

/-- A host read (10_state.md R40, R41; 20_memory.md R62, R63; 70_reset_and_hazards.md R195). -/
def hostRead (win : Window) (off n : Nat) (s : State) : State :=
  if s.rst then s.respond .busError
  else
    match win with
    | .reg =>
      if regAccessOk off n then
        s.respond (.data (match regAt off with | some r => readReg Config.here s r | none => 0))
      else s.respond .busError
    | .buf b =>
      if !s.busy && bufAccessOk Config.here b off n then s.respond (.data (BitVec.ofNat 32 (s.memRead b off n)))
      else s.respond .busError

/-- A host write to the register window (10_state.md R22, R40, R41). While busy every offset but `IRQ_EN`'s
is refused, reserved offsets among them (assumption 12). -/
def hostWriteReg (off n : Nat) (data : Word) (s : State) : Result :=
  if !regAccessOk off n then .next (s.respond .busError)
  else
    match regAt off with
    | some .cmd => writeCmd data s
    | some .irqEn => .next ((writeReg s .irqEn data).respond .ok)
    | some r => if s.busy then .next (s.respond .busError) else .next ((writeReg s r data).respond .ok)
    | none => if s.busy then .next (s.respond .busError) else .next (s.respond .ok)

/-- A host write (10_state.md R41; 20_memory.md R62, R63; 70_reset_and_hazards.md R195). -/
def hostWrite (win : Window) (off n : Nat) (data : Word) (s : State) : Result :=
  if s.rst then .next (s.respond .busError)
  else
    match win with
    | .reg => hostWriteReg off n data s
    | .buf b =>
      if !s.busy && bufAccessOk Config.here b off n then .next ((s.memWrite b off n data.toNat).respond .ok)
      else .next (s.respond .busError)

/-- The windows, in the order of 20_memory.md R59. -/
def allWindows : List Window := [.reg, .buf .input, .buf .sdr, .buf .hdr]

/-- Which window a host address lies in, and its offset there (20_memory.md R59). -/
def route (c : Config) (addr : Nat) : Option (Window × Nat) :=
  match allWindows.find? (fun w =>
      decide (c.params.windowBase w ≤ addr) && decide (addr < c.params.windowBase w + c.params.windowSize w)) with
  | some w => some (w, addr - c.params.windowBase w)
  | none => none

/-- The answer that ends `WAIT DONE`: a `STATUS` value with bit 1 (`DONE`) or bit 2 (`ERR`) set
(30_encoding.md R82). A bus error ends nothing (assumption 15). -/
def Response.endsWait : Response → Bool
  | .data x => x.getLsbD 1 || x.getLsbD 2
  | .ok | .busError => false

/-- One round of `WAIT DONE`, already taken from the queue: read `STATUS`, and unless the value read ends the
loop, let the loop be the host's next operation again (30_encoding.md R82). -/
def pollStatus (s : State) : State :=
  let t := hostRead .reg (regOffset .status) 4 s
  if t.response.any Response.endsWait then t else { t with host := .waitDone :: t.host }

/-- One host operation, already taken from the queue. An address outside the four windows does not reach
the block (assumption 18). -/
def performHostOp (op : HostOp) (s : State) : Result :=
  match op with
  | .read win off n => .next (hostRead win off n s)
  | .write win off n data => hostWrite win off n data s
  | .readAt addr n =>
    match route Config.here addr with
    | some (win, off) => .next (hostRead win off n s)
    | none => .next { s with response := none }
  | .writeAt addr n data =>
    match route Config.here addr with
    | some (win, off) => hostWrite win off n data s
    | none => .next { s with response := none }
  | .waitDone => .next (pollStatus s)

/-- The block right after reset (10_state.md R44; 70_reset_and_hazards.md R195, R197), at the given level of
`rst`, keeping the model's own fields. -/
def State.afterReset (s : State) (level : Bool) (resets : Nat) : State :=
  { State.reset with
    rst := level
    resets := resets
    choice := s.choice
    host := s.host
    rstInput := s.rstInput
    response := s.response }

/-- The platform drives `rst` (70_reset_and_hazards.md R195, R197). Asserting it abandons a frame and all
state; releasing it leaves the state of R44, with buffer bytes that need not be those of an earlier reset
(R196); driving it released while it is released does nothing. -/
def driveReset (level : Bool) (s : State) : State :=
  if level then s.afterReset true s.resets
  else if s.rst then s.afterReset false (s.resets + 1)
  else s

end Sys2Proof.Machine
end

