-- ==== Sys2Proof/Machine/Agents.lean ====
section
/-! DEFINITION. Which agents can move and what each does when it moves (45_frame.md R151; 20_memory.md R65;
70_reset_and_hazards.md R195). -/

namespace Sys2Proof.Machine

/-- The host has an operation to deliver (20_memory.md R65, item 1). -/
def State.hostReady (s : State) : Bool := !s.host.isEmpty

/-- The agents that can move. In reset the block does nothing (70_reset_and_hazards.md R195). -/
def State.enabledAgents (s : State) : List Agent :=
  (if s.hostReady then [.host] else []) ++ (if s.busy && !s.rst then [.engine] else [])
    ++ (if s.rstInput.isEmpty then [] else [.platform])

/-- The host delivers its next operation (20_memory.md R65, item 1). -/
def hostStep (s : State) : Result :=
  match s.host with
  | [] => .next s
  | op :: rest => performHostOp op { s with host := rest }

/-- The platform drives the next level of `rst` (70_reset_and_hazards.md R195). -/
def platformStep (s : State) : State :=
  match s.rstInput with
  | [] => s
  | level :: rest => driveReset level { s with rstInput := rest }

/-- What an agent does when it moves. -/
def agentStep (a : Agent) (s : State) : Result :=
  match a with
  | .host => hostStep s
  | .engine =>
    match s.engine with
    | some e => engineStep Config.here e s
    | none => .next s
  | .platform => .next (platformStep s)

/-- One step of the machine: the one agent that can move moves; of several, the schedule says which, and lets an
enabled engine step be taken eventually (45_frame.md R151, assumption 2); with none, the block waits
(60_exceptions.md R191). -/
def nextStep (s : State) : Result :=
  match s.enabledAgents with
  | [] => .next s
  | [a] => agentStep a s
  | a :: b :: rest => agentStep (Config.schedule.pick s.choice (a :: b :: rest)) s.tick

end Sys2Proof.Machine
end

