-- ==== Sys2Proof/Machine/HostProgram.lean ====
section
/-! DEFINITION. Host programs (30_encoding.md R82, R83): the bus operations that a line stands for, and a
state with a program's operations waiting to be delivered. -/

namespace Sys2Proof.Machine

/-- The commands a macro expands to (R83). -/
def macroCommands : Macro → List Instr
  | .pixSdr => [.q8, .pk8, .sts]
  | .pixHdr10 => [.gdec, .nscale, .mat3, .clamp, .pqenc, .q10a2, .pk10, .sth10]
  | .pixHdr16 => [.gdec, .nscale, .mat3, .clamp, .luma, .cllacc, .pqenc, .q16, .pk16, .sth16]
  | .pixGm => .ldpx :: [.q8, .pk8, .sts] ++ [.gdec, .nscale, .mat3, .clamp, .pqenc, .q10a2, .pk10, .sth10]
  | .pixSl =>
    .ldpx :: [.q8, .pk8, .sts] ++
      [.gdec, .nscale, .mat3, .clamp, .luma, .cllacc, .pqenc, .q16, .pk16, .sth16]

/-- `WR reg, value` (R82). -/
def writeRegOp (r : Reg) (x : Word) : HostOp := .write .reg (regOffset r) 4 x

/-- `CMD mnemonic` (R82). -/
def cmdOp (i : Instr) : HostOp := writeRegOp .cmd (encode i)

/-- The bus operations of a line (R82, R83). -/
def lineOps : HostLine → List HostOp
  | .wr r x => [writeRegOp r x]
  | .rd r => [.read .reg (regOffset r) 4]
  | .cmd i => [cmdOp i]
  | .wrb b off n x => [.write (.buf b) off n x]
  | .rdb b off n => [.read (.buf b) off n]
  | .waitDone => [.waitDone]
  | .pseudo m => (macroCommands m).map cmdOp

/-- The encoding of a program: "the sequence of (offset, data) pairs of its writes" (R82). -/
def programEncoding (lines : List HostLine) : List (Nat × Word) :=
  (lines.flatMap lineOps).filterMap fun op =>
    match op with
    | .write _ off _ data => some (off, data)
    | .read _ _ _ | .readAt _ _ | .writeAt _ _ _ | .waitDone => none

/-- A state in which the host is about to run a program: its operations follow those already waiting. -/
def State.withProgram (s : State) (lines : List HostLine) : State :=
  { s with host := s.host ++ lines.flatMap lineOps }

end Sys2Proof.Machine
end

