-- ==== Sys2Proof/Machine/Step.lean ====
section
/-! DEFINITION. One step of the machine, and how an instruction word is placed where the next step takes its
instruction from: a 32-bit write to `CMD` (10_state.md R21, R24). -/

namespace Sys2Proof.Machine

/-- One step of the machine. -/
def step (s : State) : Host.Outcome State Fault Refusal := nextStep s

/-- `s` with a write of the word `w` to `CMD` as the host's next operation, and in a condition to run it:
not in reset, not busy, no error recorded (46_control.md R165), no pending level of `rst` (assumption
19). -/
def State.withFetchWord (s : State) (nbits w : Nat) : State :=
  { s with
    host := writeRegOp .cmd (BitVec.ofNat 32 (w % 2 ^ nbits)) :: s.host
    engine := none
    err := false
    rst := false
    rstInput := [] }

end Sys2Proof.Machine
end

