-- ==== Sys2Proof/Machine/Power.lean ====
section
/-! DEFINITION. `POW32_CR`, the reference instance of the power function (00_scope.md R13): the real number
`x^y` rounded to nearest binary32, ties to even. It is exact: whether a rounding boundary is reached is a
comparison of two natural numbers. The machine itself uses the OPEN parameter `POW32`, not this instance;
statements and tests about exact codes name it. -/

namespace Sys2Proof.Machine

/-- The number of units of 2^-149 of a magnitude pattern; infinity counts as the next power of two, 2^277
units, where rounding to nearest overflows (00_scope.md R11). -/
def magUnits (c : Nat) : Nat :=
  if c < 2 ^ 24 then c else (2 ^ 23 + c % 2 ^ 23) * 2 ^ (c / 2 ^ 23 - 1)

/-- Twice the boundary between the magnitude patterns `c − 1` and `c`, in units. -/
def boundary2 (c : Nat) : Nat := magUnits (c - 1) + magUnits c

/-- `(ux · 2^-149)^(p/q)` rounds to the magnitude pattern `c` or above: it lies above the boundary below
`c`, or on it with `c` even. -/
def powReaches (ux p q c : Nat) : Bool :=
  let lhs := ux ^ p * 2 ^ (150 * q)
  let rhs := boundary2 c ^ q * 2 ^ (149 * p)
  decide (c ≤ 0x7F800000) && (decide (rhs < lhs) || (lhs == rhs && c % 2 == 0))

/-- The largest number that `reached` accepts, found bit by bit from bit `k − 1` down, above `r`. -/
def largestReached (reached : Nat → Bool) : Nat → Nat → Nat
  | 0, r => r
  | k + 1, r => largestReached reached k (if reached (r + 2 ^ k) then r + 2 ^ k else r)

/-- `POW32_CR` (R13), for `x` at least `+0` and `y` positive and finite, as R13 calls it; outside that
domain it is a NaN, which no rule uses (assumption 26). -/
def pow32cr (x y : Word) : Word :=
  match fUnpack x, fUnpack y with
  | .inf false, .fin false (_ + 1) => fInf
  | .fin false 0, .fin false (_ + 1) => fZero
  | .fin false (ux + 1), .fin false (uy + 1) =>
    let g := Nat.gcd (uy + 1) (2 ^ 149)
    fPack false (largestReached (powReaches (ux + 1) ((uy + 1) / g) (2 ^ 149 / g)) 31 0)
  | _, _ => fNaN

end Sys2Proof.Machine
end

