-- ==== Sys2Proof/Safety.lean ====
section
/-! DEFINITION. What counts as a legal state and a safe step, and the engine's moves as 45_frame.md R151 lists
them (any remaining pixel, or completion), in the terms the statements use. -/

namespace Sys2Proof.Machine

/-- What holds of the engine while a frame runs (10_state.md R31, R42; 45_frame.md R149, R151, R154;
60_exceptions.md R178, R180). -/
structure EngineInv (c : Config) (s : State) (e : Engine) : Prop where
  noErr : s.err = false
  noRst : s.rst = false
  notDone : s.done = false
  size : e.n = s.frameSize
  count : e.n = s.inCount.toNat
  pos : 0 < e.n
  fits : e.n ≤ c.maxPixels
  sorted : e.doneSet.Pairwise (· < ·)
  below : ∀ i ∈ e.doneSet, i < e.n
  progress : s.pixdone.toNat = e.doneSet.length
  accumulated : e.mode = .sl → s.cllCnt.toNat = e.doneSet.length

/-- What holds of every state a run reaches: memories canonical and inside their spaces (20_memory.md R50), a
legal error record (10_state.md R26, R27), a light-level sum that no wrap has touched (R35), an average not
above the maximum (44_cll.md R143), and a legal engine (R42). -/
structure Inv (c : Config) (s : State) : Prop where
  bufWf : ∀ b : Buffer, (s.buffer b).wf
  bufWithin : ∀ b : Buffer, (s.buffer b).within (c.size b)
  errClear : s.err = false → s.errcode = 0 ∧ s.errinfo = 0
  errCode : s.err = true → 1 ≤ s.errcode.toNat ∧ s.errcode.toNat ≤ 6
  sum : s.cllSum.toNat ≤ s.cllMax.toNat * s.cllCnt.toNat
  mean : s.maxpall.toNat ≤ s.maxcll.toNat
  running : ∀ e, s.engine = some e → EngineInv c s e

/-- A step is safe when it answers a next state: it neither faults nor refuses. -/
def SafeStep (s : State) : Prop := ∃ t, step s = .next t

/-- One move of the engine, in the freedom that 45_frame.md R151 and R152 give it: the pixel step of ANY
remaining pixel, or completion when none remains. -/
inductive EngineMove (c : Config) : State → State → Prop
  | pixel {s t : State} {e : Engine} {i : Nat} (run : s.engine = some e) (lt : i < e.n)
      (todo : i ∉ e.doneSet) (move : pixelStep c i e s = .next t) : EngineMove c s t
  | complete {s t : State} {e : Engine} (run : s.engine = some e) (all : ∀ i < e.n, i ∈ e.doneSet)
      (move : completionStep e s = .next t) : EngineMove c s t

/-- Any number of engine moves. -/
def EngineRun (c : Config) : State → State → Prop := Relation.ReflTransGen (EngineMove c)

/-- The host's next operation is a 32-bit write of `w` to `CMD`, the block is out of reset and stays so
(46_control.md R165). -/
def CmdPending (s : State) (w : Word) (rest : List HostOp) : Prop :=
  s.host = writeRegOp .cmd w :: rest ∧ s.rst = false ∧ s.rstInput = []

/-- The access delivers the word `w` to `CMD`: as a write at `CMD`'s offset of the register window, or at the host
address of that offset (10_state.md R24; 20_memory.md R59). -/
def DeliversCmd (op : HostOp) (w : Word) : Prop :=
  op = .write .reg 4 4 w ∨ op = .writeAt (Config.here.params.regBase + 4) 4 w

/-- Run commands one after another by their own rules, stopping where one does not answer a next state. -/
def execAll : List Instr → State → Result
  | [], s => .next s
  | i :: rest, s =>
    match exec i s with
    | .next t => execAll rest t
    | .fault r => .fault r
    | .refused r => .refused r

end Sys2Proof.Machine
end

