-- ==== Sys2Proof/Certificates/Slice0/Obligations.lean ====
section
/-! DEFINITION. The statements for the provers. Each says which rule of spec/ it formalises. Bits of `STATUS`
and the engine state are named as the fields of `State`; `Config.here` is the uninterpreted instance, so a
statement about it holds for every instance the spec admits. -/

open Sys2Proof Sys2Proof.Machine

/-! ## Encoding and dispatch -/

/-- 30_encoding.md R78, R79: exactly the 24 match words decode, each to its command. -/
def Obligations.DecodesExactlyTheMatchWords : Prop :=
  (∀ (w : Word) (i : Instr), decode w = .ok i ↔ (i.wellFormed = true ∧ w = encode i)) ∧
  (∀ i : Instr, (i, encode i) ∈ ([
    (.nop, 0x00000000), (.clr, 0x00000001), (.gdec, 0x00000010), (.genc, 0x00000011), (.pqenc, 0x00000012),
    (.nscale, 0x00000020), (.mat3, 0x00000021), (.clamp, 0x00000022), (.luma, 0x00000023), (.q8, 0x00000030),
    (.q10a2, 0x00000031), (.q16, 0x00000032), (.pk8, 0x00000038), (.pk10, 0x00000039), (.pk16, 0x0000003A),
    (.ldpx, 0x00000040), (.sts, 0x00000041), (.sth10, 0x00000042), (.sth16, 0x00000043),
    (.cllclr, 0x00000050), (.cllacc, 0x00000051), (.cllfin, 0x00000052), (.runGm, 0x00000080),
    (.runSl, 0x00000081)] : List (Instr × Word)))

/-- 30_encoding.md R78: some match words, written out bit by bit (`RSV` in bits 31:8, `OP` in bits 7:0). -/
def Obligations.WordsWrittenOutDecode : Prop :=
  decode 0b00000000000000000000000000000001#32 = .ok .clr ∧
  decode 0b00000000000000000000000000010001#32 = .ok .genc ∧
  decode 0b00000000000000000000000000100001#32 = .ok .mat3 ∧
  decode 0b00000000000000000000000000111010#32 = .ok .pk16 ∧
  decode 0b00000000000000000000000001000010#32 = .ok .sth10 ∧
  decode 0b00000000000000000000000001010010#32 = .ok .cllfin ∧
  decode 0b00000000000000000000000010000001#32 = .ok .runSl ∧
  decode 0b00000000000000000000000100010000#32 = .error (.reservedBits 1) ∧
  decode 0b00000000000000000000000000000010#32 = .error (.unknownOpcode 2)

/-- 46_control.md R165 step 4: when the word that the host writes to `CMD` decodes to `i`, the step is `exec i`
on the state with the write taken from the queue and answered normally. -/
def Obligations.StepRunsTheDecodedCommand : Prop :=
  ∀ (s : State) (w : Word) (i : Instr) (rest : List HostOp),
    CmdPending s w rest → s.engine = none → s.err = false → i.wellFormed = true → decode w = .ok i →
    step s = exec i { s with host := rest, response := some .ok }

/-- What a step does beside `CMD` writes (45_frame.md R151; 20_memory.md R59, R65; 70_reset_and_hazards.md R195;
30_encoding.md R82). An agent that alone can move makes its move: the host's next access is performed in its window,
by offset or by host address; an address in no window reaches nothing (log entry 18); `WAIT DONE` reads `STATUS` and
stays until `DONE` or `ERR` shows (log entry 15); the engine takes its step; the platform drives the next level of
`rst`. With none able to move nothing changes. Of several, one makes its move and the counter of free choices advances
(log entry 2). -/
def Obligations.StepIsOneAgentsMove : Prop :=
  (∀ (s : State) (rest : List HostOp), s.rstInput = [] → s.engine = none ∨ s.rst = true →
    (∀ (win : Window) (off n : Nat), s.host = .read win off n :: rest →
      step s = .next (hostRead win off n { s with host := rest })) ∧
    (∀ (win : Window) (off n : Nat) (x : Word), s.host = .write win off n x :: rest →
      step s = hostWrite win off n x { s with host := rest }) ∧
    (∀ (win : Window) (off n : Nat), off < Config.here.params.windowSize win →
      s.host = .readAt (Config.here.params.windowBase win + off) n :: rest →
      step s = .next (hostRead win off n { s with host := rest })) ∧
    (∀ (win : Window) (off n : Nat) (x : Word), off < Config.here.params.windowSize win →
      s.host = .writeAt (Config.here.params.windowBase win + off) n x :: rest →
      step s = hostWrite win off n x { s with host := rest }) ∧
    (∀ (addr n : Nat) (x : Word),
      (∀ win : Window, addr < Config.here.params.windowBase win ∨
        Config.here.params.windowBase win + Config.here.params.windowSize win ≤ addr) →
      s.host = .readAt addr n :: rest ∨ s.host = .writeAt addr n x :: rest →
      step s = .next { s with host := rest, response := none }) ∧
    (s.host = .waitDone :: rest →
      (s.rst = true → step s = .next { s with response := some .busError }) ∧
      (s.rst = false → s.done = true ∨ s.err = true →
        step s = .next { s with host := rest, response := some (.data s.statusWord) }) ∧
      (s.rst = false → s.done = false → s.err = false →
        step s = .next { s with response := some (.data s.statusWord) }))) ∧
  (∀ (s : State) (e : Engine), s.host = [] → s.rstInput = [] → s.rst = false → s.engine = some e →
    step s = engineStep Config.here e s) ∧
  (∀ (s : State) (level : Bool) (rest : List Bool), s.host = [] → s.engine = none ∨ s.rst = true →
    s.rstInput = level :: rest → step s = .next (driveReset level { s with rstInput := rest })) ∧
  (∀ s : State, s.host = [] → s.rstInput = [] → s.engine = none ∨ s.rst = true → step s = .next s) ∧
  (∀ s : State, ¬(s.host = [] ∧ s.rstInput = [] ∧ (s.engine = none ∨ s.rst = true)) →
    ∃ u : State, (u = s ∨ u = { s with choice := s.choice + 1 }) ∧
      ((∃ op rest, s.host = op :: rest ∧ step s = performHostOp op { u with host := rest }) ∨
       (∃ e, s.engine = some e ∧ s.rst = false ∧ step s = engineStep Config.here e u) ∨
       (∃ level rest, s.rstInput = level :: rest ∧ step s = .next (driveReset level { u with rstInput := rest }))))

/-- 30_encoding.md R79: every word that is no match word raises `E_ILLCMD` with the word, and does nothing
else. -/
def Obligations.IllegalWordRaisesIllcmd : Prop :=
  ∀ (s : State) (w : Word) (rest : List HostOp),
    CmdPending s w rest → s.engine = none → s.err = false → (∀ i : Instr, w ≠ encode i) →
    step s = .next { s with host := rest, response := some .ok, err := true, errcode := 1, errinfo := w }

/-- 46_control.md R166: while `ERR = 1` every command word but `CLR`'s is dropped with a normal response,
illegal words included; register reads, writes to registers other than `CMD`, and buffer accesses do what they
do without the error. -/
def Obligations.ErrDropsAllCommandsButClr : Prop :=
  (∀ (s : State) (w : Word) (rest : List HostOp),
    CmdPending s w rest → s.engine = none → s.err = true → w ≠ encode .clr →
    step s = .next { s with host := rest, response := some .ok }) ∧
  (∀ (s : State) (r : Reg) (x : Word),
    s.err = true → s.engine = none → s.rst = false → r ≠ .cmd →
    hostWrite .reg (regOffset r) 4 x s = .next ((writeReg s r x).respond .ok) ∧
    (hostRead .reg (regOffset r) 4 s).response = some (.data (readReg Config.here s r))) ∧
  (∀ (s : State) (b : Buffer) (off n : Nat) (x : Word),
    s.err = true → s.engine = none → s.rst = false → bufAccessOk Config.here b off n = true →
    hostWrite (.buf b) off n x s = .next ((s.memWrite b off n x.toNat).respond .ok) ∧
    (hostRead (.buf b) off n s).response =
      some (.data (BitVec.ofNat 32 (s.memRead b off n))))

/-- 60_exceptions.md R180, R176: a command that raises an error has no other effect at all, and the cause and
information are those the table gives for that command. -/
def Obligations.ErrorsArePrecise : Prop :=
  ∀ (i : Instr) (s t : State), s.err = false → exec i s = .next t → t.err = true →
    t = { s with err := true, errcode := t.errcode, errinfo := t.errinfo } ∧
    ((i ∈ [Instr.runGm, .runSl] ∧ t.errcode = 2 ∧ t.errinfo = encode i ∧ (s.width = 0 ∨ s.height = 0)) ∨
     (i ∈ [Instr.runGm, .runSl] ∧ t.errcode = 3 ∧ t.errinfo.toNat = min s.frameSize 0xFFFFFFFF ∧
       s.width ≠ 0 ∧ s.height ≠ 0 ∧ s.frameSize ≠ s.inCount.toNat) ∨
     (i ∈ [Instr.runGm, .runSl] ∧ t.errcode = 4 ∧ t.errinfo.toNat = s.frameSize ∧
       s.width ≠ 0 ∧ s.height ≠ 0 ∧ s.frameSize = s.inCount.toNat ∧ Config.here.maxPixels < s.frameSize) ∨
     (i ∈ [Instr.ldpx, .sts, .sth10, .sth16] ∧ t.errcode = 5 ∧ t.errinfo = s.idx ∧
       Config.here.maxPixels ≤ s.idx.toNat) ∨
     (i = .cllacc ∧ t.errcode = 6 ∧ t.errinfo = 0x51 ∧ s.cllCnt = 0xFFFFFFFF) ∨
     (i = .cllfin ∧ t.errcode = 6 ∧ t.errinfo = 0x52 ∧ s.cllCnt = 0))

/-- 60_exceptions.md R182, R183; 10_state.md R26: the first error stays recorded: whatever a step does, `ERR` stays
set with its cause and information, unless the step delivers `CLR`'s word to `CMD` out of reset and not busy, which
clears all three, or drives `rst` (asserts it, or releases it from being asserted). -/
def Obligations.FirstErrorStaysRecorded : Prop :=
  ∀ s t : State, step s = .next t → s.err = true →
    (t.err = true ∧ t.errcode = s.errcode ∧ t.errinfo = s.errinfo) ∨
    (t.err = false ∧ t.errcode = 0 ∧ t.errinfo = 0 ∧
      ((s.rst = false ∧ s.busy = false ∧ ∃ op rest, s.host = op :: rest ∧ t.host = rest ∧ DeliversCmd op 0x00000001) ∨
       (∃ level rest, s.rstInput = level :: rest ∧ t.rstInput = rest ∧ t.rst = level ∧
         (level = true ∨ s.rst = true))))

/-! ## Control commands -/

/-- 46_control.md R167. -/
def Obligations.NopDoesNothing : Prop :=
  encode .nop = 0x00000000 ∧
  (∀ s : State, exec .nop s = .next s) ∧
  (∀ s : State, s.busy = true → writeCmd (encode .nop) s = .next { s with response := some .busError }) ∧
  (∀ s : State, s.busy = false → writeCmd (encode .nop) s = .next { s with response := some .ok })

/-- 46_control.md R168. -/
def Obligations.ClrClearsStatusAndError : Prop :=
  encode .clr = 0x00000001 ∧
  (∀ s : State, exec .clr s =
    .next { s with done := false, err := false, nonfin := false, errcode := 0, errinfo := 0 }) ∧
  (∀ s : State, s.busy = false → ∃ t, writeCmd (encode .clr) s = .next t ∧ t.irq = false ∧
    t = { s with done := false, err := false, nonfin := false, errcode := 0, errinfo := 0,
                 response := some .ok }) ∧
  (∀ s : State, s.busy = true → writeCmd (encode .clr) s = .next { s with response := some .busError })

/-! ## Transfer commands -/

/-- 40_transfer.md R91 to R94: `GDEC` and `GENC` raise each colour lane to their exponent, send NaN, zeros and
negatives to `+0`, keep 1.0 and `+infinity`, never give a NaN or a negative, and touch nothing else. That no result
has its sign bit set, −0 among them, is the model's reading of P5 (log entry 7). -/
def Obligations.GammaCommandsRaiseColourLanes : Prop :=
  ∀ s : State, ∀ p ∈ [(Instr.gdec, kG22), (Instr.genc, kGINV)],
    ∃ t, exec p.1 s = .next t ∧ t = { s with v := t.v } ∧ t.v.a = s.v.a ∧
      ∀ l ∈ [(s.v.r, t.v.r), (s.v.g, t.v.g), (s.v.b, t.v.b)],
        ((isNaN l.1 = true ∨ fKey l.1 ≤ 0) → l.2 = 0x00000000) ∧
        (isNaN l.1 = false → 0 < fKey l.1 → l.2 = Config.here.params.pow32 l.1 p.2) ∧
        (l.1 = 0x3F800000 → l.2 = 0x3F800000) ∧
        (l.1 = 0x7F800000 → l.2 = 0x7F800000) ∧
        l.2 ≤ 0x7F800000

/-- 40_transfer.md R95, R96: `PQENC` evaluates the rule's expression on each clamped colour lane, in that order
of operations, gives a value from 0 to 1, sends lanes at or above 1 to exactly 1.0 and NaN, zero and negative lanes
to `pq(+0)`, and touches nothing else; with `POW32_CR` every result is above 0 and the example's values come out. -/
def Obligations.PqencEncodesColourLanes : Prop :=
  encode .pqenc = 0x00000012 ∧
  (∀ s : State, ∃ t, exec .pqenc s = .next t ∧ t = { s with v := t.v } ∧ t.v.a = s.v.a ∧
    ∀ l ∈ [(s.v.r, t.v.r), (s.v.g, t.v.g), (s.v.b, t.v.b)],
      (∀ x y num den u : Word, x = clamp01 l.1 → y = Config.here.params.pow32 x 0x3E232000 →
        num = fsub (fmul 0x3E280000 y) 0x3E280000 → den = fadd 0x3F800000 (fmul 0x41958000 y) →
        u = fadd 0x3F800000 (fdiv num den) → l.2 = Config.here.params.pow32 u 0x429DB000) ∧
      ((isNaN l.1 = true ∨ fKey l.1 ≤ 0) → l.2 = pq Config.here 0x00000000) ∧
      (isNaN l.1 = false → fKey 0x3F800000 ≤ fKey l.1 → l.2 = 0x3F800000) ∧
      isNaN l.2 = false ∧ 0 ≤ fKey l.2 ∧ fKey l.2 ≤ fKey 0x3F800000) ∧
  (∀ c : Config, c.params.pow32 = pow32cr → ∀ v : Word,
    isNaN (pq c v) = false ∧ 0 < fKey (pq c v) ∧ fKey (pq c v) ≤ fKey 0x3F800000) ∧
  (∀ c : Config, c.params.pow32 = pow32cr → pq c 0x3F000000 = 0x3F6D3233 ∧ pq c 0x3CA64C30 = 0x3F14A7F1 ∧
    pq c 0x00000000 = 0x354436E8 ∧ pq c 0x3F800000 = 0x3F800000)

/-- 40_transfer.md R97: for every power function that obeys laws P1 to P5 (`PowLaws`, which reads P5 as log entry 7
says), `pq` fixes 1.0, is monotone on [0, 1] and depends on the clamped value; with `POW32_CR`, `pq(+0)` is not zero
and quantises to zero at every depth. -/
def Obligations.PqIsMonotoneAndFixesOne : Prop :=
  (∀ c : Config, PowLaws c.params.pow32 →
    pq c 0x3F800000 = 0x3F800000 ∧
    pq c 0x00000000 = c.params.pow32 0x3F560000 0x429DB000 ∧
    (∀ v v' : Word, v ≤ v' → v' ≤ 0x3F800000 → pq c v ≤ pq c v') ∧
    (∀ v : Word, pq c v = pq c (clamp01 v)) ∧
    (∀ v : Word, isNaN v = false → fKey 0x3F800000 ≤ fKey v → pq c v = 0x3F800000) ∧
    (∀ v : Word, isNaN v = true ∨ fKey v ≤ 0 → pq c v = pq c 0x00000000)) ∧
  pow32cr 0x3F560000 0x429DB000 = 0x354436E8 ∧
  (∀ d : Depth, quant 0x354436E8 d = 0)

/-- 00_scope.md R13: the reference instance `POW32_CR` satisfies laws P1 to P5. -/
def Obligations.ReferencePowerObeysTheLaws : Prop := PowLaws pow32cr

/-! ## Gamut commands -/

/-- 41_gamut.md R101. -/
def Obligations.NscaleMultipliesColourLanes : Prop :=
  encode .nscale = 0x00000020 ∧
  (∀ s : State, exec .nscale s =
    .next { s with v := ⟨fmul s.v.r 0x3CA64C30, fmul s.v.g 0x3CA64C30, fmul s.v.b 0x3CA64C30, s.v.a⟩ }) ∧
  nscale 0x00000000 = 0x00000000 ∧ nscale 0x80000000 = 0x80000000 ∧ nscale 0x7F800000 = 0x7F800000 ∧
  (∀ v : Word, isNaN v = true → nscale v = 0x7FC00000) ∧
  nscale 0x41A8E5A3 = 0x3EDB6E57 ∧ nscale 0x4093088D = 0x3DBF069B ∧ nscale 0x3E5EDC66 = 0x3B90C53D ∧
  nscale 0x3F800000 = 0x3CA64C30 ∧ nscale 0x00000001 = 0x00000000

/-- 41_gamut.md R103, R104: `MAT3` reads all three lanes before it writes any, sums left to right with the
literal matrix, keeps non-negative lanes free of NaN, and sends one infinite lane to three. -/
def Obligations.Mat3AppliesTheLiteralMatrix : Prop :=
  encode .mat3 = 0x00000021 ∧
  (∀ s : State, exec .mat3 s = .next { s with v :=
    ⟨fadd (fadd (fmul 0x3F209DE0 s.v.r) (fmul 0x3D8D914E s.v.g)) (fmul 0x3C868A5E s.v.b),
     fadd (fadd (fmul 0x3EA894C4 s.v.r) (fmul 0x3F6B6790 s.v.g)) (fmul 0x3DB45268 s.v.b),
     fadd (fadd (fmul 0x3D313DE0 s.v.r) (fmul 0x3C397AE0 s.v.g)) (fmul 0x3F654728 s.v.b), s.v.a⟩ }) ∧
  (∀ n0 n1 n2 : Word, n0 ≤ 0x7F800000 → n1 ≤ 0x7F800000 → n2 ≤ 0x7F800000 →
    (mat3 Config.here n0 n1 n2).r ≤ 0x7F800000 ∧ (mat3 Config.here n0 n1 n2).g ≤ 0x7F800000 ∧
    (mat3 Config.here n0 n1 n2).b ≤ 0x7F800000 ∧
    (n0 = 0x7F800000 ∨ n1 = 0x7F800000 ∨ n2 = 0x7F800000 →
      mat3 Config.here n0 n1 n2 = ⟨0x7F800000, 0x7F800000, 0x7F800000⟩)) ∧
  mat3 Config.here 0x3EDB6E57 0x3DBF069B 0x3B90C53D = ⟨0x3E8D02E5, 0x3E68BA11, 0x3CC0FCF5⟩ ∧
  fmul 0x3F209DE0 0x3EDB6E57 = 0x3E89AC49 ∧ fmul 0x3D8D914E 0x3DBF069B = 0x3BD34621 ∧
  fmul 0x3C868A5E 0x3B90C53D = 0x38982AFB ∧ fadd 0x3E89AC49 0x3BD34621 = 0x3E8CF962 ∧
  (mat3 Config.here 0x3F1A9A81 0x3F202F35 0x3D8633FF).r = 0x3ED8B21C ∧
  fadd (fmul 0x3F209DE0 0x3F1A9A81) (fadd (fmul 0x3D8D914E 0x3F202F35) (fmul 0x3C868A5E 0x3D8633FF)) = 0x3ED8B21B

/-- 41_gamut.md R106. -/
def Obligations.ClampClampsAllFourLanes : Prop :=
  encode .clamp = 0x00000022 ∧
  (∀ s : State, ∃ t, exec .clamp s = .next t ∧ t = { s with v := t.v } ∧ exec .clamp t = .next t ∧
    ∀ l ∈ [(s.v.r, t.v.r), (s.v.g, t.v.g), (s.v.b, t.v.b), (s.v.a, t.v.a)],
      ((isNaN l.1 = true ∨ fKey l.1 ≤ 0) → l.2 = 0x00000000) ∧
      (isNaN l.1 = false → fKey 0x3F800000 ≤ fKey l.1 → l.2 = 0x3F800000) ∧
      (isNaN l.1 = false → 0 < fKey l.1 → fKey l.1 < fKey 0x3F800000 → l.2 = l.1)) ∧
  (∀ s : State, s.v = ⟨0x7FC00000, 0x7F800000, 0xBF000000, 0x40000000⟩ →
    exec .clamp s = .next { s with v := ⟨0x00000000, 0x3F800000, 0x00000000, 0x3F800000⟩ })

/-- 41_gamut.md R109 (with `luma` of R108): the measure of the clamped triple, at most 10000. -/
def Obligations.LumaMeasuresTheClampedTriple : Prop :=
  encode .luma = 0x00000023 ∧
  (∀ s : State, ∃ t, exec .luma s = .next t ∧ t = { s with y := t.y } ∧
    t.y.toNat = min 65535 (rhaz (fmul (fadd (fadd (fmul 0x3E86809D (clamp01 s.v.r))
      (fmul 0x3F2D9168 (clamp01 s.v.g))) (fmul 0x3D72E48F (clamp01 s.v.b))) 0x461C4000)) ∧
    t.y.toNat ≤ 10000 ∧
    (fKey 0x3F800000 ≤ fKey s.v.r → fKey 0x3F800000 ≤ fKey s.v.g → fKey 0x3F800000 ≤ fKey s.v.b →
      isNaN s.v.r = false → isNaN s.v.g = false → isNaN s.v.b = false → t.y = 10000) ∧
    (fKey s.v.r ≤ 0 → fKey s.v.g ≤ 0 → fKey s.v.b ≤ 0 → t.y = 0)) ∧
  luma 0x3E8D02E5 0x3E68BA11 0x3CC0FCF5 = 2278 ∧
  fmul 0x3E86809D 0x3E8D02E5 = 0x3D942CB8 ∧ fmul 0x3F2D9168 0x3E68BA11 = 0x3E1DC9ED ∧
  fmul 0x3D72E48F 0x3CC0FCF5 = 0x3AB71B6D ∧ fadd 0x3D942CB8 0x3E1DC9ED = 0x3E67E049 ∧
  fadd 0x3E67E049 0x3AB71B6D = 0x3E694E80 ∧ fmul 0x3E694E80 0x461C4000 = 0x450E662A

/-! ## Quantisers and packers -/

/-- 42_quantize_pack.md R112. -/
def Obligations.QuantIsBoundedAndMonotone : Prop :=
  (∀ (v : Word) (d : Depth), quant v d = min d.max (rhaz (fmul (clamp01 v) d.scale)) ∧
    rhaz (fmul (clamp01 v) d.scale) ≤ d.max ∧ quant (clamp01 v) d = quant v d) ∧
  (∀ (v v' : Word) (d : Depth), isNaN v = false → isNaN v' = false → fKey v ≤ fKey v' → quant v d ≤ quant v' d) ∧
  (∀ (v : Word) (d : Depth), isNaN v = true ∨ fKey v ≤ 0 → quant v d = 0) ∧
  (∀ (v : Word) (d : Depth), isNaN v = false → fKey 0x3F800000 ≤ fKey v → quant v d = d.max) ∧
  (quant 0x3F000000 .d8 = 128 ∧ quant 0x3F000000 .d10 = 512 ∧ quant 0x3F000000 .d16 = 32768 ∧
    quant 0x3F000000 .d2 = 2) ∧
  (Depth.max .d8 = 255 ∧ Depth.max .d10 = 1023 ∧ Depth.max .d16 = 65535 ∧ Depth.max .d2 = 3) ∧
  (Depth.scale .d8 = 0x437F0000 ∧ Depth.scale .d10 = 0x447FC000 ∧ Depth.scale .d16 = 0x477FFF00 ∧
    Depth.scale .d2 = 0x40400000) ∧
  (∀ d : Depth, quant 0x00000000 d = 0 ∧ quant 0x3F800000 d = d.max ∧ quant 0x7F800000 d = d.max)

/-- 42_quantize_pack.md R113. -/
def Obligations.Q8QuantisesAllLanes : Prop :=
  encode .q8 = 0x00000030 ∧
  (∀ s : State, ∃ t, exec .q8 s = .next t ∧ t = { s with q := t.q } ∧
    ∀ l ∈ [(s.v.r, t.q.r), (s.v.g, t.q.g), (s.v.b, t.q.b), (s.v.a, t.q.a)],
      l.2.toNat = quant l.1 .d8 ∧ l.2.toNat ≤ 255 ∧
      ((isNaN l.1 = true ∨ fKey l.1 ≤ 0) → l.2 = 0) ∧
      (isNaN l.1 = false → fKey 0x3F800000 ≤ fKey l.1 → l.2 = 255) ∧
      (l.1 = 0x3F000000 → l.2 = 128) ∧ (l.1 = 0x3DCCCCCD → l.2 = 26)) ∧
  (∀ s : State, s.v = ⟨0x40800000, 0x40000000, 0x3F000000, 0x3F000000⟩ →
    exec .q8 s = .next { s with q := ⟨255, 255, 128, 128⟩ })

/-- 42_quantize_pack.md R115. -/
def Obligations.Q10a2QuantisesColourAndAlpha : Prop :=
  encode .q10a2 = 0x00000031 ∧
  (∀ s : State, ∃ t, exec .q10a2 s = .next t ∧ t = { s with q := t.q } ∧
    (∀ l ∈ [(s.v.r, t.q.r), (s.v.g, t.q.g), (s.v.b, t.q.b)],
      l.2.toNat = quant l.1 .d10 ∧ l.2.toNat ≤ 1023 ∧ (l.1 = 0x354436E8 → l.2 = 0) ∧
      (l.1 = 0x3F800000 → l.2 = 1023)) ∧
    t.q.a.toNat = quant s.v.a .d2 ∧ t.q.a.toNat ≤ 3 ∧
    (isNaN s.v.a = false → fKey s.v.a ≤ fKey 0x3E2AAAAA → t.q.a = 0) ∧ (s.v.a = 0x3E2AAAAB → t.q.a = 1) ∧
    (s.v.a = 0x3EFFFFFF → t.q.a = 1) ∧ (s.v.a = 0x3F000000 → t.q.a = 2) ∧
    (0x3F555555 ≤ s.v.a → s.v.a ≤ 0x7F800000 → t.q.a = 3)) ∧
  (∀ s : State, s.v = ⟨0x3F5CBA0C, 0x3F576226, 0x3F18A72C, 0x3F000000⟩ →
    exec .q10a2 s = .next { s with q := ⟨882, 861, 610, 2⟩ })

/-- 42_quantize_pack.md R116. -/
def Obligations.Q16QuantisesAllLanes : Prop :=
  encode .q16 = 0x00000032 ∧
  (∀ s : State, ∃ t, exec .q16 s = .next t ∧ t = { s with q := t.q } ∧
    ∀ l ∈ [(s.v.r, t.q.r), (s.v.g, t.q.g), (s.v.b, t.q.b), (s.v.a, t.q.a)],
      l.2.toNat = quant l.1 .d16 ∧ l.2.toNat ≤ 65535 ∧ (l.1 = 0x3F707C70 → l.2 = 61564) ∧
      (l.1 = 0x3F000000 → l.2 = 32768) ∧ (l.1 = 0x354436E8 → l.2 = 0)) ∧
  (∀ s : State, s.v = ⟨0x3F5CBA0C, 0x3F576226, 0x3F18A72C, 0x3F000000⟩ →
    exec .q16 s = .next { s with q := ⟨56505, 55137, 39079, 32768⟩ }) ∧
  fmul 0x3F707C70 0x477FFF00 = 0x47707B80

/-- 42_quantize_pack.md R118: the four bytes of `W` are the low bytes of the lanes, the rest is zero. -/
def Obligations.Pk8PacksFourBytes : Prop :=
  encode .pk8 = 0x00000038 ∧
  (∀ s : State, ∃ t, exec .pk8 s = .next t ∧ t = { s with w := t.w } ∧
    t.w.extractLsb' 0 8 = s.q.r.extractLsb' 0 8 ∧ t.w.extractLsb' 8 8 = s.q.g.extractLsb' 0 8 ∧
    t.w.extractLsb' 16 8 = s.q.b.extractLsb' 0 8 ∧ t.w.extractLsb' 24 8 = s.q.a.extractLsb' 0 8 ∧
    t.w.extractLsb' 32 32 = 0) ∧
  (∀ s : State, s.q = ⟨255, 255, 128, 128⟩ → exec .pk8 s = .next { s with w := 0x8080FFFF })

/-- 42_quantize_pack.md R119: the fields of the packed word, the rest zero. -/
def Obligations.Pk10PacksTheHdrWord : Prop :=
  encode .pk10 = 0x00000039 ∧
  (∀ s : State, ∃ t, exec .pk10 s = .next t ∧ t = { s with w := t.w } ∧
    t.w.extractLsb' 0 10 = s.q.r.extractLsb' 0 10 ∧ t.w.extractLsb' 10 10 = s.q.g.extractLsb' 0 10 ∧
    t.w.extractLsb' 20 10 = s.q.b.extractLsb' 0 10 ∧ t.w.extractLsb' 30 2 = s.q.a.extractLsb' 0 2 ∧
    t.w.extractLsb' 32 32 = 0) ∧
  (∀ s : State, s.q = ⟨882, 861, 610, 2⟩ → exec .pk10 s = .next { s with w := 0xA62D7772 })

/-- 42_quantize_pack.md R120: the four 16-bit channels of `W`. -/
def Obligations.Pk16PacksFourChannels : Prop :=
  encode .pk16 = 0x0000003A ∧
  (∀ s : State, ∃ t, exec .pk16 s = .next t ∧ t = { s with w := t.w } ∧
    t.w.extractLsb' 0 16 = s.q.r ∧ t.w.extractLsb' 16 16 = s.q.g ∧
    t.w.extractLsb' 32 16 = s.q.b ∧ t.w.extractLsb' 48 16 = s.q.a) ∧
  (∀ s : State, s.q = ⟨56505, 55137, 39079, 32768⟩ →
    exec .pk16 s = .next { s with w := 0x800098A7D761DCB9 })

/-! ## Memory commands -/

/-- 43_memory_ops.md R128. -/
def Obligations.IndexBeyondCapRaisesIdx : Prop :=
  ∀ s : State,
    (Config.here.maxPixels ≤ s.idx.toNat → ∀ i ∈ [Instr.ldpx, .sts, .sth10, .sth16],
      exec i s = .next { s with err := true, errcode := 5, errinfo := s.idx }) ∧
    (s.idx.toNat < Config.here.maxPixels →
      16 * s.idx.toNat + 16 ≤ Config.here.size .input ∧ 4 * s.idx.toNat + 4 ≤ Config.here.size .sdr ∧
      4 * s.idx.toNat + 4 ≤ 8 * s.idx.toNat + 8 ∧ 8 * s.idx.toNat + 8 ≤ Config.here.size .hdr)

/-- 43_memory_ops.md R129: the four lanes hold the sixteen bytes of sample `IDX`, little-endian; `NONFIN` is set
by a lane with an all-ones exponent and never cleared; nothing else changes. -/
def Obligations.LdpxLoadsTheSample : Prop :=
  encode .ldpx = 0x00000040 ∧
  (∀ s : State, Config.here.maxPixels ≤ s.idx.toNat →
    exec .ldpx s = .next { s with err := true, errcode := 5, errinfo := s.idx }) ∧
  ∀ s : State, s.idx.toNat < Config.here.maxPixels → ∃ t, exec .ldpx s = .next t ∧
    t = { s with v := t.v, nonfin := t.nonfin } ∧
    (∀ l ∈ [(0, t.v.r), (4, t.v.g), (8, t.v.b), (12, t.v.a)], ∀ k < 4,
      l.2.extractLsb' (8 * k) 8 = s.byteAt .input (16 * s.idx.toNat + l.1 + k)) ∧
    (t.nonfin = true ↔ s.nonfin = true ∨ ∃ x ∈ [t.v.r, t.v.g, t.v.b, t.v.a], x.extractLsb' 23 8 = 255)

/-- 43_memory_ops.md R130. -/
def Obligations.StsStoresTheSdrPixel : Prop :=
  encode .sts = 0x00000041 ∧
  (∀ s : State, Config.here.maxPixels ≤ s.idx.toNat →
    exec .sts s = .next { s with err := true, errcode := 5, errinfo := s.idx }) ∧
  ∀ s : State, s.idx.toNat < Config.here.maxPixels → ∃ t, exec .sts s = .next t ∧
    t = { s with sdrBuf := t.sdrBuf } ∧
    (∀ k < 4, t.byteAt .sdr (4 * s.idx.toNat + k) = s.w.extractLsb' (8 * k) 8) ∧
    (∀ x, ¬(4 * s.idx.toNat ≤ x ∧ x < 4 * s.idx.toNat + 4) → t.byteAt .sdr x = s.byteAt .sdr x)

/-- 43_memory_ops.md R131. -/
def Obligations.Sth10StoresTheHdrWord : Prop :=
  encode .sth10 = 0x00000042 ∧
  (∀ s : State, Config.here.maxPixels ≤ s.idx.toNat →
    exec .sth10 s = .next { s with err := true, errcode := 5, errinfo := s.idx }) ∧
  ∀ s : State, s.idx.toNat < Config.here.maxPixels → ∃ t, exec .sth10 s = .next t ∧
    t = { s with hdrBuf := t.hdrBuf } ∧
    (∀ k < 4, t.byteAt .hdr (4 * s.idx.toNat + k) = s.w.extractLsb' (8 * k) 8) ∧
    (∀ x, ¬(4 * s.idx.toNat ≤ x ∧ x < 4 * s.idx.toNat + 4) → t.byteAt .hdr x = s.byteAt .hdr x)

/-- 43_memory_ops.md R132. -/
def Obligations.Sth16StoresTheHdrPixel : Prop :=
  encode .sth16 = 0x00000043 ∧
  (∀ s : State, Config.here.maxPixels ≤ s.idx.toNat →
    exec .sth16 s = .next { s with err := true, errcode := 5, errinfo := s.idx }) ∧
  ∀ s : State, s.idx.toNat < Config.here.maxPixels → ∃ t, exec .sth16 s = .next t ∧
    t = { s with hdrBuf := t.hdrBuf } ∧
    (∀ k < 8, t.byteAt .hdr (8 * s.idx.toNat + k) = s.w.extractLsb' (8 * k) 8) ∧
    (∀ x, ¬(8 * s.idx.toNat ≤ x ∧ x < 8 * s.idx.toNat + 8) → t.byteAt .hdr x = s.byteAt .hdr x)

/-- 20_memory.md R56: where the fields of a packed HDR word lie in the four bytes of `HDR`. -/
def Obligations.PackedWordBytesInMemory : Prop :=
  ∀ s t u : State, exec .pk10 s = .next t → exec .sth10 t = .next u →
    s.idx.toNat < Config.here.maxPixels →
    u.memRead .hdr (4 * s.idx.toNat) 4 = s.q.r.toNat % 2 ^ 10 + s.q.g.toNat % 2 ^ 10 * 2 ^ 10 +
      s.q.b.toNat % 2 ^ 10 * 2 ^ 20 + s.q.a.toNat % 2 ^ 2 * 2 ^ 30 ∧
    u.byteAt .hdr (4 * s.idx.toNat) = s.q.r.extractLsb' 0 8 ∧
    u.byteAt .hdr (4 * s.idx.toNat + 1) = s.q.g.extractLsb' 0 6 ++ s.q.r.extractLsb' 8 2 ∧
    u.byteAt .hdr (4 * s.idx.toNat + 2) = s.q.b.extractLsb' 0 4 ++ s.q.g.extractLsb' 6 4 ∧
    u.byteAt .hdr (4 * s.idx.toNat + 3) = s.q.a.extractLsb' 0 2 ++ s.q.b.extractLsb' 4 6

/-! ## Light level -/

/-- 44_cll.md R139. -/
def Obligations.RdivRoundsHalfUp : Prop :=
  (∀ s n : Nat, 1 ≤ n → rdiv s n = (2 * s + n) / (2 * n) ∧ (rdiv s n : ℤ) = ⌊(s : ℚ) / n + 1 / 2⌋) ∧
  (∀ n k : Nat, 1 ≤ n → rdiv (n * k) n = k) ∧
  (∀ s n m : Nat, 1 ≤ n → s ≤ m * n → rdiv s n ≤ m) ∧
  rdiv 233 2 = 117 ∧ rdiv 232 3 = 77 ∧ rdiv 5 2 = 3 ∧ (∀ n : Nat, 1 ≤ n → rdiv 0 n = 0)

/-- 44_cll.md R140. -/
def Obligations.CllclrClearsTheAccumulators : Prop :=
  encode .cllclr = 0x00000050 ∧
  ∀ s : State, ∃ t, exec .cllclr s = .next t ∧ t = { s with cllMax := 0, cllSum := 0, cllCnt := 0 } ∧
    t.maxcll = s.maxcll ∧ t.maxpall = s.maxpall

/-- 44_cll.md R141: the accumulators take in `Y`; at the last count the command raises `E_CLL` instead. The sum
does not wrap in any state with the invariant (10_state.md R35). -/
def Obligations.CllaccAccumulatesY : Prop :=
  encode .cllacc = 0x00000051 ∧
  (∀ s : State, s.cllCnt = 0xFFFFFFFF →
    exec .cllacc s = .next { s with err := true, errcode := 6, errinfo := 0x00000051 }) ∧
  (∀ s : State, s.cllCnt ≠ 0xFFFFFFFF → ∃ t, exec .cllacc s = .next t ∧
    t = { s with cllMax := t.cllMax, cllSum := t.cllSum, cllCnt := t.cllCnt } ∧
    t.cllMax.toNat = max s.cllMax.toNat s.y.toNat ∧
    t.cllCnt.toNat = s.cllCnt.toNat + 1 ∧
    t.cllSum = s.cllSum + s.y.setWidth 48 ∧
    (Inv Config.here s → t.cllSum.toNat = s.cllSum.toNat + s.y.toNat))

/-- 44_cll.md R143: the light level from the accumulators; with nothing accumulated, `E_CLL`. With the invariant
the rounded mean fits its register and does not exceed the maximum. -/
def Obligations.CllfinPublishesMaxAndMean : Prop :=
  encode .cllfin = 0x00000052 ∧
  (∀ s : State, s.cllCnt = 0 →
    exec .cllfin s = .next { s with err := true, errcode := 6, errinfo := 0x00000052 }) ∧
  (∀ s : State, s.cllCnt ≠ 0 → ∃ t, exec .cllfin s = .next t ∧
    t = { s with maxcll := s.cllMax, maxpall := t.maxpall } ∧
    t.maxpall = BitVec.ofNat 16 ((2 * s.cllSum.toNat + s.cllCnt.toNat) / (2 * s.cllCnt.toNat)) ∧
    (Inv Config.here s → t.maxpall.toNat = rdiv s.cllSum.toNat s.cllCnt.toNat ∧
      t.maxpall.toNat ≤ t.maxcll.toNat))

/-- 44_cll.md R144: if every accumulated `Y` is one value, maximum and mean are that value, for every count. -/
def Obligations.UniformLuminanceGivesEqualLevels : Prop :=
  ∀ (s : State) (n : Nat), 1 ≤ n → n < 2 ^ 32 →
    ∃ t, execAll (.cllclr :: (List.replicate n .cllacc ++ [.cllfin])) s = .next t ∧
      t.maxcll = s.y ∧ t.maxpall = s.y

/-! ## Frame commands and the engine -/

/-- 45_frame.md R149, R155, R156: a frame command whose frame is not empty, has the declared count and fits is
accepted: the engine exists with the frame's size and no pixel done, the accumulators are cleared in single-layer
mode only, and nothing else changes. -/
def Obligations.AcceptedFrameStartsTheEngine : Prop :=
  ∀ s : State, ∀ p ∈ [(Instr.runGm, EngMode.gm), (Instr.runSl, EngMode.sl)],
    s.width ≠ 0 → s.height ≠ 0 → s.width.toNat * s.height.toNat = s.inCount.toNat →
    s.inCount.toNat ≤ Config.here.maxPixels →
    ∃ t, exec p.1 s = .next t ∧ t.busy = true ∧
      t.engine = some ⟨p.2, s.width.toNat * s.height.toNat, []⟩ ∧
      (p.2 = .sl → t.cllMax = 0 ∧ t.cllSum = 0 ∧ t.cllCnt = 0) ∧
      (p.2 = .gm → t.cllMax = s.cllMax ∧ t.cllSum = s.cllSum ∧ t.cllCnt = s.cllCnt) ∧
      t = { s with done := false, pixdone := 0, engine := t.engine, cllMax := t.cllMax, cllSum := t.cllSum,
                   cllCnt := t.cllCnt }

/-- 45_frame.md R149, for every capacity: the checks of a frame command in their order, each with its cause and
information word, and acceptance when all pass. -/
def Obligations.FrameChecksInOrder : Prop :=
  ∀ s : State, ∀ p ∈ [(Instr.runGm, EngMode.gm, (0x80 : Word)), (Instr.runSl, EngMode.sl, (0x81 : Word))],
    let n := s.width.toNat * s.height.toNat
    encode p.1 = p.2.2 ∧ exec p.1 s = .next (startFrame Config.here p.2.1 p.2.2 s) ∧
    ∀ c : Config,
      (s.width = 0 ∨ s.height = 0 →
        startFrame c p.2.1 p.2.2 s = { s with err := true, errcode := 2, errinfo := p.2.2 }) ∧
      (s.width ≠ 0 → s.height ≠ 0 → n ≠ s.inCount.toNat →
        startFrame c p.2.1 p.2.2 s =
          { s with err := true, errcode := 3, errinfo := BitVec.ofNat 32 (min n 0xFFFFFFFF) }) ∧
      (s.width ≠ 0 → s.height ≠ 0 → n = s.inCount.toNat → c.maxPixels < n →
        startFrame c p.2.1 p.2.2 s = { s with err := true, errcode := 4, errinfo := s.inCount }) ∧
      (s.width ≠ 0 → s.height ≠ 0 → n = s.inCount.toNat → n ≤ c.maxPixels →
        startFrame c p.2.1 p.2.2 s =
          { s with done := false, pixdone := 0, engine := some ⟨p.2.1, n, []⟩
                   cllMax := if p.2.1 = .sl then 0 else s.cllMax
                   cllSum := if p.2.1 = .sl then 0 else s.cllSum
                   cllCnt := if p.2.1 = .sl then 0 else s.cllCnt })

/-- 45_frame.md R151: every step of the model's engine is a move that the rule allows (a pixel step of some
remaining pixel, or completion), on the state with one more free choice made. -/
def Obligations.EngineStepIsAnAllowedMove : Prop :=
  ∀ (s t : State) (e : Engine), s.engine = some e → engineStep Config.here e s = .next t →
    EngineMove Config.here s t ∨ EngineMove Config.here s.tick t

/-- 45_frame.md R152: two pixel steps commute, for every configuration. -/
def Obligations.PixelStepsCommute : Prop :=
  ∀ (c : Config) (s : State) (e : Engine) (i j : Nat), Inv c s → s.engine = some e →
    i < e.n → j < e.n → i ≠ j → i ∉ e.doneSet → j ∉ e.doneSet →
    ∃ t t' u e1 e2, pixelStep c i e s = .next t ∧ pixelStep c j e s = .next t' ∧
      t.engine = some e1 ∧ t'.engine = some e2 ∧
      pixelStep c j e1 t = .next u ∧ pixelStep c i e2 t' = .next u

/-- 45_frame.md R152: no observable result depends on the order of pixel steps: whatever order the engine takes,
the state at completion is the same, for every configuration. -/
def Obligations.FrameResultIsOrderIndependent : Prop :=
  ∀ (c : Config) (s u u' : State), Inv c s → EngineRun c s u → EngineRun c s u' →
    u.engine = none → u'.engine = none → u = u'

/-- 45_frame.md R151; 70_reset_and_hazards.md R207: a frame ends. When no other agent has anything to do, after one
step for each remaining pixel and one more; whatever the host and the platform have waiting, after some number of
steps, under every schedule with R151's weak fairness, and with `DONE` set if no level of `rst` is pending; and a host
that polls in `WAIT DONE` (30_encoding.md R82) gets past it with a `STATUS` that shows `DONE`. -/
def Obligations.BusyEndsWithinRemainingSteps : Prop :=
  (∀ (s : State) (e : Engine), Inv Config.here s → s.engine = some e → s.host = [] → s.rstInput = [] →
    ∃ t : State, Host.Core.run Sys2Proof.core (e.n - e.doneSet.length + 1) s = .next t ∧
      t.engine = none ∧ t.done = true) ∧
  (∀ (s : State) (e : Engine), Inv Config.here s → s.engine = some e →
    ∃ (k : Nat) (t : State), Host.Core.run Sys2Proof.core k s = .next t ∧ t.engine = none ∧
      (s.rstInput = [] → t.done = true)) ∧
  (∀ (s : State) (e : Engine) (rest : List HostOp), Inv Config.here s → s.engine = some e → s.rstInput = [] →
    s.host = .waitDone :: rest →
    ∃ (k : Nat) (t : State), Host.Core.run Sys2Proof.core k s = .next t ∧ t.engine = none ∧ t.done = true ∧
      t.host = rest ∧ t.response = some (.data t.statusWord))

/-- 45_frame.md R155: the end state of `RUN_GM`, in whatever order its pixels are processed. -/
def Obligations.RunGmConvertsTheFrame : Prop :=
  ∀ s t : State, Inv Config.here s → s.engine = none → s.err = false → s.rst = false →
    exec .runGm s = .next t → t.err = false →
    (∃ u, EngineRun Config.here t u ∧ u.engine = none) ∧
    ∀ u, EngineRun Config.here t u → u.engine = none →
      (∀ i < s.frameSize, u.memRead .sdr (4 * i) 4 = (sdrPx (s.sample i)).toNat ∧
        u.memRead .hdr (4 * i) 4 = (hdr10Px Config.here (s.sample i)).toNat) ∧
      (∀ x, 4 * s.frameSize ≤ x → u.byteAt .sdr x = s.byteAt .sdr x ∧ u.byteAt .hdr x = s.byteAt .hdr x) ∧
      u.pixdone.toNat = s.frameSize ∧ u.done = true ∧
      (u.nonfin = true ↔ s.nonfin = true ∨ ∃ i < s.frameSize, sampleNonfinite (s.sample i) = true) ∧
      u = { s with done := u.done, nonfin := u.nonfin, pixdone := u.pixdone, sdrBuf := u.sdrBuf,
                   hdrBuf := u.hdrBuf }

/-- 45_frame.md R156: the end state of `RUN_SL`, in whatever order its pixels are processed. -/
def Obligations.RunSlConvertsTheFrameAndMeasuresIt : Prop :=
  ∀ s t : State, Inv Config.here s → s.engine = none → s.err = false → s.rst = false →
    exec .runSl s = .next t → t.err = false →
    (∃ u, EngineRun Config.here t u ∧ u.engine = none) ∧
    ∀ u, EngineRun Config.here t u → u.engine = none →
      (∀ i < s.frameSize, u.memRead .sdr (4 * i) 4 = (sdrPx (s.sample i)).toNat ∧
        u.memRead .hdr (8 * i) 8 = (hdr16Px Config.here (s.sample i)).toNat) ∧
      (∀ x, 4 * s.frameSize ≤ x → u.byteAt .sdr x = s.byteAt .sdr x) ∧
      (∀ x, 8 * s.frameSize ≤ x → u.byteAt .hdr x = s.byteAt .hdr x) ∧
      u.pixdone.toNat = s.frameSize ∧ u.done = true ∧
      (u.nonfin = true ↔ s.nonfin = true ∨ ∃ i < s.frameSize, sampleNonfinite (s.sample i) = true) ∧
      u.cllCnt.toNat = s.frameSize ∧
      u.cllSum.toNat = ∑ i ∈ Finset.range s.frameSize, yPx Config.here (s.sample i) ∧
      (∀ i < s.frameSize, yPx Config.here (s.sample i) ≤ u.cllMax.toNat) ∧
      (∃ i < s.frameSize, yPx Config.here (s.sample i) = u.cllMax.toNat) ∧
      u.maxcll = u.cllMax ∧ u.maxpall.toNat = rdiv u.cllSum.toNat s.frameSize ∧
      u.maxpall.toNat ≤ u.maxcll.toNat ∧ u.maxcll.toNat ≤ 10000 ∧
      u = { s with done := u.done, nonfin := u.nonfin, pixdone := u.pixdone, sdrBuf := u.sdrBuf,
                   hdrBuf := u.hdrBuf, cllMax := u.cllMax, cllSum := u.cllSum, cllCnt := u.cllCnt,
                   maxcll := u.maxcll, maxpall := u.maxpall }

/-- 45_frame.md R159 for one pixel: the commands of `PIXGM` leave `SDR`, `HDR` and `NONFIN` as the gain-map pixel
step does, and beside them change only `V`, `Q`, `W`. -/
def Obligations.ScalarPixelEqualsGainMapStep : Prop :=
  ∀ s : State, s.idx.toNat < Config.here.maxPixels →
    ∃ t, execAll (macroCommands .pixGm) s = .next t ∧
      t.sdrBuf = (writePixel Config.here .gm s.idx.toNat (s.sample s.idx.toNat) s).sdrBuf ∧
      t.hdrBuf = (writePixel Config.here .gm s.idx.toNat (s.sample s.idx.toNat) s).hdrBuf ∧
      t.nonfin = (writePixel Config.here .gm s.idx.toNat (s.sample s.idx.toNat) s).nonfin ∧
      t = { s with v := t.v, q := t.q, w := t.w, sdrBuf := t.sdrBuf, hdrBuf := t.hdrBuf, nonfin := t.nonfin }

/-- 45_frame.md R159 for one pixel: the commands of `PIXSL` leave `SDR`, `HDR`, `NONFIN` and the accumulators as
the single-layer pixel step does, and beside them change only `V`, `Q`, `Y`, `W`. -/
def Obligations.ScalarPixelEqualsSingleLayerStep : Prop :=
  ∀ s : State, s.idx.toNat < Config.here.maxPixels → s.cllCnt ≠ 0xFFFFFFFF →
    ∃ t, execAll (macroCommands .pixSl) s = .next t ∧
      t = { writePixel Config.here .sl s.idx.toNat (s.sample s.idx.toNat) s with
              v := t.v, q := t.q, y := t.y, w := t.w } ∧
      t.y.toNat = yPx Config.here (s.sample s.idx.toNat)

/-- 45_frame.md R160, all-zero sample: the SDR pixel and the measure are zero for every power function that obeys
the laws, and with `POW32_CR` so are both HDR pixels. -/
def Obligations.ZeroSampleGivesZeroPixels : Prop :=
  sdrPx ⟨0, 0, 0, 0⟩ = 0 ∧
  (∀ c : Config, c.mat = matR14 → PowLaws c.params.pow32 → yPx c ⟨0, 0, 0, 0⟩ = 0) ∧
  (∀ c : Config, c.mat = matR14 → c.params.pow32 = pow32cr →
    hdr10Px c ⟨0, 0, 0, 0⟩ = 0 ∧ hdr16Px c ⟨0, 0, 0, 0⟩ = 0)

/-! ## Arithmetic -/

/-- 00_scope.md R11: `roundMag` gives the nearest magnitude pattern: no other finite pattern is nearer, one equally
near means that the result is even, and infinity comes exactly from the rounding boundary above the largest
finite number on. -/
def Obligations.RoundingIsNearestTiesToEven : Prop :=
  ∀ num den : Nat, 0 < den →
    (roundMag num den < 0x7F800000 → ∀ c < 0x7F800000,
      |(magUnits (roundMag num den) * den : ℤ) - num| ≤ |(magUnits c * den : ℤ) - num| ∧
      (c ≠ roundMag num den →
        |(magUnits (roundMag num den) * den : ℤ) - num| = |(magUnits c * den : ℤ) - num| →
        roundMag num den % 2 = 0)) ∧
    (roundMag num den = 0x7F800000 ↔ boundary2 0x7F800000 * den ≤ 2 * num)

/-! ## Registers, bus, interrupt, reset -/

/-- 10_state.md R41, out of reset; and what a read of each register returns (R22 to R39), offset by offset, with
zeros above the bits it has (`PIXDONE` while a frame runs is PixdoneReadsWithinProgress). -/
def Obligations.RegisterAccessRules : Prop :=
  ∀ s : State, s.rst = false →
    (∀ (off n : Nat) (x : Word), n ≠ 4 ∨ off % 4 ≠ 0 →
      hostRead .reg off n s = { s with response := some .busError } ∧
      hostWrite .reg off n x s = .next { s with response := some .busError }) ∧
    (∀ r : Reg, hostRead .reg (regOffset r) 4 s =
      { s with response := some (.data (readReg Config.here s r)) }) ∧
    (∀ x : Word, hostWrite .reg (regOffset .irqEn) 4 x s =
      .next { s with irqEn := x.setWidth 2, response := some .ok }) ∧
    (s.busy = true → ∀ (r : Reg) (x : Word), r ≠ .irqEn →
      hostWrite .reg (regOffset r) 4 x s = .next { s with response := some .busError }) ∧
    (s.busy = false → ∀ (x : Word), ∀ r ∈ [Reg.id, .status, .errcode, .errinfo, .pixdone, .cap, .maxcll,
        .maxpall, .cllMax, .cllCnt, .cllSumLo, .cllSumHi],
      hostWrite .reg (regOffset r) 4 x s = .next { s with response := some .ok }) ∧
    (∃ w : Word, hostRead .reg 0x08 4 s = { s with response := some (.data w) } ∧
      w.getLsbD 0 = s.engine.isSome ∧ w.getLsbD 1 = s.done ∧ w.getLsbD 2 = s.err ∧ w.getLsbD 3 = s.nonfin ∧
      ∀ k, 4 ≤ k → w.getLsbD k = false) ∧
    (∀ p ∈ ([(0x00, 0x43545001), (0x04, 0), (0x0C, s.errcode.toNat), (0x10, s.errinfo.toNat), (0x14, s.irqEn.toNat),
        (0x18, s.width.toNat), (0x1C, s.height.toNat), (0x20, s.inCount.toNat), (0x28, s.idx.toNat),
        (0x2C, Config.here.maxPixels), (0x30, s.maxcll.toNat), (0x34, s.maxpall.toNat), (0x38, s.cllMax.toNat),
        (0x3C, s.cllCnt.toNat), (0x40, s.cllSum.toNat % 2 ^ 32), (0x44, s.cllSum.toNat / 2 ^ 32),
        (0x50, s.v.r.toNat), (0x54, s.v.g.toNat), (0x58, s.v.b.toNat), (0x5C, s.v.a.toNat),
        (0x60, s.q.r.toNat), (0x64, s.q.g.toNat), (0x68, s.q.b.toNat), (0x6C, s.q.a.toNat), (0x70, s.y.toNat),
        (0x78, s.w.toNat % 2 ^ 32), (0x7C, s.w.toNat / 2 ^ 32)] : List (Nat × Nat)),
      ∃ w : Word, hostRead .reg p.1 4 s = { s with response := some (.data w) } ∧ w.toNat = p.2) ∧
    (s.engine = none → hostRead .reg 0x24 4 s = { s with response := some (.data s.pixdone) })

/-- 10_state.md R22, R28, R36 to R39, R40: what is written to a read-write register is read back, masked to the
bits it has; the other registers hold what they held; reserved offsets read zero, while a frame runs too, and ignore
writes. -/
def Obligations.WrittenRegistersReadBackMasked : Prop :=
  (∀ (s : State) (x : Word), s.rst = false → s.busy = false →
    ∀ p ∈ [(Reg.irqEn, (0x3 : Word)), (.width, 0xFFFFFFFF), (.height, 0xFFFFFFFF), (.inCount, 0xFFFFFFFF),
      (.idx, 0xFFFFFFFF), (.v0, 0xFFFFFFFF), (.v1, 0xFFFFFFFF), (.v2, 0xFFFFFFFF), (.v3, 0xFFFFFFFF),
      (.q0, 0xFFFF), (.q1, 0xFFFF), (.q2, 0xFFFF), (.q3, 0xFFFF), (.y, 0xFFFF), (.wLo, 0xFFFFFFFF),
      (.wHi, 0xFFFFFFFF)],
    ∃ t, hostWrite .reg (regOffset p.1) 4 x s = .next t ∧ t.response = some .ok ∧
      readReg Config.here t p.1 = x &&& p.2 ∧ ∀ r ≠ p.1, readReg Config.here t r = readReg Config.here s r) ∧
  (∀ (s : State) (x : Word) (off : Nat), s.rst = false → off % 4 = 0 →
    (off = 0x48 ∨ off = 0x4C ∨ off = 0x74 ∨ (0x80 ≤ off ∧ off ≤ 0xFC)) →
    hostRead .reg off 4 s = { s with response := some (.data 0) } ∧
    (s.busy = false → hostWrite .reg off 4 x s = .next { s with response := some .ok }))

/-- 20_memory.md R62, R63, out of reset. While busy every buffer access gets a bus error and changes nothing. While
not busy a legal buffer read answers `MemRead`, a legal write performs
`MemWrite` (the bytes written, no other byte, nothing else), any other access gets a bus error and changes
nothing. -/
def Obligations.BufferAccessRules : Prop :=
  ∀ (s : State) (b : Buffer) (off n : Nat) (x : Word), s.rst = false →
    (s.busy = true →
      hostRead (.buf b) off n s = { s with response := some .busError } ∧
      hostWrite (.buf b) off n x s = .next { s with response := some .busError }) ∧
    (s.busy = false ∧ (n = 1 ∨ n = 2 ∨ n = 4) ∧ off % n = 0 ∧ off + n ≤ Config.here.size b →
      hostRead (.buf b) off n s =
        { s with response := some (.data (BitVec.ofNat 32 (s.memRead b off n))) } ∧
      ∃ t, hostWrite (.buf b) off n x s = .next t ∧
        t.memRead b off n = x.toNat % 256 ^ n ∧
        (∀ b' y, ¬(b' = b ∧ off ≤ y ∧ y < off + n) → t.byteAt b' y = s.byteAt b' y) ∧
        t = { s with inBuf := t.inBuf, sdrBuf := t.sdrBuf, hdrBuf := t.hdrBuf, response := some .ok }) ∧
    (s.busy = false ∧ ¬((n = 1 ∨ n = 2 ∨ n = 4) ∧ off % n = 0 ∧ off + n ≤ Config.here.size b) →
      hostRead (.buf b) off n s = { s with response := some .busError } ∧
      hostWrite (.buf b) off n x s = .next { s with response := some .busError })

/-- 20_memory.md R59: an address in a window is the offset from its base, in that window and no other; bases are
multiples of 8. -/
def Obligations.AddressesRouteToTheirWindow : Prop :=
  ∀ (w : Window) (off : Nat), off < Config.here.params.windowSize w →
    route Config.here (Config.here.params.windowBase w + off) = some (w, off) ∧
    Config.here.params.windowBase w % 8 = 0

/-- 10_state.md R31: what a read of `PIXDONE` can return while a frame runs. -/
def Obligations.PixdoneReadsWithinProgress : Prop :=
  ∀ (s : State) (e : Engine), Inv Config.here s → s.engine = some e →
    e.doneSet.length ≤ (readReg Config.here s .pixdone).toNat ∧
    (readReg Config.here s .pixdone).toNat ≤ e.n ∧
    (e.doneSet = [] → readReg Config.here s .pixdone = 0)

/-- 10_state.md R25: `NONFIN` is sticky: a command that finds it set leaves it set, unless it is `CLR`, and so does
every step of the engine. -/
def Obligations.NonfinIsStickyButForClr : Prop :=
  (∀ (i : Instr) (s t : State), exec i s = .next t → s.nonfin = true → i ≠ .clr → t.nonfin = true) ∧
  (∀ (e : Engine) (s t : State), engineStep Config.here e s = .next t → s.nonfin = true → t.nonfin = true)

/-- 10_state.md R46: the interrupt line follows the two flags and the two enables and nothing else. -/
def Obligations.IrqIsALevelOfFlagsAndEnables : Prop :=
  (∀ s : State, s.irq = true ↔ (s.done = true ∧ s.irqEn.getLsbD 0 = true) ∨
    (s.err = true ∧ s.irqEn.getLsbD 1 = true)) ∧
  (∀ s t : State, exec .clr s = .next t → t.irq = false) ∧
  (∀ s t : State, s.rst = false → hostWrite .reg 0x14 4 0 s = .next t → t.irq = false) ∧
  (∀ (m : EngMode) (s : State), s.err = false → (acceptFrame m s).irq = false) ∧
  (∀ s : State, (driveReset true s).irq = false)

/-- 10_state.md R44 and R23: what every register reads after reset; the buffers hold unspecified bytes and the
engine does not exist. -/
def Obligations.ResetLeavesTheStatedValues : Prop :=
  readReg Config.here State.reset .id = 0x43545001 ∧
  (readReg Config.here State.reset .cap).toNat = Config.here.maxPixels ∧
  (∀ r : Reg, r ≠ .id → r ≠ .cap → readReg Config.here State.reset r = 0) ∧
  State.reset.busy = false ∧ State.reset.irq = false ∧ State.reset.w = 0 ∧ State.reset.engine = none ∧
  (∀ s : State, (driveReset false (driveReset true s)).engine = none) ∧
  (∀ (b : Buffer) (x : Nat), State.reset.byteAt b x = Config.unspecifiedByte State.reset.resets b x)

/-- 70_reset_and_hazards.md R195, R197: while `rst` is asserted every access to a window gets a bus error and the
engine does not move; when it is released, whatever the state was, registers and engine are as after reset and no
written byte survives. -/
def Obligations.ResetRefusesThenRestoresResetState : Prop :=
  (∀ (s : State) (win : Window) (off n : Nat) (x : Word), s.rst = true →
    hostRead win off n s = { s with response := some .busError } ∧
    hostWrite win off n x s = .next { s with response := some .busError } ∧
    Agent.engine ∉ s.enabledAgents) ∧
  (∀ s : State, (driveReset true s).rst = true ∧
    ∃ t, driveReset false (driveReset true s) = t ∧ t.rst = false ∧ t.engine = none ∧
      (∀ r : Reg, readReg Config.here t r = readReg Config.here State.reset r) ∧
      (∀ (b : Buffer) (x : Nat), t.byteAt b x = Config.unspecifiedByte t.resets b x))

/-! ## Invariants -/

/-- The invariant holds after reset (10_state.md R44). -/
def Obligations.InvariantHoldsAfterReset : Prop := Inv Config.here State.reset

/-- Every step keeps the invariant: canonical buffers inside their spaces, a legal error record, an unwrapped sum
with an average at most the maximum, and a legal engine (10_state.md R26, R27, R31, R35, R42; 44_cll.md R143;
60_exceptions.md R180). -/
def Obligations.EveryStepKeepsTheInvariant : Prop :=
  ∀ s t : State, Inv Config.here s → step s = .next t → Inv Config.here t

/-- Nothing in the block is stuck: from every state with the invariant a step answers a next state
(93_implementation_defined.md section 2; 45_frame.md R151). -/
def Obligations.NoStepStopsUnderTheInvariant : Prop :=
  ∀ s : State, Inv Config.here s → SafeStep s
end

