-- ==== Sys2Proof/Laws/Float.lean ====
section
/-! SUPPORT. The laws of binary32 rounding: magnitude patterns are ordered as the numbers they denote, and
`roundMag` returns the largest pattern whose lower rounding boundary the exact value reaches. Monotonicity of
every rounded operation on non-negative numbers follows. -/

namespace Sys2Proof.Machine

/-! ## Magnitude patterns -/

/-- A pattern split into exponent step `k` and significand `m`. -/
theorem magUnits_of_parts (k m : Nat) (h : 2 ^ 23 ≤ m ∨ k = 0) (hm : m ≤ 2 ^ 24) :
    magUnits (k * 2 ^ 23 + m) = m * 2 ^ k := by
  unfold magUnits
  by_cases hk : k = 0
  · subst hk
    by_cases hm' : m = 2 ^ 24
    · subst hm'; decide
    · rw [if_pos (by omega)]; simp
  · have hm1 : 2 ^ 23 ≤ m := h.resolve_right hk
    by_cases hm' : m = 2 ^ 24
    · subst hm'
      rw [if_neg (by omega), show k * 2 ^ 23 + 2 ^ 24 = (k + 2) * 2 ^ 23 by ring, Nat.mul_mod_left,
        Nat.mul_div_cancel _ (by norm_num), Nat.add_zero, show k + 2 - 1 = k + 1 by omega, pow_succ]
      ring
    · have e1 : (k * 2 ^ 23 + m) % 2 ^ 23 = m - 2 ^ 23 := by omega
      have e2 : (k * 2 ^ 23 + m) / 2 ^ 23 = k + 1 := by omega
      rw [if_neg (by omega), e1, e2, Nat.add_sub_cancel, Nat.add_sub_cancel' hm1]

theorem magUnits_succ_lt (c : Nat) : magUnits c < magUnits (c + 1) := by
  obtain ⟨k, m, hc, hk, hm⟩ : ∃ k m, c = k * 2 ^ 23 + m ∧ (2 ^ 23 ≤ m ∨ k = 0) ∧ m < 2 ^ 24 := by
    by_cases h : c < 2 ^ 24
    · exact ⟨0, c, by omega, .inr rfl, h⟩
    · exact ⟨c / 2 ^ 23 - 1, c % 2 ^ 23 + 2 ^ 23, by omega, .inl (by omega), by omega⟩
  subst hc
  rw [magUnits_of_parts k m hk (by omega), Nat.add_assoc, magUnits_of_parts k (m + 1) (by omega) (by omega)]
  exact Nat.mul_lt_mul_of_pos_right (by omega) (by positivity)

theorem magUnits_strictMono : StrictMono magUnits := strictMono_nat_of_lt_succ magUnits_succ_lt

theorem boundary2_strictMono {c c' : Nat} (h0 : 1 ≤ c) (h : c < c') : boundary2 c < boundary2 c' := by
  have h1 := magUnits_strictMono h
  have h2 := magUnits_strictMono.monotone (show c - 1 ≤ c' - 1 by omega)
  unfold boundary2
  omega

/-! ## Rounding a fraction to an integer -/

/-- The result of `roundEven` lies within half a unit of the fraction, and on a tie it is even. -/
theorem roundEven_spec (num den : Nat) (h : 0 < den) :
    ((2 * roundEven num den) * den ≤ 2 * num + den) ∧ (2 * num ≤ (2 * roundEven num den + 1) * den) ∧
    ((2 * roundEven num den) * den = 2 * num + den → roundEven num den % 2 = 0) ∧
    (2 * num = (2 * roundEven num den + 1) * den → roundEven num den % 2 = 0) := by
  have hd := Nat.div_add_mod num den
  have hm := Nat.mod_lt num h
  unfold roundEven
  simp only
  generalize num / den = q at *
  generalize num % den = r at *
  subst hd
  have e : den * q = q * den := Nat.mul_comm _ _
  split
  · refine ⟨?_, ?_, ?_, ?_⟩ <;> intros <;> nlinarith
  · split
    · refine ⟨?_, ?_, ?_, ?_⟩ <;> intros <;> nlinarith
    · have hr : 2 * r = den := by omega
      rcases Nat.mod_two_eq_zero_or_one q with h0 | h0 <;> rw [h0] <;>
        refine ⟨?_, ?_, ?_, ?_⟩ <;> intros <;> first | omega | nlinarith

theorem roundEven_le {num den b : Nat} (h : 0 < den) (hb : num < b * den) : roundEven num den ≤ b := by
  obtain ⟨h1, -, -, -⟩ := roundEven_spec num den h
  by_contra hc
  have : (b + 1) * den ≤ roundEven num den * den := Nat.mul_le_mul_right _ (by omega)
  nlinarith

theorem le_roundEven {num den b : Nat} (h : 0 < den) (hb : b * den ≤ num) : b ≤ roundEven num den := by
  obtain ⟨-, h2, -, -⟩ := roundEven_spec num den h
  by_contra hc
  have : (roundEven num den + 1) * den ≤ b * den := Nat.mul_le_mul_right _ (by omega)
  nlinarith

/-! ## `roundMag` -/

/-- The exponent step and the significand that `roundMag` works with. -/
theorem roundMag_parts (num den : Nat) (h : 0 < den) :
    ∃ k m, roundMag num den = min (k * 2 ^ 23 + m) 0x7F800000 ∧ m = roundEven num (den * 2 ^ k) ∧ m ≤ 2 ^ 24 ∧
      num < 2 ^ 24 * (den * 2 ^ k) ∧ (k = 0 ∨ (2 ^ 23 ≤ m ∧ 2 ^ 23 * (den * 2 ^ k) ≤ num)) := by
  have hd := Nat.div_add_mod num den
  have hm := Nat.mod_lt num h
  by_cases hq : num / den < 2 ^ 24
  · refine ⟨0, roundEven num den, ?_, by simp, ?_, ?_, .inl rfl⟩
    · have : Nat.log2 (num / den) - 23 = 0 := by
        have : Nat.log2 (num / den) < 24 := by
          by_cases h0 : num / den = 0
          · rw [h0]; decide
          · exact (Nat.log2_lt h0).2 hq
        omega
      unfold roundMag
      simp [this]
    · exact roundEven_le h (by nlinarith)
    · simp only [pow_zero, mul_one]; nlinarith
  · have h0 : num / den ≠ 0 := by omega
    have hk : 24 ≤ Nat.log2 (num / den) := (Nat.le_log2 h0).2 (by omega)
    obtain ⟨k, hk'⟩ : ∃ k, Nat.log2 (num / den) = k + 23 := ⟨Nat.log2 (num / den) - 23, by omega⟩
    have h1 : 2 ^ (k + 23) ≤ num / den := (Nat.le_log2 h0).1 (by omega)
    have h2 : num / den < 2 ^ (k + 24) := (Nat.log2_lt h0).1 (by omega)
    have hX : 0 < den * 2 ^ k := by positivity
    have hlo : 2 ^ 23 * (den * 2 ^ k) ≤ num := by
      have := Nat.mul_le_mul_left den h1
      rw [show den * 2 ^ (k + 23) = 2 ^ 23 * (den * 2 ^ k) by ring] at this
      omega
    have hhi : num < 2 ^ 24 * (den * 2 ^ k) := by
      have := Nat.mul_le_mul_left den (Nat.succ_le_of_lt h2)
      rw [show den * 2 ^ (k + 24) = 2 ^ 24 * (den * 2 ^ k) by ring, Nat.mul_succ] at this
      omega
    refine ⟨k, _, ?_, rfl, roundEven_le hX hhi, hhi, .inr ⟨le_roundEven hX hlo, hlo⟩⟩
    unfold roundMag
    simp [hk']

/-- The boundary above a significand that can still grow. -/
theorem boundary2_step (k m : Nat) (h : 2 ^ 23 ≤ m ∨ k = 0) (hm : m < 2 ^ 24) :
    boundary2 (k * 2 ^ 23 + m + 1) = (2 * m + 1) * 2 ^ k := by
  unfold boundary2
  rw [Nat.add_sub_cancel, magUnits_of_parts k m h hm.le, Nat.add_assoc,
    magUnits_of_parts k (m + 1) (h.imp (fun h => by omega) id) hm]
  ring

/-- The boundary above a full significand. -/
theorem boundary2_above_full (k : Nat) : boundary2 (k * 2 ^ 23 + 2 ^ 24 + 1) = (2 ^ 25 + 2) * 2 ^ k := by
  unfold boundary2
  rw [Nat.add_sub_cancel, magUnits_of_parts k (2 ^ 24) (by omega) (by omega),
    show k * 2 ^ 23 + 2 ^ 24 + 1 = (k + 1) * 2 ^ 23 + (2 ^ 23 + 1) by omega,
    magUnits_of_parts (k + 1) (2 ^ 23 + 1) (by omega) (by omega), pow_succ]
  ring

/-- The boundary below the first significand of an exponent step. -/
theorem boundary2_below_first (k : Nat) : boundary2 ((k + 1) * 2 ^ 23 + 2 ^ 23) = (2 ^ 25 - 1) * 2 ^ k := by
  unfold boundary2
  rw [magUnits_of_parts (k + 1) (2 ^ 23) (by omega) (by omega),
    show (k + 1) * 2 ^ 23 + 2 ^ 23 - 1 = k * 2 ^ 23 + (2 ^ 24 - 1) by omega,
    magUnits_of_parts k (2 ^ 24 - 1) (by omega) (by omega), pow_succ]
  ring

/-- The unsaturated result is at or above the boundary below it. -/
theorem boundary2_le_of_parts {k m num den : Nat} (h : 0 < den) (hm : m = roundEven num (den * 2 ^ k))
    (hm24 : m ≤ 2 ^ 24) (hlo : k = 0 ∨ (2 ^ 23 ≤ m ∧ 2 ^ 23 * (den * 2 ^ k) ≤ num)) (h1 : 1 ≤ k * 2 ^ 23 + m) :
    boundary2 (k * 2 ^ 23 + m) * den ≤ 2 * num ∧
      (boundary2 (k * 2 ^ 23 + m) * den = 2 * num → (k * 2 ^ 23 + m) % 2 = 0) := by
  have hX : 0 < den * 2 ^ k := by positivity
  obtain ⟨s1, -, s3, -⟩ := roundEven_spec num (den * 2 ^ k) hX
  rw [← hm] at s1 s3
  by_cases hmk : m = 2 ^ 23 ∧ k ≠ 0
  · obtain ⟨hm23, hk⟩ := hmk
    obtain ⟨j, rfl⟩ : ∃ j, k = j + 1 := ⟨k - 1, by omega⟩
    have hlo' := (hlo.resolve_left hk).2
    rw [show den * 2 ^ (j + 1) = 2 * (den * 2 ^ j) by ring] at hlo'
    have hp : 0 < den * 2 ^ j := by positivity
    have e : boundary2 ((j + 1) * 2 ^ 23 + m) * den = (2 ^ 25 - 1) * (den * 2 ^ j) := by
      rw [hm23, boundary2_below_first]; ring
    have hlt : (2 ^ 25 - 1) * (den * 2 ^ j) < 2 * num := by omega
    rw [e]
    exact ⟨hlt.le, fun he => absurd he hlt.ne⟩
  · obtain ⟨j, hj⟩ : ∃ j, m = j + 1 := ⟨m - 1, by omega⟩
    have e : boundary2 (k * 2 ^ 23 + m) * den = (2 * j + 1) * (den * 2 ^ k) := by
      rw [hj, ← Nat.add_assoc, boundary2_step k j (by omega) (by omega)]; ring
    have e2 : 2 * m * (den * 2 ^ k) = (2 * j + 1) * (den * 2 ^ k) + den * 2 ^ k := by rw [hj]; ring
    rw [e]
    rw [e2] at s1 s3
    refine ⟨by omega, fun he => ?_⟩
    have := s3 (by omega)
    omega

/-- The unsaturated result is at or below the boundary above it. -/
theorem le_boundary2_of_parts {k m num den : Nat} (h : 0 < den) (hm : m = roundEven num (den * 2 ^ k))
    (hm24 : m ≤ 2 ^ 24) (hhi : num < 2 ^ 24 * (den * 2 ^ k)) (hpart : 2 ^ 23 ≤ m ∨ k = 0) :
    2 * num ≤ boundary2 (k * 2 ^ 23 + m + 1) * den ∧
      (2 * num = boundary2 (k * 2 ^ 23 + m + 1) * den → (k * 2 ^ 23 + m) % 2 = 0) := by
  have hX : 0 < den * 2 ^ k := by positivity
  obtain ⟨-, s2, -, s4⟩ := roundEven_spec num (den * 2 ^ k) hX
  rw [← hm] at s2 s4
  by_cases hmk : m = 2 ^ 24
  · have e : boundary2 (k * 2 ^ 23 + m + 1) * den = (2 ^ 25 + 2) * (den * 2 ^ k) := by
      rw [hmk, boundary2_above_full]; ring
    have hlt : 2 * num < (2 ^ 25 + 2) * (den * 2 ^ k) := by omega
    rw [e]
    exact ⟨hlt.le, fun he => absurd he hlt.ne⟩
  · have e : boundary2 (k * 2 ^ 23 + m + 1) * den = (2 * m + 1) * (den * 2 ^ k) := by
      rw [boundary2_step k m hpart (by omega)]; ring
    rw [e]
    refine ⟨s2, fun he => ?_⟩
    have := s4 he
    omega

/-- `roundMag` lies between the rounding boundaries below and above it, and is even on either. -/
theorem roundMag_spec (num den : Nat) (h : 0 < den) :
    roundMag num den ≤ 0x7F800000 ∧
    (1 ≤ roundMag num den → boundary2 (roundMag num den) * den ≤ 2 * num ∧
      (boundary2 (roundMag num den) * den = 2 * num → roundMag num den % 2 = 0)) ∧
    (roundMag num den < 0x7F800000 → 2 * num ≤ boundary2 (roundMag num den + 1) * den ∧
      (2 * num = boundary2 (roundMag num den + 1) * den → roundMag num den % 2 = 0)) := by
  obtain ⟨k, m, hr, hm, hm24, hhi, hlo⟩ := roundMag_parts num den h
  have lower := boundary2_le_of_parts h hm hm24 hlo
  have upper := le_boundary2_of_parts h hm hm24 hhi (by tauto)
  rcases Nat.lt_or_ge 0x7F800000 (k * 2 ^ 23 + m) with hinf | hfin
  · rw [hr, min_eq_right hinf.le]
    refine ⟨le_refl _, fun _ => ?_, fun hc => absurd hc (lt_irrefl _)⟩
    have hb := Nat.mul_lt_mul_of_pos_right (boundary2_strictMono (by norm_num) hinf) h
    have := (lower (by omega)).1
    exact ⟨by omega, fun he => by omega⟩
  · rw [hr, min_eq_left hfin]
    exact ⟨hfin, lower, fun _ => upper⟩

/-- What `roundMag` is, said once: a pattern `c` of at most infinity is reached exactly when the exact value lies
above the boundary below `c`, or on it with `c` even. -/
theorem le_roundMag_iff {num den c : Nat} (h : 0 < den) (h1 : 1 ≤ c) (hc : c ≤ 0x7F800000) :
    c ≤ roundMag num den ↔ boundary2 c * den < 2 * num ∨ (boundary2 c * den = 2 * num ∧ c % 2 = 0) := by
  obtain ⟨-, lo, hi⟩ := roundMag_spec num den h
  constructor
  · intro hcr
    obtain ⟨l1, l2⟩ := lo (by omega)
    rcases Nat.lt_or_eq_of_le hcr with hlt | rfl
    · exact .inl (lt_of_lt_of_le (Nat.mul_lt_mul_of_pos_right (boundary2_strictMono h1 hlt) h) l1)
    · rcases Nat.lt_or_eq_of_le l1 with hl | he
      · exact .inl hl
      · exact .inr ⟨he, l2 he⟩
  · intro hb
    by_contra hlt
    obtain ⟨u1, u2⟩ := hi (by omega)
    rcases Nat.lt_or_eq_of_le (show roundMag num den + 1 ≤ c by omega) with hl | rfl
    · have := Nat.mul_lt_mul_of_pos_right (boundary2_strictMono (by omega) hl) h
      omega
    · rcases hb with hb | ⟨hb, hev⟩
      · omega
      · have := u2 hb.symm
        omega

/-- Rounding is monotone in the exact value. -/
theorem roundMag_mono {num den num' den' : Nat} (h : 0 < den) (h' : 0 < den') (hx : num * den' ≤ num' * den) :
    roundMag num den ≤ roundMag num' den' := by
  by_cases h1 : 1 ≤ roundMag num den
  · rw [le_roundMag_iff h' h1 (roundMag_spec num den h).1]
    have hb := (le_roundMag_iff h h1 (roundMag_spec num den h).1).1 le_rfl
    rcases hb with hb | ⟨hb, hev⟩
    · left
      have a := Nat.mul_lt_mul_of_pos_right hb h'
      by_contra hc
      have b := Nat.mul_le_mul_right den (Nat.le_of_not_lt hc)
      nlinarith
    · rcases Nat.lt_trichotomy (boundary2 (roundMag num den) * den') (2 * num') with hl | he | hg
      · exact .inl hl
      · exact .inr ⟨he, hev⟩
      · have b := Nat.mul_lt_mul_of_pos_right hg h
        nlinarith
  · omega

/-- A magnitude pattern is its own rounding. -/
theorem roundMag_magUnits {c den : Nat} (h : 0 < den) (hc : c ≤ 0x7F800000) : roundMag (magUnits c * den) den = c := by
  apply Nat.le_antisymm
  · by_contra hgt
    have hgt' : c + 1 ≤ roundMag (magUnits c * den) den := by omega
    obtain ⟨hr, -, -⟩ := roundMag_spec (magUnits c * den) den h
    have hb := (le_roundMag_iff h (by omega) (le_trans hgt' hr)).1 hgt'
    have hs := Nat.mul_lt_mul_of_pos_right (magUnits_succ_lt c) h
    simp only [boundary2, Nat.add_sub_cancel, Nat.add_mul] at hb
    omega
  · rcases Nat.eq_zero_or_pos c with rfl | hpos
    · exact Nat.zero_le _
    · rw [le_roundMag_iff h hpos hc]
      left
      have hs := magUnits_succ_lt (c - 1)
      rw [Nat.sub_add_cancel hpos] at hs
      have := Nat.mul_lt_mul_of_pos_right hs h
      simp only [boundary2, Nat.add_mul]
      omega

end Sys2Proof.Machine
end

