-- ==== Sys2Proof/Laws/Arith.lean ====
section
/-! SUPPORT. Non-negative patterns under the rounded operations, the comparison, the clamp and the rounding to an
integer: what each is on patterns up to `fInf`, and that each is monotone there. -/

namespace Sys2Proof.Machine

/-! ## Unpacking -/

theorem fUnpack_of_lt {w : Word} (h : w.toNat < 0x7F800000) : fUnpack w = .fin false (magUnits w.toNat) := by
  have hs : fSign w = false := by
    unfold fSign
    simp only [beq_eq_false_iff_ne]
    omega
  unfold fUnpack magUnits fExp fFrac
  rw [hs]
  by_cases h24 : w.toNat < 2 ^ 24
  · rw [if_pos h24, if_neg (by omega)]
    by_cases h23 : w.toNat < 2 ^ 23
    · rw [if_pos (by omega), Nat.mod_eq_of_lt h23]
    · have e : 2 ^ 23 + w.toNat % 2 ^ 23 = w.toNat := by omega
      rw [if_neg (by omega), show w.toNat / 2 ^ 23 % 2 ^ 8 - 1 = 0 by omega, pow_zero, Nat.mul_one, e]
  · rw [if_neg h24, if_neg (by omega), if_neg (by omega),
      show w.toNat / 2 ^ 23 % 2 ^ 8 = w.toNat / 2 ^ 23 by omega]

theorem fUnpack_fInf : fUnpack fInf = .inf false := by decide

theorem fUnpack_fZero : fUnpack fZero = .fin false 0 := by decide

theorem fInf_toNat : fInf.toNat = 0x7F800000 := by decide

theorem kONE_toNat : kONE.toNat = 0x3F800000 := by decide

theorem fKey_kONE : fKey kONE = 0x3F800000 := by decide

/-- A pattern with no sign bit is finite, infinite or a NaN by its number alone. -/
theorem le_fInf_cases {w : Word} (h : w ≤ fInf) : w.toNat < 0x7F800000 ∨ w = fInf := by
  rw [← fInf_toNat]
  rcases Nat.lt_or_eq_of_le (BitVec.le_def.1 h) with h | h
  · exact .inl h
  · exact .inr (BitVec.eq_of_toNat_eq h)

/-- A rounded non-negative value, as a number. -/
theorem fRound_toNat (num den : Nat) (h : 0 < den) : (fRound false num den).toNat = roundMag num den := by
  have := (roundMag_spec num den h).1
  unfold fRound fPack
  rw [BitVec.toNat_ofNat, if_neg (by decide), Nat.add_zero]
  exact Nat.mod_eq_of_lt (Nat.lt_of_le_of_lt this (by norm_num))

theorem fRound_le_fInf (num den : Nat) (h : 0 < den) : fRound false num den ≤ fInf := by
  rw [BitVec.le_def, fRound_toNat num den h, fInf_toNat]
  exact (roundMag_spec num den h).1

/-! ## Products and sums of non-negative values -/

theorem fmul_of_lt {a b : Word} (ha : a.toNat < 0x7F800000) (hb : b.toNat < 0x7F800000) :
    fmul a b = fRound false (magUnits a.toNat * magUnits b.toNat) (2 ^ 149) := by
  simp [fmul, fUnpack_of_lt ha, fUnpack_of_lt hb]

theorem fadd_of_lt {a b : Word} (ha : a.toNat < 0x7F800000) (hb : b.toNat < 0x7F800000) :
    fadd a b = fRound false (magUnits a.toNat + magUnits b.toNat) 1 := by
  simp [fadd, fUnpack_of_lt ha, fUnpack_of_lt hb]

theorem magUnits_pos {c : Nat} (h : 0 < c) : 0 < magUnits c :=
  lt_of_le_of_lt (Nat.zero_le _) (magUnits_strictMono h)

theorem fmul_fInf_right {a : Word} (h0 : 0 < a.toNat) (h : a ≤ fInf) : fmul a fInf = fInf := by
  rcases le_fInf_cases h with h | rfl
  · have := magUnits_pos h0
    simp [fmul, fUnpack_of_lt h, fUnpack_fInf, Nat.ne_of_gt this]
    decide
  · decide

theorem fadd_fInf_right {a : Word} (h : a ≤ fInf) : fadd a fInf = fInf := by
  rcases le_fInf_cases h with h | rfl
  · simp [fadd, fUnpack_of_lt h, fUnpack_fInf]
    decide
  · decide

theorem fadd_fInf_left {a : Word} (h : a ≤ fInf) : fadd fInf a = fInf := by
  rcases le_fInf_cases h with h | rfl
  · simp [fadd, fUnpack_of_lt h, fUnpack_fInf]
    decide
  · decide

/-- A positive finite coefficient keeps non-negative values non-negative, never NaN (41_gamut.md R104). -/
theorem fmul_le_fInf {a b : Word} (h0 : 0 < a.toNat) (ha : a.toNat < 0x7F800000) (hb : b ≤ fInf) :
    fmul a b ≤ fInf := by
  rcases le_fInf_cases hb with hb | rfl
  · rw [fmul_of_lt ha hb]; exact fRound_le_fInf _ _ (by positivity)
  · rw [fmul_fInf_right h0 (BitVec.le_def.2 ha.le)]; exact BitVec.le_refl _

theorem fadd_le_fInf {a b : Word} (ha : a ≤ fInf) (hb : b ≤ fInf) : fadd a b ≤ fInf := by
  rcases le_fInf_cases ha with ha' | rfl
  · rcases le_fInf_cases hb with hb' | rfl
    · rw [fadd_of_lt ha' hb']; exact fRound_le_fInf _ _ (by positivity)
    · rw [fadd_fInf_right ha]; exact BitVec.le_refl _
  · rw [fadd_fInf_left hb]; exact BitVec.le_refl _

/-- Multiplication by a positive finite coefficient is monotone on non-negative values. -/
theorem fmul_mono {a b b' : Word} (h0 : 0 < a.toNat) (ha : a.toNat < 0x7F800000) (h : b ≤ b') (hb : b' ≤ fInf) :
    fmul a b ≤ fmul a b' := by
  rcases le_fInf_cases hb with hb' | rfl
  · have hbn : b.toNat < 0x7F800000 := lt_of_le_of_lt (BitVec.le_def.1 h) hb'
    rw [fmul_of_lt ha hbn, fmul_of_lt ha hb', BitVec.le_def, fRound_toNat _ _ (by positivity),
      fRound_toNat _ _ (by positivity)]
    refine roundMag_mono (by positivity) (by positivity) (Nat.mul_le_mul_right _ (Nat.mul_le_mul_left _ ?_))
    exact magUnits_strictMono.monotone (BitVec.le_def.1 h)
  · rw [fmul_fInf_right h0 (BitVec.le_def.2 ha.le)]
    exact fmul_le_fInf h0 ha h

/-- Addition is monotone on non-negative values. -/
theorem fadd_mono {a a' b b' : Word} (h : a ≤ a') (ha : a' ≤ fInf) (k : b ≤ b') (hb : b' ≤ fInf) :
    fadd a b ≤ fadd a' b' := by
  have hal : a ≤ fInf := BitVec.le_trans h ha
  have hbl : b ≤ fInf := BitVec.le_trans k hb
  rcases le_fInf_cases ha with ha' | rfl
  · rcases le_fInf_cases hb with hb' | rfl
    · rw [fadd_of_lt (lt_of_le_of_lt (BitVec.le_def.1 h) ha') (lt_of_le_of_lt (BitVec.le_def.1 k) hb'),
        fadd_of_lt ha' hb', BitVec.le_def, fRound_toNat _ _ (by positivity), fRound_toNat _ _ (by positivity)]
      refine roundMag_mono (by positivity) (by positivity) (Nat.mul_le_mul_right _ (Nat.add_le_add ?_ ?_))
      · exact magUnits_strictMono.monotone (BitVec.le_def.1 h)
      · exact magUnits_strictMono.monotone (BitVec.le_def.1 k)
    · rw [fadd_fInf_right ha]; exact fadd_le_fInf hal hbl
  · rw [fadd_fInf_left hb]; exact fadd_le_fInf hal hbl

/-! ## Comparison and clamp -/

theorem isNaN_of_le {w : Word} (h : w ≤ fInf) : isNaN w = false := by
  rcases le_fInf_cases h with h | rfl
  · have : fExp w ≠ 255 := by unfold fExp; omega
    simp [isNaN, this]
  · decide

theorem fKey_of_le {w : Word} (h : w ≤ fInf) : fKey w = w.toNat := by
  have h : w.toNat ≤ 0x7F800000 := fInf_toNat ▸ BitVec.le_def.1 h
  have hs : fSign w = false := by
    unfold fSign
    simp only [beq_eq_false_iff_ne]
    omega
  simp only [fKey, hs, fMag]
  simp
  omega

/-- A pattern whose value is above zero is a positive number or `+infinity`. -/
theorem le_fInf_of_pos {w : Word} (hn : isNaN w = false) (h : 0 < fKey w) : w ≤ fInf ∧ 0 < w.toNat := by
  have hs : fSign w = false := by
    by_contra hs
    have : fSign w = true := by simpa using hs
    simp only [fKey, this, if_true] at h
    omega
  have hlt : w.toNat < 2 ^ 31 := by
    have := w.isLt
    unfold fSign at hs
    simp only [beq_eq_false_iff_ne] at hs
    omega
  have hk : fKey w = (w.toNat : Int) := by
    simp only [fKey, hs, fMag]
    simp
    omega
  refine ⟨BitVec.le_def.2 ?_, by omega⟩
  rw [fInf_toNat]
  by_contra hgt
  have e1 : fExp w = 255 := by unfold fExp; omega
  have e2 : fFrac w ≠ 0 := by unfold fFrac; omega
  simp [isNaN, e1, e2] at hn

/-- `v > 0` as a condition on the value. -/
theorem fgt_zero_iff {v : Word} : fgt v fZero = true ↔ isNaN v = false ∧ 0 < fKey v := by
  have h1 : isNaN fZero = false := by decide
  have h2 : fKey fZero = 0 := by decide
  simp [fgt, flt, h1, h2]

theorem fgt_zero_of_le {v : Word} (h : v ≤ fInf) : fgt v fZero = true ↔ 0 < v.toNat := by
  rw [fgt_zero_iff, isNaN_of_le h, fKey_of_le h]
  simp

/-- The clamp sends a NaN and every value not above zero to `+0`. -/
theorem clamp01_of_not_pos {v : Word} (h : isNaN v = true ∨ fKey v ≤ 0) : clamp01 v = fZero := by
  refine if_neg fun hc => ?_
  obtain ⟨h1, h2⟩ := fgt_zero_iff.1 hc
  rcases h with h | h
  · rw [h] at h1; cases h1
  · omega

/-- The clamp of a non-negative pattern is the smaller of it and 1.0. -/
theorem clamp01_of_le {v : Word} (h : v ≤ fInf) : clamp01 v = if v < kONE then v else kONE := by
  have hk : isNaN kONE = false := by decide
  unfold clamp01
  by_cases h0 : 0 < v.toNat
  · rw [if_pos ((fgt_zero_of_le h).2 h0)]
    congr 1
    simp only [flt, isNaN_of_le h, hk, fKey_kONE, fKey_of_le h, BitVec.lt_def, kONE_toNat]
    simp
  · have hv : v = fZero := BitVec.eq_of_toNat_eq (show v.toNat = 0 by omega)
    subst hv
    decide

/-- The clamp's range. -/
theorem clamp01_le (v : Word) : clamp01 v ≤ kONE := by
  by_cases h : isNaN v = true ∨ fKey v ≤ 0
  · rw [clamp01_of_not_pos h]; decide
  · have h1 : isNaN v = false := by simpa using fun hc => h (.inl hc)
    rw [clamp01_of_le (le_fInf_of_pos h1 (by omega)).1]
    by_cases hlt : v < kONE
    · rw [if_pos hlt]; exact BitVec.le_of_lt hlt
    · rw [if_neg hlt]; exact BitVec.le_refl _

theorem clamp01_le_fInf (v : Word) : clamp01 v ≤ fInf := BitVec.le_trans (clamp01_le v) (by decide)

/-- On patterns up to 1.0 the clamp is the identity. -/
theorem clamp01_of_le_one {v : Word} (h : v ≤ kONE) : clamp01 v = v := by
  rw [clamp01_of_le (BitVec.le_trans h (by decide))]
  by_cases hlt : v < kONE
  · rw [if_pos hlt]
  · rw [if_neg hlt]
    exact BitVec.eq_of_toNat_eq (Nat.le_antisymm (Nat.le_of_not_lt fun hc => hlt (BitVec.lt_def.2 hc))
      (BitVec.le_def.1 h))

@[simp] theorem clamp01_clamp01 (v : Word) : clamp01 (clamp01 v) = clamp01 v := clamp01_of_le_one (clamp01_le v)

/-- The clamp of a value at or above 1. -/
theorem clamp01_of_ge {v : Word} (hn : isNaN v = false) (h : fKey kONE ≤ fKey v) : clamp01 v = kONE := by
  rw [fKey_kONE] at h
  have hle := (le_fInf_of_pos hn (by omega)).1
  rw [fKey_of_le hle] at h
  rw [clamp01_of_le hle, if_neg]
  rw [BitVec.lt_def, kONE_toNat]
  omega

/-- The clamp is monotone on non-negative patterns. -/
theorem clamp01_mono {v v' : Word} (h : v ≤ v') (hv : v' ≤ fInf) : clamp01 v ≤ clamp01 v' := by
  rw [clamp01_of_le (BitVec.le_trans h hv), clamp01_of_le hv]
  simp only [BitVec.lt_def, BitVec.le_def] at *
  split <;> split <;> omega

/-! ## Rounding to an integer -/

theorem rhaz_of_lt {p : Word} (h : p.toNat < 0x7F800000) :
    rhaz p = (2 * magUnits p.toNat + 2 ^ 149) / 2 ^ 150 := by
  unfold rhaz
  rw [fUnpack_of_lt h]
  simp only
  generalize magUnits p.toNat = m
  split <;> omega

theorem rhaz_mono {p p' : Word} (h : p ≤ p') (hp : p'.toNat < 0x7F800000) : rhaz p ≤ rhaz p' := by
  rw [rhaz_of_lt hp, rhaz_of_lt (lt_of_le_of_lt (BitVec.le_def.1 h) hp)]
  have := magUnits_strictMono.monotone (BitVec.le_def.1 h)
  omega

/-! ## Products with a clamped lane -/

/-- A clamped lane times a range constant is finite, and rounds to at most the range's maximum
(42_quantize_pack.md R112). -/
theorem fmul_clamp01_scale_le (v : Word) (d : Depth) : fmul (clamp01 v) d.scale ≤ d.scale := by
  have h1 : fmul d.scale (clamp01 v) ≤ fmul d.scale kONE :=
    fmul_mono (by cases d <;> decide) (by cases d <;> decide) (clamp01_le v) (by decide)
  have h2 : fmul d.scale kONE = d.scale := by cases d <;> decide +kernel
  have h3 : fmul (clamp01 v) d.scale = fmul d.scale (clamp01 v) := by
    have ha : (clamp01 v).toNat < 0x7F800000 :=
      lt_of_le_of_lt (BitVec.le_def.1 (clamp01_le v)) (by decide)
    have hb : d.scale.toNat < 0x7F800000 := by cases d <;> decide
    rw [fmul_of_lt ha hb, fmul_of_lt hb ha, Nat.mul_comm]
  rw [h3]
  exact BitVec.le_trans h1 (by rw [h2]; exact BitVec.le_refl _)

end Sys2Proof.Machine
end

