-- ==== Sys2Proof/Laws/State.lean ====
section
/-! SUPPORT. For each named update of the state, one lemma per field: what the field is after the update.
True by `rfl`, for `simp`; no later proof unfolds an update. -/

namespace Sys2Proof.Machine

/-! ## `State.respond` -/

@[simp] theorem State.respond_done (s : State) (r : Response) : (s.respond r).done = s.done := rfl
@[simp] theorem State.respond_err (s : State) (r : Response) : (s.respond r).err = s.err := rfl
@[simp] theorem State.respond_nonfin (s : State) (r : Response) : (s.respond r).nonfin = s.nonfin := rfl
@[simp] theorem State.respond_errcode (s : State) (r : Response) : (s.respond r).errcode = s.errcode := rfl
@[simp] theorem State.respond_errinfo (s : State) (r : Response) : (s.respond r).errinfo = s.errinfo := rfl
@[simp] theorem State.respond_irqEn (s : State) (r : Response) : (s.respond r).irqEn = s.irqEn := rfl
@[simp] theorem State.respond_width (s : State) (r : Response) : (s.respond r).width = s.width := rfl
@[simp] theorem State.respond_height (s : State) (r : Response) : (s.respond r).height = s.height := rfl
@[simp] theorem State.respond_inCount (s : State) (r : Response) : (s.respond r).inCount = s.inCount := rfl
@[simp] theorem State.respond_pixdone (s : State) (r : Response) : (s.respond r).pixdone = s.pixdone := rfl
@[simp] theorem State.respond_idx (s : State) (r : Response) : (s.respond r).idx = s.idx := rfl
@[simp] theorem State.respond_maxcll (s : State) (r : Response) : (s.respond r).maxcll = s.maxcll := rfl
@[simp] theorem State.respond_maxpall (s : State) (r : Response) : (s.respond r).maxpall = s.maxpall := rfl
@[simp] theorem State.respond_cllMax (s : State) (r : Response) : (s.respond r).cllMax = s.cllMax := rfl
@[simp] theorem State.respond_cllCnt (s : State) (r : Response) : (s.respond r).cllCnt = s.cllCnt := rfl
@[simp] theorem State.respond_cllSum (s : State) (r : Response) : (s.respond r).cllSum = s.cllSum := rfl
@[simp] theorem State.respond_v (s : State) (r : Response) : (s.respond r).v = s.v := rfl
@[simp] theorem State.respond_q (s : State) (r : Response) : (s.respond r).q = s.q := rfl
@[simp] theorem State.respond_y (s : State) (r : Response) : (s.respond r).y = s.y := rfl
@[simp] theorem State.respond_w (s : State) (r : Response) : (s.respond r).w = s.w := rfl
@[simp] theorem State.respond_inBuf (s : State) (r : Response) : (s.respond r).inBuf = s.inBuf := rfl
@[simp] theorem State.respond_sdrBuf (s : State) (r : Response) : (s.respond r).sdrBuf = s.sdrBuf := rfl
@[simp] theorem State.respond_hdrBuf (s : State) (r : Response) : (s.respond r).hdrBuf = s.hdrBuf := rfl
@[simp] theorem State.respond_engine (s : State) (r : Response) : (s.respond r).engine = s.engine := rfl
@[simp] theorem State.respond_rst (s : State) (r : Response) : (s.respond r).rst = s.rst := rfl
@[simp] theorem State.respond_resets (s : State) (r : Response) : (s.respond r).resets = s.resets := rfl
@[simp] theorem State.respond_choice (s : State) (r : Response) : (s.respond r).choice = s.choice := rfl
@[simp] theorem State.respond_host (s : State) (r : Response) : (s.respond r).host = s.host := rfl
@[simp] theorem State.respond_rstInput (s : State) (r : Response) : (s.respond r).rstInput = s.rstInput := rfl
@[simp] theorem State.respond_response (s : State) (r : Response) : (s.respond r).response = some r := rfl

/-! ## `State.tick` -/

@[simp] theorem State.tick_done (s : State) : s.tick.done = s.done := rfl
@[simp] theorem State.tick_err (s : State) : s.tick.err = s.err := rfl
@[simp] theorem State.tick_nonfin (s : State) : s.tick.nonfin = s.nonfin := rfl
@[simp] theorem State.tick_errcode (s : State) : s.tick.errcode = s.errcode := rfl
@[simp] theorem State.tick_errinfo (s : State) : s.tick.errinfo = s.errinfo := rfl
@[simp] theorem State.tick_irqEn (s : State) : s.tick.irqEn = s.irqEn := rfl
@[simp] theorem State.tick_width (s : State) : s.tick.width = s.width := rfl
@[simp] theorem State.tick_height (s : State) : s.tick.height = s.height := rfl
@[simp] theorem State.tick_inCount (s : State) : s.tick.inCount = s.inCount := rfl
@[simp] theorem State.tick_pixdone (s : State) : s.tick.pixdone = s.pixdone := rfl
@[simp] theorem State.tick_idx (s : State) : s.tick.idx = s.idx := rfl
@[simp] theorem State.tick_maxcll (s : State) : s.tick.maxcll = s.maxcll := rfl
@[simp] theorem State.tick_maxpall (s : State) : s.tick.maxpall = s.maxpall := rfl
@[simp] theorem State.tick_cllMax (s : State) : s.tick.cllMax = s.cllMax := rfl
@[simp] theorem State.tick_cllCnt (s : State) : s.tick.cllCnt = s.cllCnt := rfl
@[simp] theorem State.tick_cllSum (s : State) : s.tick.cllSum = s.cllSum := rfl
@[simp] theorem State.tick_v (s : State) : s.tick.v = s.v := rfl
@[simp] theorem State.tick_q (s : State) : s.tick.q = s.q := rfl
@[simp] theorem State.tick_y (s : State) : s.tick.y = s.y := rfl
@[simp] theorem State.tick_w (s : State) : s.tick.w = s.w := rfl
@[simp] theorem State.tick_inBuf (s : State) : s.tick.inBuf = s.inBuf := rfl
@[simp] theorem State.tick_sdrBuf (s : State) : s.tick.sdrBuf = s.sdrBuf := rfl
@[simp] theorem State.tick_hdrBuf (s : State) : s.tick.hdrBuf = s.hdrBuf := rfl
@[simp] theorem State.tick_engine (s : State) : s.tick.engine = s.engine := rfl
@[simp] theorem State.tick_rst (s : State) : s.tick.rst = s.rst := rfl
@[simp] theorem State.tick_resets (s : State) : s.tick.resets = s.resets := rfl
@[simp] theorem State.tick_choice (s : State) : s.tick.choice = s.choice + 1 := rfl
@[simp] theorem State.tick_host (s : State) : s.tick.host = s.host := rfl
@[simp] theorem State.tick_rstInput (s : State) : s.tick.rstInput = s.rstInput := rfl
@[simp] theorem State.tick_response (s : State) : s.tick.response = s.response := rfl

/-! ## `State.raise` -/

@[simp] theorem State.raise_done (s : State) (e : Cause) (x : Word) : (s.raise e x).done = s.done := rfl
@[simp] theorem State.raise_err (s : State) (e : Cause) (x : Word) : (s.raise e x).err = true := rfl
@[simp] theorem State.raise_nonfin (s : State) (e : Cause) (x : Word) : (s.raise e x).nonfin = s.nonfin := rfl
@[simp] theorem State.raise_errcode (s : State) (e : Cause) (x : Word) : (s.raise e x).errcode = e.code := rfl
@[simp] theorem State.raise_errinfo (s : State) (e : Cause) (x : Word) : (s.raise e x).errinfo = x := rfl
@[simp] theorem State.raise_irqEn (s : State) (e : Cause) (x : Word) : (s.raise e x).irqEn = s.irqEn := rfl
@[simp] theorem State.raise_width (s : State) (e : Cause) (x : Word) : (s.raise e x).width = s.width := rfl
@[simp] theorem State.raise_height (s : State) (e : Cause) (x : Word) : (s.raise e x).height = s.height := rfl
@[simp] theorem State.raise_inCount (s : State) (e : Cause) (x : Word) : (s.raise e x).inCount = s.inCount := rfl
@[simp] theorem State.raise_pixdone (s : State) (e : Cause) (x : Word) : (s.raise e x).pixdone = s.pixdone := rfl
@[simp] theorem State.raise_idx (s : State) (e : Cause) (x : Word) : (s.raise e x).idx = s.idx := rfl
@[simp] theorem State.raise_maxcll (s : State) (e : Cause) (x : Word) : (s.raise e x).maxcll = s.maxcll := rfl
@[simp] theorem State.raise_maxpall (s : State) (e : Cause) (x : Word) : (s.raise e x).maxpall = s.maxpall := rfl
@[simp] theorem State.raise_cllMax (s : State) (e : Cause) (x : Word) : (s.raise e x).cllMax = s.cllMax := rfl
@[simp] theorem State.raise_cllCnt (s : State) (e : Cause) (x : Word) : (s.raise e x).cllCnt = s.cllCnt := rfl
@[simp] theorem State.raise_cllSum (s : State) (e : Cause) (x : Word) : (s.raise e x).cllSum = s.cllSum := rfl
@[simp] theorem State.raise_v (s : State) (e : Cause) (x : Word) : (s.raise e x).v = s.v := rfl
@[simp] theorem State.raise_q (s : State) (e : Cause) (x : Word) : (s.raise e x).q = s.q := rfl
@[simp] theorem State.raise_y (s : State) (e : Cause) (x : Word) : (s.raise e x).y = s.y := rfl
@[simp] theorem State.raise_w (s : State) (e : Cause) (x : Word) : (s.raise e x).w = s.w := rfl
@[simp] theorem State.raise_inBuf (s : State) (e : Cause) (x : Word) : (s.raise e x).inBuf = s.inBuf := rfl
@[simp] theorem State.raise_sdrBuf (s : State) (e : Cause) (x : Word) : (s.raise e x).sdrBuf = s.sdrBuf := rfl
@[simp] theorem State.raise_hdrBuf (s : State) (e : Cause) (x : Word) : (s.raise e x).hdrBuf = s.hdrBuf := rfl
@[simp] theorem State.raise_engine (s : State) (e : Cause) (x : Word) : (s.raise e x).engine = s.engine := rfl
@[simp] theorem State.raise_rst (s : State) (e : Cause) (x : Word) : (s.raise e x).rst = s.rst := rfl
@[simp] theorem State.raise_resets (s : State) (e : Cause) (x : Word) : (s.raise e x).resets = s.resets := rfl
@[simp] theorem State.raise_choice (s : State) (e : Cause) (x : Word) : (s.raise e x).choice = s.choice := rfl
@[simp] theorem State.raise_host (s : State) (e : Cause) (x : Word) : (s.raise e x).host = s.host := rfl
@[simp] theorem State.raise_rstInput (s : State) (e : Cause) (x : Word) : (s.raise e x).rstInput = s.rstInput := rfl
@[simp] theorem State.raise_response (s : State) (e : Cause) (x : Word) : (s.raise e x).response = s.response := rfl

/-! ## `State.clearStatus` -/

@[simp] theorem State.clearStatus_done (s : State) : s.clearStatus.done = false := rfl
@[simp] theorem State.clearStatus_err (s : State) : s.clearStatus.err = false := rfl
@[simp] theorem State.clearStatus_nonfin (s : State) : s.clearStatus.nonfin = false := rfl
@[simp] theorem State.clearStatus_errcode (s : State) : s.clearStatus.errcode = 0 := rfl
@[simp] theorem State.clearStatus_errinfo (s : State) : s.clearStatus.errinfo = 0 := rfl
@[simp] theorem State.clearStatus_irqEn (s : State) : s.clearStatus.irqEn = s.irqEn := rfl
@[simp] theorem State.clearStatus_width (s : State) : s.clearStatus.width = s.width := rfl
@[simp] theorem State.clearStatus_height (s : State) : s.clearStatus.height = s.height := rfl
@[simp] theorem State.clearStatus_inCount (s : State) : s.clearStatus.inCount = s.inCount := rfl
@[simp] theorem State.clearStatus_pixdone (s : State) : s.clearStatus.pixdone = s.pixdone := rfl
@[simp] theorem State.clearStatus_idx (s : State) : s.clearStatus.idx = s.idx := rfl
@[simp] theorem State.clearStatus_maxcll (s : State) : s.clearStatus.maxcll = s.maxcll := rfl
@[simp] theorem State.clearStatus_maxpall (s : State) : s.clearStatus.maxpall = s.maxpall := rfl
@[simp] theorem State.clearStatus_cllMax (s : State) : s.clearStatus.cllMax = s.cllMax := rfl
@[simp] theorem State.clearStatus_cllCnt (s : State) : s.clearStatus.cllCnt = s.cllCnt := rfl
@[simp] theorem State.clearStatus_cllSum (s : State) : s.clearStatus.cllSum = s.cllSum := rfl
@[simp] theorem State.clearStatus_v (s : State) : s.clearStatus.v = s.v := rfl
@[simp] theorem State.clearStatus_q (s : State) : s.clearStatus.q = s.q := rfl
@[simp] theorem State.clearStatus_y (s : State) : s.clearStatus.y = s.y := rfl
@[simp] theorem State.clearStatus_w (s : State) : s.clearStatus.w = s.w := rfl
@[simp] theorem State.clearStatus_inBuf (s : State) : s.clearStatus.inBuf = s.inBuf := rfl
@[simp] theorem State.clearStatus_sdrBuf (s : State) : s.clearStatus.sdrBuf = s.sdrBuf := rfl
@[simp] theorem State.clearStatus_hdrBuf (s : State) : s.clearStatus.hdrBuf = s.hdrBuf := rfl
@[simp] theorem State.clearStatus_engine (s : State) : s.clearStatus.engine = s.engine := rfl
@[simp] theorem State.clearStatus_rst (s : State) : s.clearStatus.rst = s.rst := rfl
@[simp] theorem State.clearStatus_resets (s : State) : s.clearStatus.resets = s.resets := rfl
@[simp] theorem State.clearStatus_choice (s : State) : s.clearStatus.choice = s.choice := rfl
@[simp] theorem State.clearStatus_host (s : State) : s.clearStatus.host = s.host := rfl
@[simp] theorem State.clearStatus_rstInput (s : State) : s.clearStatus.rstInput = s.rstInput := rfl
@[simp] theorem State.clearStatus_response (s : State) : s.clearStatus.response = s.response := rfl

/-! ## `State.noteSample` -/

@[simp] theorem State.noteSample_done (s : State) (p : Lanes Word) : (s.noteSample p).done = s.done := rfl
@[simp] theorem State.noteSample_err (s : State) (p : Lanes Word) : (s.noteSample p).err = s.err := rfl
@[simp] theorem State.noteSample_nonfin (s : State) (p : Lanes Word) : (s.noteSample p).nonfin = (s.nonfin || sampleNonfinite p) := rfl
@[simp] theorem State.noteSample_errcode (s : State) (p : Lanes Word) : (s.noteSample p).errcode = s.errcode := rfl
@[simp] theorem State.noteSample_errinfo (s : State) (p : Lanes Word) : (s.noteSample p).errinfo = s.errinfo := rfl
@[simp] theorem State.noteSample_irqEn (s : State) (p : Lanes Word) : (s.noteSample p).irqEn = s.irqEn := rfl
@[simp] theorem State.noteSample_width (s : State) (p : Lanes Word) : (s.noteSample p).width = s.width := rfl
@[simp] theorem State.noteSample_height (s : State) (p : Lanes Word) : (s.noteSample p).height = s.height := rfl
@[simp] theorem State.noteSample_inCount (s : State) (p : Lanes Word) : (s.noteSample p).inCount = s.inCount := rfl
@[simp] theorem State.noteSample_pixdone (s : State) (p : Lanes Word) : (s.noteSample p).pixdone = s.pixdone := rfl
@[simp] theorem State.noteSample_idx (s : State) (p : Lanes Word) : (s.noteSample p).idx = s.idx := rfl
@[simp] theorem State.noteSample_maxcll (s : State) (p : Lanes Word) : (s.noteSample p).maxcll = s.maxcll := rfl
@[simp] theorem State.noteSample_maxpall (s : State) (p : Lanes Word) : (s.noteSample p).maxpall = s.maxpall := rfl
@[simp] theorem State.noteSample_cllMax (s : State) (p : Lanes Word) : (s.noteSample p).cllMax = s.cllMax := rfl
@[simp] theorem State.noteSample_cllCnt (s : State) (p : Lanes Word) : (s.noteSample p).cllCnt = s.cllCnt := rfl
@[simp] theorem State.noteSample_cllSum (s : State) (p : Lanes Word) : (s.noteSample p).cllSum = s.cllSum := rfl
@[simp] theorem State.noteSample_v (s : State) (p : Lanes Word) : (s.noteSample p).v = s.v := rfl
@[simp] theorem State.noteSample_q (s : State) (p : Lanes Word) : (s.noteSample p).q = s.q := rfl
@[simp] theorem State.noteSample_y (s : State) (p : Lanes Word) : (s.noteSample p).y = s.y := rfl
@[simp] theorem State.noteSample_w (s : State) (p : Lanes Word) : (s.noteSample p).w = s.w := rfl
@[simp] theorem State.noteSample_inBuf (s : State) (p : Lanes Word) : (s.noteSample p).inBuf = s.inBuf := rfl
@[simp] theorem State.noteSample_sdrBuf (s : State) (p : Lanes Word) : (s.noteSample p).sdrBuf = s.sdrBuf := rfl
@[simp] theorem State.noteSample_hdrBuf (s : State) (p : Lanes Word) : (s.noteSample p).hdrBuf = s.hdrBuf := rfl
@[simp] theorem State.noteSample_engine (s : State) (p : Lanes Word) : (s.noteSample p).engine = s.engine := rfl
@[simp] theorem State.noteSample_rst (s : State) (p : Lanes Word) : (s.noteSample p).rst = s.rst := rfl
@[simp] theorem State.noteSample_resets (s : State) (p : Lanes Word) : (s.noteSample p).resets = s.resets := rfl
@[simp] theorem State.noteSample_choice (s : State) (p : Lanes Word) : (s.noteSample p).choice = s.choice := rfl
@[simp] theorem State.noteSample_host (s : State) (p : Lanes Word) : (s.noteSample p).host = s.host := rfl
@[simp] theorem State.noteSample_rstInput (s : State) (p : Lanes Word) : (s.noteSample p).rstInput = s.rstInput := rfl
@[simp] theorem State.noteSample_response (s : State) (p : Lanes Word) : (s.noteSample p).response = s.response := rfl

/-! ## `State.cllClear` -/

@[simp] theorem State.cllClear_done (s : State) : s.cllClear.done = s.done := rfl
@[simp] theorem State.cllClear_err (s : State) : s.cllClear.err = s.err := rfl
@[simp] theorem State.cllClear_nonfin (s : State) : s.cllClear.nonfin = s.nonfin := rfl
@[simp] theorem State.cllClear_errcode (s : State) : s.cllClear.errcode = s.errcode := rfl
@[simp] theorem State.cllClear_errinfo (s : State) : s.cllClear.errinfo = s.errinfo := rfl
@[simp] theorem State.cllClear_irqEn (s : State) : s.cllClear.irqEn = s.irqEn := rfl
@[simp] theorem State.cllClear_width (s : State) : s.cllClear.width = s.width := rfl
@[simp] theorem State.cllClear_height (s : State) : s.cllClear.height = s.height := rfl
@[simp] theorem State.cllClear_inCount (s : State) : s.cllClear.inCount = s.inCount := rfl
@[simp] theorem State.cllClear_pixdone (s : State) : s.cllClear.pixdone = s.pixdone := rfl
@[simp] theorem State.cllClear_idx (s : State) : s.cllClear.idx = s.idx := rfl
@[simp] theorem State.cllClear_maxcll (s : State) : s.cllClear.maxcll = s.maxcll := rfl
@[simp] theorem State.cllClear_maxpall (s : State) : s.cllClear.maxpall = s.maxpall := rfl
@[simp] theorem State.cllClear_cllMax (s : State) : s.cllClear.cllMax = 0 := rfl
@[simp] theorem State.cllClear_cllCnt (s : State) : s.cllClear.cllCnt = 0 := rfl
@[simp] theorem State.cllClear_cllSum (s : State) : s.cllClear.cllSum = 0 := rfl
@[simp] theorem State.cllClear_v (s : State) : s.cllClear.v = s.v := rfl
@[simp] theorem State.cllClear_q (s : State) : s.cllClear.q = s.q := rfl
@[simp] theorem State.cllClear_y (s : State) : s.cllClear.y = s.y := rfl
@[simp] theorem State.cllClear_w (s : State) : s.cllClear.w = s.w := rfl
@[simp] theorem State.cllClear_inBuf (s : State) : s.cllClear.inBuf = s.inBuf := rfl
@[simp] theorem State.cllClear_sdrBuf (s : State) : s.cllClear.sdrBuf = s.sdrBuf := rfl
@[simp] theorem State.cllClear_hdrBuf (s : State) : s.cllClear.hdrBuf = s.hdrBuf := rfl
@[simp] theorem State.cllClear_engine (s : State) : s.cllClear.engine = s.engine := rfl
@[simp] theorem State.cllClear_rst (s : State) : s.cllClear.rst = s.rst := rfl
@[simp] theorem State.cllClear_resets (s : State) : s.cllClear.resets = s.resets := rfl
@[simp] theorem State.cllClear_choice (s : State) : s.cllClear.choice = s.choice := rfl
@[simp] theorem State.cllClear_host (s : State) : s.cllClear.host = s.host := rfl
@[simp] theorem State.cllClear_rstInput (s : State) : s.cllClear.rstInput = s.rstInput := rfl
@[simp] theorem State.cllClear_response (s : State) : s.cllClear.response = s.response := rfl

/-! ## `State.cllAccumulate` -/

@[simp] theorem State.cllAccumulate_done (s : State) (x : Half) : (s.cllAccumulate x).done = s.done := rfl
@[simp] theorem State.cllAccumulate_err (s : State) (x : Half) : (s.cllAccumulate x).err = s.err := rfl
@[simp] theorem State.cllAccumulate_nonfin (s : State) (x : Half) : (s.cllAccumulate x).nonfin = s.nonfin := rfl
@[simp] theorem State.cllAccumulate_errcode (s : State) (x : Half) : (s.cllAccumulate x).errcode = s.errcode := rfl
@[simp] theorem State.cllAccumulate_errinfo (s : State) (x : Half) : (s.cllAccumulate x).errinfo = s.errinfo := rfl
@[simp] theorem State.cllAccumulate_irqEn (s : State) (x : Half) : (s.cllAccumulate x).irqEn = s.irqEn := rfl
@[simp] theorem State.cllAccumulate_width (s : State) (x : Half) : (s.cllAccumulate x).width = s.width := rfl
@[simp] theorem State.cllAccumulate_height (s : State) (x : Half) : (s.cllAccumulate x).height = s.height := rfl
@[simp] theorem State.cllAccumulate_inCount (s : State) (x : Half) : (s.cllAccumulate x).inCount = s.inCount := rfl
@[simp] theorem State.cllAccumulate_pixdone (s : State) (x : Half) : (s.cllAccumulate x).pixdone = s.pixdone := rfl
@[simp] theorem State.cllAccumulate_idx (s : State) (x : Half) : (s.cllAccumulate x).idx = s.idx := rfl
@[simp] theorem State.cllAccumulate_maxcll (s : State) (x : Half) : (s.cllAccumulate x).maxcll = s.maxcll := rfl
@[simp] theorem State.cllAccumulate_maxpall (s : State) (x : Half) : (s.cllAccumulate x).maxpall = s.maxpall := rfl
@[simp] theorem State.cllAccumulate_cllMax (s : State) (x : Half) : (s.cllAccumulate x).cllMax = (if s.cllMax < x then x else s.cllMax) := rfl
@[simp] theorem State.cllAccumulate_cllCnt (s : State) (x : Half) : (s.cllAccumulate x).cllCnt = s.cllCnt + 1 := rfl
@[simp] theorem State.cllAccumulate_cllSum (s : State) (x : Half) : (s.cllAccumulate x).cllSum = s.cllSum + x.setWidth 48 := rfl
@[simp] theorem State.cllAccumulate_v (s : State) (x : Half) : (s.cllAccumulate x).v = s.v := rfl
@[simp] theorem State.cllAccumulate_q (s : State) (x : Half) : (s.cllAccumulate x).q = s.q := rfl
@[simp] theorem State.cllAccumulate_y (s : State) (x : Half) : (s.cllAccumulate x).y = s.y := rfl
@[simp] theorem State.cllAccumulate_w (s : State) (x : Half) : (s.cllAccumulate x).w = s.w := rfl
@[simp] theorem State.cllAccumulate_inBuf (s : State) (x : Half) : (s.cllAccumulate x).inBuf = s.inBuf := rfl
@[simp] theorem State.cllAccumulate_sdrBuf (s : State) (x : Half) : (s.cllAccumulate x).sdrBuf = s.sdrBuf := rfl
@[simp] theorem State.cllAccumulate_hdrBuf (s : State) (x : Half) : (s.cllAccumulate x).hdrBuf = s.hdrBuf := rfl
@[simp] theorem State.cllAccumulate_engine (s : State) (x : Half) : (s.cllAccumulate x).engine = s.engine := rfl
@[simp] theorem State.cllAccumulate_rst (s : State) (x : Half) : (s.cllAccumulate x).rst = s.rst := rfl
@[simp] theorem State.cllAccumulate_resets (s : State) (x : Half) : (s.cllAccumulate x).resets = s.resets := rfl
@[simp] theorem State.cllAccumulate_choice (s : State) (x : Half) : (s.cllAccumulate x).choice = s.choice := rfl
@[simp] theorem State.cllAccumulate_host (s : State) (x : Half) : (s.cllAccumulate x).host = s.host := rfl
@[simp] theorem State.cllAccumulate_rstInput (s : State) (x : Half) : (s.cllAccumulate x).rstInput = s.rstInput := rfl
@[simp] theorem State.cllAccumulate_response (s : State) (x : Half) : (s.cllAccumulate x).response = s.response := rfl

/-! ## `State.cllPublish` -/

@[simp] theorem State.cllPublish_done (s : State) : s.cllPublish.done = s.done := rfl
@[simp] theorem State.cllPublish_err (s : State) : s.cllPublish.err = s.err := rfl
@[simp] theorem State.cllPublish_nonfin (s : State) : s.cllPublish.nonfin = s.nonfin := rfl
@[simp] theorem State.cllPublish_errcode (s : State) : s.cllPublish.errcode = s.errcode := rfl
@[simp] theorem State.cllPublish_errinfo (s : State) : s.cllPublish.errinfo = s.errinfo := rfl
@[simp] theorem State.cllPublish_irqEn (s : State) : s.cllPublish.irqEn = s.irqEn := rfl
@[simp] theorem State.cllPublish_width (s : State) : s.cllPublish.width = s.width := rfl
@[simp] theorem State.cllPublish_height (s : State) : s.cllPublish.height = s.height := rfl
@[simp] theorem State.cllPublish_inCount (s : State) : s.cllPublish.inCount = s.inCount := rfl
@[simp] theorem State.cllPublish_pixdone (s : State) : s.cllPublish.pixdone = s.pixdone := rfl
@[simp] theorem State.cllPublish_idx (s : State) : s.cllPublish.idx = s.idx := rfl
@[simp] theorem State.cllPublish_maxcll (s : State) : s.cllPublish.maxcll = s.cllMax := rfl
@[simp] theorem State.cllPublish_maxpall (s : State) : s.cllPublish.maxpall = BitVec.ofNat 16 (rdiv s.cllSum.toNat s.cllCnt.toNat) := rfl
@[simp] theorem State.cllPublish_cllMax (s : State) : s.cllPublish.cllMax = s.cllMax := rfl
@[simp] theorem State.cllPublish_cllCnt (s : State) : s.cllPublish.cllCnt = s.cllCnt := rfl
@[simp] theorem State.cllPublish_cllSum (s : State) : s.cllPublish.cllSum = s.cllSum := rfl
@[simp] theorem State.cllPublish_v (s : State) : s.cllPublish.v = s.v := rfl
@[simp] theorem State.cllPublish_q (s : State) : s.cllPublish.q = s.q := rfl
@[simp] theorem State.cllPublish_y (s : State) : s.cllPublish.y = s.y := rfl
@[simp] theorem State.cllPublish_w (s : State) : s.cllPublish.w = s.w := rfl
@[simp] theorem State.cllPublish_inBuf (s : State) : s.cllPublish.inBuf = s.inBuf := rfl
@[simp] theorem State.cllPublish_sdrBuf (s : State) : s.cllPublish.sdrBuf = s.sdrBuf := rfl
@[simp] theorem State.cllPublish_hdrBuf (s : State) : s.cllPublish.hdrBuf = s.hdrBuf := rfl
@[simp] theorem State.cllPublish_engine (s : State) : s.cllPublish.engine = s.engine := rfl
@[simp] theorem State.cllPublish_rst (s : State) : s.cllPublish.rst = s.rst := rfl
@[simp] theorem State.cllPublish_resets (s : State) : s.cllPublish.resets = s.resets := rfl
@[simp] theorem State.cllPublish_choice (s : State) : s.cllPublish.choice = s.choice := rfl
@[simp] theorem State.cllPublish_host (s : State) : s.cllPublish.host = s.host := rfl
@[simp] theorem State.cllPublish_rstInput (s : State) : s.cllPublish.rstInput = s.rstInput := rfl
@[simp] theorem State.cllPublish_response (s : State) : s.cllPublish.response = s.response := rfl

/-! ## `State.memWrite`: everything but the buffers -/

@[simp] theorem State.memWrite_done (s : State) (b : Buffer) (a n x : Nat) : (s.memWrite b a n x).done = s.done := by
  cases b <;> rfl
@[simp] theorem State.memWrite_err (s : State) (b : Buffer) (a n x : Nat) : (s.memWrite b a n x).err = s.err := by
  cases b <;> rfl
@[simp] theorem State.memWrite_nonfin (s : State) (b : Buffer) (a n x : Nat) : (s.memWrite b a n x).nonfin = s.nonfin := by
  cases b <;> rfl
@[simp] theorem State.memWrite_errcode (s : State) (b : Buffer) (a n x : Nat) : (s.memWrite b a n x).errcode = s.errcode := by
  cases b <;> rfl
@[simp] theorem State.memWrite_errinfo (s : State) (b : Buffer) (a n x : Nat) : (s.memWrite b a n x).errinfo = s.errinfo := by
  cases b <;> rfl
@[simp] theorem State.memWrite_irqEn (s : State) (b : Buffer) (a n x : Nat) : (s.memWrite b a n x).irqEn = s.irqEn := by
  cases b <;> rfl
@[simp] theorem State.memWrite_width (s : State) (b : Buffer) (a n x : Nat) : (s.memWrite b a n x).width = s.width := by
  cases b <;> rfl
@[simp] theorem State.memWrite_height (s : State) (b : Buffer) (a n x : Nat) : (s.memWrite b a n x).height = s.height := by
  cases b <;> rfl
@[simp] theorem State.memWrite_inCount (s : State) (b : Buffer) (a n x : Nat) : (s.memWrite b a n x).inCount = s.inCount := by
  cases b <;> rfl
@[simp] theorem State.memWrite_pixdone (s : State) (b : Buffer) (a n x : Nat) : (s.memWrite b a n x).pixdone = s.pixdone := by
  cases b <;> rfl
@[simp] theorem State.memWrite_idx (s : State) (b : Buffer) (a n x : Nat) : (s.memWrite b a n x).idx = s.idx := by
  cases b <;> rfl
@[simp] theorem State.memWrite_maxcll (s : State) (b : Buffer) (a n x : Nat) : (s.memWrite b a n x).maxcll = s.maxcll := by
  cases b <;> rfl
@[simp] theorem State.memWrite_maxpall (s : State) (b : Buffer) (a n x : Nat) : (s.memWrite b a n x).maxpall = s.maxpall := by
  cases b <;> rfl
@[simp] theorem State.memWrite_cllMax (s : State) (b : Buffer) (a n x : Nat) : (s.memWrite b a n x).cllMax = s.cllMax := by
  cases b <;> rfl
@[simp] theorem State.memWrite_cllCnt (s : State) (b : Buffer) (a n x : Nat) : (s.memWrite b a n x).cllCnt = s.cllCnt := by
  cases b <;> rfl
@[simp] theorem State.memWrite_cllSum (s : State) (b : Buffer) (a n x : Nat) : (s.memWrite b a n x).cllSum = s.cllSum := by
  cases b <;> rfl
@[simp] theorem State.memWrite_v (s : State) (b : Buffer) (a n x : Nat) : (s.memWrite b a n x).v = s.v := by
  cases b <;> rfl
@[simp] theorem State.memWrite_q (s : State) (b : Buffer) (a n x : Nat) : (s.memWrite b a n x).q = s.q := by
  cases b <;> rfl
@[simp] theorem State.memWrite_y (s : State) (b : Buffer) (a n x : Nat) : (s.memWrite b a n x).y = s.y := by
  cases b <;> rfl
@[simp] theorem State.memWrite_w (s : State) (b : Buffer) (a n x : Nat) : (s.memWrite b a n x).w = s.w := by
  cases b <;> rfl
@[simp] theorem State.memWrite_engine (s : State) (b : Buffer) (a n x : Nat) : (s.memWrite b a n x).engine = s.engine := by
  cases b <;> rfl
@[simp] theorem State.memWrite_rst (s : State) (b : Buffer) (a n x : Nat) : (s.memWrite b a n x).rst = s.rst := by
  cases b <;> rfl
@[simp] theorem State.memWrite_resets (s : State) (b : Buffer) (a n x : Nat) : (s.memWrite b a n x).resets = s.resets := by
  cases b <;> rfl
@[simp] theorem State.memWrite_choice (s : State) (b : Buffer) (a n x : Nat) : (s.memWrite b a n x).choice = s.choice := by
  cases b <;> rfl
@[simp] theorem State.memWrite_host (s : State) (b : Buffer) (a n x : Nat) : (s.memWrite b a n x).host = s.host := by
  cases b <;> rfl
@[simp] theorem State.memWrite_rstInput (s : State) (b : Buffer) (a n x : Nat) : (s.memWrite b a n x).rstInput = s.rstInput := by
  cases b <;> rfl
@[simp] theorem State.memWrite_response (s : State) (b : Buffer) (a n x : Nat) : (s.memWrite b a n x).response = s.response := by
  cases b <;> rfl

/-! ## Buffers under the updates that leave them alone -/

@[simp] theorem State.respond_buffer (s : State) (r : Response) (b : Buffer) : (s.respond r).buffer b = s.buffer b := by
  cases b <;> rfl
@[simp] theorem State.tick_buffer (s : State) (b : Buffer) : s.tick.buffer b = s.buffer b := by
  cases b <;> rfl
@[simp] theorem State.raise_buffer (s : State) (e : Cause) (x : Word) (b : Buffer) : (s.raise e x).buffer b = s.buffer b := by
  cases b <;> rfl
@[simp] theorem State.clearStatus_buffer (s : State) (b : Buffer) : s.clearStatus.buffer b = s.buffer b := by
  cases b <;> rfl
@[simp] theorem State.noteSample_buffer (s : State) (p : Lanes Word) (b : Buffer) : (s.noteSample p).buffer b = s.buffer b := by
  cases b <;> rfl
@[simp] theorem State.cllClear_buffer (s : State) (b : Buffer) : s.cllClear.buffer b = s.buffer b := by
  cases b <;> rfl
@[simp] theorem State.cllAccumulate_buffer (s : State) (x : Half) (b : Buffer) : (s.cllAccumulate x).buffer b = s.buffer b := by
  cases b <;> rfl
@[simp] theorem State.cllPublish_buffer (s : State) (b : Buffer) : s.cllPublish.buffer b = s.buffer b := by
  cases b <;> rfl

/-- A buffer write changes the buffer it names and no other. -/
theorem State.memWrite_buffer (s : State) (b b' : Buffer) (a n x : Nat) :
    (s.memWrite b a n x).buffer b' = if b' = b then Memory.store (s.buffer b) a n x else s.buffer b' := by
  cases b <;> cases b' <;> rfl

@[simp] theorem State.memWrite_buffer_self (s : State) (b : Buffer) (a n x : Nat) :
    (s.memWrite b a n x).buffer b = Memory.store (s.buffer b) a n x := by
  simp [State.memWrite_buffer]

theorem State.memWrite_buffer_ne (s : State) {b b' : Buffer} (h : b' ≠ b) (a n x : Nat) :
    (s.memWrite b a n x).buffer b' = s.buffer b' := by
  simp [State.memWrite_buffer, h]

/-! ## The bits of `STATUS` (10_state.md R25) -/

/-- Bit by bit: `BUSY`, `DONE`, `ERR`, `NONFIN`, and zeros above. -/
theorem State.statusWord_getLsbD (s : State) (k : Nat) : s.statusWord.getLsbD k =
    (if k = 0 then s.busy else if k = 1 then s.done else if k = 2 then s.err else if k = 3 then s.nonfin else false) := by
  unfold State.statusWord
  generalize s.busy = b, s.done = d, s.err = e, s.nonfin = n
  match k with
  | 0 | 1 | 2 | 3 => cases b <;> cases d <;> cases e <;> cases n <;> rfl
  | k + 4 =>
    change (0#28 ++ BitVec.ofBool n ++ BitVec.ofBool e ++ BitVec.ofBool d ++ BitVec.ofBool b :
      BitVec (28 + 1 + 1 + 1 + 1)).getLsbD (k + 4) = false
    simp only [BitVec.getLsbD_append]
    simp

@[simp] theorem State.statusWord_busy (s : State) : s.statusWord[0] = s.busy := s.statusWord_getLsbD 0

@[simp] theorem State.statusWord_done (s : State) : s.statusWord[1] = s.done := s.statusWord_getLsbD 1

@[simp] theorem State.statusWord_err (s : State) : s.statusWord[2] = s.err := s.statusWord_getLsbD 2

@[simp] theorem State.statusWord_nonfin (s : State) : s.statusWord[3] = s.nonfin := s.statusWord_getLsbD 3

end Sys2Proof.Machine
end

