-- ==== Sys2Proof/Laws/Memory.lean ====
section
/-! SUPPORT. The laws of a buffer's list of bytes: a read after a write, everything else left alone, the
canonical form kept, writes to different offsets commuting. -/

namespace Sys2Proof.Machine

/-! ## One byte -/

@[simp] theorem Memory.byte?_nil (x : Nat) : Memory.byte? [] x = none := rfl

theorem Memory.byte?_cons (a : Nat) (b : Byte) (m : Memory) (x : Nat) :
    Memory.byte? ((a, b) :: m) x = if x = a then some b else Memory.byte? m x := rfl

/-- What `put` does to every offset. -/
theorem Memory.byte?_put (m : Memory) (x : Nat) (v : Byte) (z : Nat) :
    Memory.byte? (Memory.put m x v) z = if z = x then some v else Memory.byte? m z := by
  induction m with
  | nil => simp [Memory.put, Memory.byte?]
  | cons p m ih =>
    obtain ⟨a, b⟩ := p
    unfold Memory.put
    split
    · simp [Memory.byte?_cons]
    · split
      · subst_vars; simp only [Memory.byte?_cons]; split <;> simp_all
      · simp only [Memory.byte?_cons, ih]; split <;> split <;> simp_all

/-- `put` lists nothing new but its own offset. -/
theorem Memory.mem_put {m : Memory} {x : Nat} {v : Byte} {p : Host.Cell} (h : p ∈ Memory.put m x v) :
    p = (x, v) ∨ p ∈ m := by
  induction m with
  | nil => simpa [Memory.put] using h
  | cons q m ih =>
    obtain ⟨a, b⟩ := q
    unfold Memory.put at h
    split at h
    · simpa using h
    · split at h
      · rcases List.mem_cons.1 h with h | h
        · exact .inl h
        · exact .inr (List.mem_cons_of_mem _ h)
      · rcases List.mem_cons.1 h with h | h
        · exact .inr (h ▸ List.mem_cons_self)
        · exact (ih h).imp id (List.mem_cons_of_mem _)

/-- `put` keeps the canonical form. -/
theorem Memory.put_wf {m : Memory} (h : m.wf) (x : Nat) (v : Byte) : (Memory.put m x v).wf := by
  induction m with
  | nil => simp [Memory.put]
  | cons q m ih =>
    obtain ⟨a, b⟩ := q
    obtain ⟨hq, hm⟩ := List.pairwise_cons.1 h
    unfold Memory.put
    split
    · rename_i hx
      refine List.pairwise_cons.2 ⟨fun p hp => ?_, h⟩
      rcases List.mem_cons.1 hp with rfl | hp
      · exact hx
      · exact lt_trans hx (hq p hp)
    · split
      · subst_vars; exact List.pairwise_cons.2 ⟨hq, hm⟩
      · refine List.pairwise_cons.2 ⟨fun p hp => ?_, ih hm⟩
        rcases Memory.mem_put hp with rfl | hp
        · simp only; omega
        · exact hq p hp

theorem Memory.put_within {m : Memory} {size x : Nat} (h : m.within size) (hx : x < size) (v : Byte) :
    (Memory.put m x v).within size := fun p hp => by
  rcases Memory.mem_put hp with rfl | hp
  · exact hx
  · exact h p hp

/-- In canonical form the first entry is below every other, so its offset is not listed again. -/
theorem Memory.byte?_of_lt {m : Memory} {x : Nat} (h : ∀ p ∈ m, x < p.1) : Memory.byte? m x = none := by
  induction m with
  | nil => rfl
  | cons q m ih =>
    have hq : x < q.1 := h q List.mem_cons_self
    rw [show q = (q.1, q.2) from rfl, Memory.byte?_cons, if_neg (by omega)]
    exact ih fun p hp => h p (List.mem_cons_of_mem _ hp)

/-- Canonical memories that hold the same bytes are the same list. -/
theorem Memory.ext_of_wf {m m' : Memory} (h : m.wf) (h' : m'.wf)
    (e : ∀ x, Memory.byte? m x = Memory.byte? m' x) : m = m' := by
  induction m generalizing m' with
  | nil =>
    cases m' with
    | nil => rfl
    | cons q m' => exact absurd (e q.1) (by simp [Memory.byte?])
  | cons p m ih =>
    cases m' with
    | nil => exact absurd (e p.1) (by simp [Memory.byte?])
    | cons q m' =>
      obtain ⟨a, b⟩ := p
      obtain ⟨a', b'⟩ := q
      obtain ⟨hp, hm⟩ := List.pairwise_cons.1 h
      obtain ⟨hq, hm'⟩ := List.pairwise_cons.1 h'
      have ea := e a
      have ea' := e a'
      simp only [Memory.byte?_cons, if_true] at ea ea'
      have haa : a = a' := by
        rcases Nat.lt_trichotomy a a' with hl | hl | hl
        · rw [if_neg (by omega), Memory.byte?_of_lt fun p hp => lt_trans hl (hq p hp)] at ea
          cases ea
        · exact hl
        · rw [if_neg (by omega), Memory.byte?_of_lt fun p hp' => lt_trans hl (hp p hp')] at ea'
          cases ea'
      subst haa
      have hbb : b = b' := by simpa using ea
      subst hbb
      congr 1
      refine ih hm hm' fun x => ?_
      have ex := e x
      simp only [Memory.byte?_cons] at ex
      split at ex
      · subst_vars
        rw [Memory.byte?_of_lt hp, Memory.byte?_of_lt hq]
      · exact ex

/-! ## Several bytes -/

theorem Memory.store_wf {m : Memory} (h : m.wf) (a n v : Nat) : (Memory.store m a n v).wf := by
  induction n generalizing m a v with
  | zero => exact h
  | succ k ih => exact ih (Memory.put_wf h _ _) _ _

theorem Memory.store_within {m : Memory} {size : Nat} (h : m.within size) {a n : Nat} (hn : a + n ≤ size)
    (v : Nat) : (Memory.store m a n v).within size := by
  induction n generalizing m a v with
  | zero => exact h
  | succ k ih => exact ih (Memory.put_within h (by omega) _) (by omega) _

/-- What a store does to every offset: the bytes of the value, little-endian, and nothing else. -/
theorem Memory.byte?_store (m : Memory) (a n v z : Nat) :
    Memory.byte? (Memory.store m a n v) z =
      if a ≤ z ∧ z < a + n then some (BitVec.ofNat 8 (v / 256 ^ (z - a))) else Memory.byte? m z := by
  induction n generalizing m a v with
  | zero => rw [if_neg (by omega)]; rfl
  | succ k ih =>
    rw [Memory.store, ih, Memory.byte?_put]
    by_cases hz : z = a
    · subst hz; rw [if_neg (by omega), if_pos rfl, if_pos (by omega)]; simp
    · by_cases hin : a + 1 ≤ z ∧ z < a + 1 + k
      · rw [if_pos hin, if_pos (by omega), Nat.div_div_eq_div_mul, ← pow_succ',
          show z - (a + 1) + 1 = z - a by omega]
      · rw [if_neg hin, if_neg hz, if_neg (by omega)]

/-- Stores to disjoint ranges commute, on canonical memories. -/
theorem Memory.store_comm {m : Memory} (h : m.wf) {a n a' n' : Nat} (d : a + n ≤ a' ∨ a' + n' ≤ a)
    (v v' : Nat) :
    Memory.store (Memory.store m a n v) a' n' v' = Memory.store (Memory.store m a' n' v') a n v := by
  refine Memory.ext_of_wf (Memory.store_wf (Memory.store_wf h _ _ _) _ _ _)
    (Memory.store_wf (Memory.store_wf h _ _ _) _ _ _) fun z => ?_
  simp only [Memory.byte?_store]
  split_ifs <;> first | rfl | omega

/-! ## Little-endian reads -/

theorem readLittle_congr {f g : Nat → Byte} {a n : Nat} (h : ∀ z, a ≤ z → z < a + n → f z = g z) :
    readLittle f a n = readLittle g a n := by
  induction n generalizing a with
  | zero => rfl
  | succ k ih => rw [readLittle, readLittle, h a (by omega) (by omega), ih fun z _ _ => h z (by omega) (by omega)]

theorem readLittle_lt (f : Nat → Byte) (a n : Nat) : readLittle f a n < 256 ^ n := by
  induction n generalizing a with
  | zero => simp [readLittle]
  | succ k ih =>
    have h1 := (f a).isLt
    have h2 := ih (a + 1)
    rw [readLittle, pow_succ]
    omega

/-- Reading back what was stored. -/
theorem readLittle_of_bytes {f : Nat → Byte} {a n v : Nat}
    (h : ∀ z, a ≤ z → z < a + n → f z = BitVec.ofNat 8 (v / 256 ^ (z - a))) :
    readLittle f a n = v % 256 ^ n := by
  induction n generalizing a v with
  | zero => simp [readLittle, Nat.mod_one]
  | succ k ih =>
    have hv : readLittle f (a + 1) k = v / 256 % 256 ^ k := ih fun z h1 h2 => by
      rw [h z (by omega) (by omega), Nat.div_div_eq_div_mul, ← pow_succ', show z - (a + 1) + 1 = z - a by omega]
    have ha : (f a).toNat = v % 256 := by rw [h a (by omega) (by omega)]; simp
    rw [readLittle, hv, ha, pow_succ', Nat.mod_mul]

end Sys2Proof.Machine
end

