-- ==== Sys2Proof/Laws/Ops.lean ====
section
/-! SUPPORT. For each shared operation, what it can do, said once: buffer reads and writes at the level of the
state, the index check, acceptance of a frame, the engine's steps, the dispatch of a `CMD` write, the choice of
the agent that moves. -/

namespace Sys2Proof.Machine

/-! ## Buffer bytes -/

/-- A write is seen in the bytes it stores and nowhere else. -/
theorem State.byteAt_memWrite (s : State) (b : Buffer) (a n v : Nat) (b' : Buffer) (z : Nat) :
    (s.memWrite b a n v).byteAt b' z =
      if b' = b ∧ a ≤ z ∧ z < a + n then BitVec.ofNat 8 (v / 256 ^ (z - a)) else s.byteAt b' z := by
  simp only [State.byteAt, State.memWrite_resets, State.memWrite_buffer]
  by_cases h : b' = b
  · subst h
    rw [if_pos rfl, Memory.byte?_store]
    by_cases hz : a ≤ z ∧ z < a + n
    · rw [if_pos hz, if_pos ⟨rfl, hz⟩]; rfl
    · rw [if_neg hz, if_neg fun h => hz h.2]
  · rw [if_neg h, if_neg fun h' => h h'.1]

/-- Two states with the same bytes in a range read the same number there. -/
theorem State.memRead_congr {s t : State} {b : Buffer} {a n : Nat}
    (h : ∀ z, a ≤ z → z < a + n → s.byteAt b z = t.byteAt b z) : s.memRead b a n = t.memRead b a n :=
  readLittle_congr h

/-- Reading back what was written. -/
theorem State.memRead_memWrite_self (s : State) (b : Buffer) (a n v : Nat) :
    (s.memWrite b a n v).memRead b a n = v % 256 ^ n :=
  readLittle_of_bytes fun z h1 h2 => by rw [State.byteAt_memWrite, if_pos ⟨rfl, h1, h2⟩]

/-- Reading elsewhere: another buffer or a disjoint range. -/
theorem State.memRead_memWrite_other (s : State) {b b' : Buffer} {a n a' n' : Nat} (v : Nat)
    (h : b' ≠ b ∨ a' + n' ≤ a ∨ a + n ≤ a') :
    (s.memWrite b a n v).memRead b' a' n' = s.memRead b' a' n' :=
  State.memRead_congr fun z h1 h2 => by
    rw [State.byteAt_memWrite, if_neg]
    rintro ⟨hb, h3, h4⟩
    rcases h with h | h | h
    · exact h hb
    · omega
    · omega

/-- Bytes depend on the buffers and the count of resets alone. -/
theorem State.byteAt_congr {s t : State} (hb : ∀ b, s.buffer b = t.buffer b) (hr : s.resets = t.resets)
    (b : Buffer) (z : Nat) : s.byteAt b z = t.byteAt b z := by
  simp only [State.byteAt, hb, hr]

@[simp] theorem State.noteSample_byteAt (s : State) (p : Lanes Word) (b : Buffer) (z : Nat) :
    (s.noteSample p).byteAt b z = s.byteAt b z := by cases b <;> rfl

@[simp] theorem State.cllAccumulate_byteAt (s : State) (y : Half) (b : Buffer) (z : Nat) :
    (s.cllAccumulate y).byteAt b z = s.byteAt b z := by cases b <;> rfl

@[simp] theorem State.tick_byteAt (s : State) (b : Buffer) (z : Nat) : s.tick.byteAt b z = s.byteAt b z := by
  cases b <;> rfl

/-- A sample depends on its sixteen bytes of `IN` alone. -/
theorem State.sample_congr {s t : State} {i : Nat}
    (h : ∀ z, 16 * i ≤ z → z < 16 * i + 16 → s.byteAt .input z = t.byteAt .input z) :
    s.sample i = t.sample i := by
  have hr : ∀ k, k + 4 ≤ 16 → s.memRead .input (16 * i + k) 4 = t.memRead .input (16 * i + k) 4 :=
    fun k hk => State.memRead_congr fun z _ _ => h z (by omega) (by omega)
  have h0 := hr 0 (by omega)
  simp only [Nat.add_zero] at h0
  simp only [State.sample, h0, hr 4 (by omega), hr 8 (by omega), hr 12 (by omega)]

/-! ## The capacity -/

/-- `MAX_PIXELS` fits 32 bits (00_scope.md R6). -/
theorem maxPixels_le (c : Config) : c.maxPixels ≤ 0xFFFFFFFF := c.params.lastPixel.isLt

theorem maxPixels_lt (c : Config) : c.maxPixels < 2 ^ 32 :=
  Nat.lt_of_le_of_lt (maxPixels_le c) (by norm_num)

theorem maxPixels_pos (c : Config) : 0 < c.maxPixels := Nat.succ_pos _

/-- `CAP` reads the whole of `MAX_PIXELS` (10_state.md R33). -/
theorem cap_toNat (c : Config) : c.cap.toNat = c.maxPixels := by
  rw [Config.cap, BitVec.toNat_ofNat, Nat.mod_eq_of_lt (maxPixels_lt c)]

/-- The sizes of the buffer spaces (20_memory.md R50). -/
theorem size_input (c : Config) : c.size .input = 16 * c.maxPixels := rfl

theorem size_sdr (c : Config) : c.size .sdr = 4 * c.maxPixels := rfl

theorem size_hdr (c : Config) : c.size .hdr = 8 * c.maxPixels := rfl

/-! ## The index check and acceptance -/

/-- The index check either raises `E_IDX` and does nothing else, or lets the effect happen. -/
theorem State.indexChecked_cases (c : Config) (s effect : State) :
    (c.maxPixels ≤ s.idx.toNat ∧ s.indexChecked c effect = s.raise .idx s.idx) ∨
    (s.idx.toNat < c.maxPixels ∧ s.indexChecked c effect = effect) := by
  unfold State.indexChecked
  by_cases h : c.maxPixels ≤ s.idx.toNat
  · exact .inl ⟨h, if_pos h⟩
  · exact .inr ⟨Nat.lt_of_not_le h, if_neg h⟩

/-- The four outcomes of a frame command (45_frame.md R149). -/
theorem startFrame_cases (c : Config) (m : EngMode) (w : Word) (s : State) :
    ((s.width = 0 ∨ s.height = 0) ∧ startFrame c m w s = s.raise .dim w) ∨
    (¬(s.width = 0 ∨ s.height = 0) ∧ s.frameSize ≠ s.inCount.toNat ∧
      startFrame c m w s = s.raise .size (BitVec.ofNat 32 (min s.frameSize 0xFFFFFFFF))) ∨
    (¬(s.width = 0 ∨ s.height = 0) ∧ s.frameSize = s.inCount.toNat ∧ c.maxPixels < s.frameSize ∧
      startFrame c m w s = s.raise .cap (BitVec.ofNat 32 s.frameSize)) ∨
    (¬(s.width = 0 ∨ s.height = 0) ∧ s.frameSize = s.inCount.toNat ∧ s.frameSize ≤ c.maxPixels ∧
      startFrame c m w s = acceptFrame m s) := by
  unfold startFrame
  by_cases h1 : s.width = 0 ∨ s.height = 0
  · exact .inl ⟨h1, if_pos h1⟩
  · rw [if_neg h1]
    by_cases h2 : s.frameSize = s.inCount.toNat
    · rw [if_neg (not_not.2 h2)]
      by_cases h3 : c.maxPixels < s.frameSize
      · exact .inr (.inr (.inl ⟨h1, h2, h3, if_pos h3⟩))
      · exact .inr (.inr (.inr ⟨h1, h2, Nat.le_of_not_lt h3, if_neg h3⟩))
    · exact .inr (.inl ⟨h1, h2, if_pos h2⟩)

/-! ## The engine -/

/-- The gain-map pixel's writes as one record update (45_frame.md R153). -/
theorem writePixel_gm (c : Config) (i : Nat) (p : Lanes Word) (s : State) :
    writePixel c .gm i p s =
      { s with
          nonfin := s.nonfin || sampleNonfinite p
          sdrBuf := Memory.store s.sdrBuf (4 * i) 4 (sdrPx p).toNat
          hdrBuf := Memory.store s.hdrBuf (4 * i) 4 (hdr10Px c p).toNat } := rfl

/-- The single-layer pixel's writes and accumulation as one record update (45_frame.md R153, R154). -/
theorem writePixel_sl (c : Config) (i : Nat) (p : Lanes Word) (s : State) :
    writePixel c .sl i p s =
      { s with
          nonfin := s.nonfin || sampleNonfinite p
          sdrBuf := Memory.store s.sdrBuf (4 * i) 4 (sdrPx p).toNat
          hdrBuf := Memory.store s.hdrBuf (8 * i) 8 (hdr16Px c p).toNat
          cllMax := if s.cllMax < BitVec.ofNat 16 (yPx c p) then BitVec.ofNat 16 (yPx c p) else s.cllMax
          cllSum := s.cllSum + (BitVec.ofNat 16 (yPx c p)).setWidth 48
          cllCnt := s.cllCnt + 1 } := rfl
/-- What a pixel step does when it answers a next state. -/
theorem pixelStep_next {c : Config} {i : Nat} {e : Engine} {s t : State} (h : pixelStep c i e s = .next t) :
    i < c.maxPixels ∧
    t = { writePixel c e.mode i (s.sample i) s with
            pixdone := (writePixel c e.mode i (s.sample i) s).pixdone + 1
            engine := some { e with doneSet := insertPixel i e.doneSet } } := by
  unfold pixelStep at h
  split at h
  · cases h
  · rename_i hi
    exact ⟨Nat.lt_of_not_le hi, (Host.Outcome.next.inj h).symm⟩

/-- A pixel step inside the buffers answers a next state. -/
theorem pixelStep_of_lt {c : Config} {i : Nat} (h : i < c.maxPixels) (e : Engine) (s : State) :
    pixelStep c i e s = .next
      { writePixel c e.mode i (s.sample i) s with
          pixdone := (writePixel c e.mode i (s.sample i) s).pixdone + 1
          engine := some { e with doneSet := insertPixel i e.doneSet } } :=
  if_neg (Nat.not_le.2 h)

/-- What a completion step does when it answers a next state. -/
theorem completionStep_next {e : Engine} {s t : State} (h : completionStep e s = .next t) :
    (e.mode = .gm ∧ t = { s with engine := none, done := true }) ∨
    (e.mode = .sl ∧ s.cllCnt ≠ 0 ∧ t = { s.cllPublish with engine := none, done := true }) := by
  unfold completionStep at h
  split at h
  · exact .inl ⟨by assumption, (Host.Outcome.next.inj h).symm⟩
  · split at h
    · cases h
    · exact .inr ⟨by assumption, by assumption, (Host.Outcome.next.inj h).symm⟩

theorem Engine.mem_remaining {e : Engine} {i : Nat} : i ∈ e.remaining ↔ i < e.n ∧ i ∉ e.doneSet := by
  simp [Engine.remaining]

/-- An engine step is the completion step when nothing remains, and else the pixel step of some remaining
pixel, with one more free choice made. -/
theorem engineStep_cases (c : Config) (e : Engine) (s : State) :
    (e.remaining = [] ∧ engineStep c e s = completionStep e s) ∨
    (∃ i ∈ e.remaining, engineStep c e s = pixelStep c i e s.tick) := by
  unfold engineStep
  split
  · rename_i h; exact .inl ⟨h, rfl⟩
  · rename_i first rest h
    refine .inr ⟨_, ?_, rfl⟩
    have hlt : Config.pixelPick s.choice % (rest.length + 1) < (first :: rest).length :=
      Nat.mod_lt _ (Nat.succ_pos _)
    rw [h, List.getD_eq_getElem _ _ hlt]
    exact List.getElem_mem hlt

/-! ## Inserting into `DONESET` -/

theorem mem_insertPixel {i j : Nat} {l : List Nat} : j ∈ insertPixel i l ↔ j = i ∨ j ∈ l := by
  induction l with
  | nil => simp [insertPixel]
  | cons k l ih =>
    unfold insertPixel
    split
    · simp
    · split
      · subst_vars; simp
      · simp only [List.mem_cons, ih]; tauto

theorem insertPixel_sorted {i : Nat} {l : List Nat} (h : l.Pairwise (· < ·)) :
    (insertPixel i l).Pairwise (· < ·) := by
  induction l with
  | nil => simp [insertPixel]
  | cons k l ih =>
    obtain ⟨hk, hl⟩ := List.pairwise_cons.1 h
    unfold insertPixel
    split
    · rename_i hik
      refine List.pairwise_cons.2 ⟨fun j hj => ?_, h⟩
      rcases List.mem_cons.1 hj with rfl | hj
      · exact hik
      · exact lt_trans hik (hk j hj)
    · split
      · exact h
      · refine List.pairwise_cons.2 ⟨fun j hj => ?_, ih hl⟩
        rcases mem_insertPixel.1 hj with rfl | hj
        · omega
        · exact hk j hj

theorem insertPixel_length {i : Nat} {l : List Nat} (h : i ∉ l) : (insertPixel i l).length = l.length + 1 := by
  induction l with
  | nil => rfl
  | cons k l ih =>
    obtain ⟨h1, h2⟩ : i ≠ k ∧ i ∉ l := by simpa using h
    unfold insertPixel
    split
    · rfl
    · simp only [List.length_cons, ih h2]

/-- Strictly rising lists with the same members are equal. -/
theorem sorted_ext {l l' : List Nat} (h : l.Pairwise (· < ·)) (h' : l'.Pairwise (· < ·))
    (e : ∀ i, i ∈ l ↔ i ∈ l') : l = l' := by
  have p : l.Perm l' := (List.perm_ext_iff_of_nodup (h.imp Nat.ne_of_lt) (h'.imp Nat.ne_of_lt)).2 e
  exact p.eq_of_pairwise (fun _ _ _ _ hab hba => absurd hab (Nat.lt_asymm hba)) h h'

/-! ## Runs -/

/-- A step, then a run. -/
theorem run_of_step (M : Host.Core) {s t : M.State} (h : M.step s = .next t) (k : Nat) :
    M.run (k + 1) s = M.run k t := by
  simp [Host.Core.run, h]

/-- One more step after a run. -/
theorem run_then_step (M : Host.Core) {k : Nat} {s t u : M.State} (h : M.run k s = .next t) (hu : M.step t = .next u) :
    M.run (k + 1) s = .next u := by
  induction k generalizing s with
  | zero => cases h; rw [run_of_step M hu]; rfl
  | succ k ih =>
    cases hs : M.step s with
    | next s' => rw [run_of_step M hs] at h ⊢; exact ih h
    | fault r => simp [Host.Core.run, hs] at h
    | refused r => simp [Host.Core.run, hs] at h

/-! ## The agents -/

/-- A step is the move of some agent that can move, on the state or on the state with one more free choice made,
or, when none can, nothing. -/
theorem step_cases (s : State) :
    (s.enabledAgents = [] ∧ step s = .next s) ∨
    (∃ a ∈ s.enabledAgents, step s = agentStep a s ∨ step s = agentStep a s.tick) := by
  unfold step nextStep
  split
  · rename_i h; exact .inl ⟨h, rfl⟩
  · rename_i a h; exact .inr ⟨a, by simp [h], .inl rfl⟩
  · rename_i a b rest h
    rw [h]
    exact .inr ⟨_, Config.schedule.mem _ _ (List.cons_ne_nil _ _), .inr rfl⟩

/-- While the engine can move, a step is the engine's, or another agent's with one more choice made; and it is the
engine's at a choice at which the schedule lets it move. -/
theorem step_while_engine {s : State} {e : Engine} (he : s.engine = some e) (hr : s.rst = false) :
    (∃ u : State, (u = s ∨ u = s.tick) ∧ step s = engineStep Config.here e u) ∨
    (Config.schedule.pick s.choice s.enabledAgents ≠ .engine ∧
      ∃ a ∈ s.enabledAgents, a ≠ .engine ∧ step s = agentStep a s.tick) := by
  have hm : Agent.engine ∈ s.enabledAgents := by simp [State.enabledAgents, State.busy, he, hr]
  have hs : ∀ u : State, u.engine = s.engine → agentStep .engine u = engineStep Config.here e u := fun u hu => by
    simp only [agentStep, hu, he]
  unfold step nextStep
  split
  · rename_i h; rw [h] at hm; cases hm
  · rename_i a h
    obtain rfl : Agent.engine = a := by simpa [h] using hm
    exact .inl ⟨s, .inl rfl, hs s rfl⟩
  · rename_i a b rest h
    rw [← h]
    by_cases hp : Config.schedule.pick s.choice s.enabledAgents = .engine
    · rw [hp]; exact .inl ⟨s.tick, .inr rfl, hs s.tick rfl⟩
    · exact .inr ⟨hp, _, Config.schedule.mem _ _ (List.ne_nil_of_mem hm), hp, rfl⟩

/-- What one round of `WAIT DONE` can do: it changes the response, and keeps or drops the loop. -/
theorem pollStatus_cases (s : State) :
    (s.rst = true ∧ pollStatus s = { s with response := some .busError, host := .waitDone :: s.host }) ∨
    (s.rst = false ∧ (s.done = true ∨ s.err = true) ∧
      pollStatus s = { s with response := some (.data s.statusWord) }) ∨
    (s.rst = false ∧ s.done = false ∧ s.err = false ∧
      pollStatus s = { s with response := some (.data s.statusWord), host := .waitDone :: s.host }) := by
  unfold pollStatus
  rcases Bool.eq_false_or_eq_true s.rst with hr | hr
  · rw [show hostRead .reg (regOffset .status) 4 s = { s with response := some .busError } from if_pos hr]
    exact .inl ⟨hr, rfl⟩
  · have e : hostRead .reg (regOffset .status) 4 s = { s with response := some (.data s.statusWord) } := by
      unfold hostRead
      rw [if_neg (by simp [hr])]
      rfl
    rw [e]
    rcases Bool.eq_false_or_eq_true s.done with hd | hd <;> rcases Bool.eq_false_or_eq_true s.err with he | he <;>
      simp [Response.endsWait, hr, hd, he]

/-- Which agents can move. -/
theorem State.mem_enabledAgents {s : State} {a : Agent} : a ∈ s.enabledAgents ↔
    (a = .host ∧ s.hostReady = true) ∨ (a = .engine ∧ s.busy = true ∧ s.rst = false) ∨
    (a = .platform ∧ s.rstInput ≠ []) := by
  unfold State.enabledAgents
  cases s.hostReady <;> cases s.busy <;> cases s.rst <;> cases s.rstInput <;> simp

end Sys2Proof.Machine
end

