-- ==== Sys2Proof/Laws/PerInstr.lean ====
section
/-! SUPPORT. The per-instruction family `EncodeDecode`: the match word of a command decodes to that command
(30_encoding.md R78), one lemma per constructor. -/

namespace Sys2Proof.Laws.EncodeDecode

/-- Decoding the match word of `i` gives `i` back (30_encoding.md R78). -/
def Statement (i : Instr) : Prop := decode (encode i) = .ok i

theorem nop : Statement .nop := rfl
theorem clr : Statement .clr := rfl
theorem gdec : Statement .gdec := rfl
theorem genc : Statement .genc := rfl
theorem pqenc : Statement .pqenc := rfl
theorem nscale : Statement .nscale := rfl
theorem mat3 : Statement .mat3 := rfl
theorem clamp : Statement .clamp := rfl
theorem luma : Statement .luma := rfl
theorem q8 : Statement .q8 := rfl
theorem q10a2 : Statement .q10a2 := rfl
theorem q16 : Statement .q16 := rfl
theorem pk8 : Statement .pk8 := rfl
theorem pk10 : Statement .pk10 := rfl
theorem pk16 : Statement .pk16 := rfl
theorem ldpx : Statement .ldpx := rfl
theorem sts : Statement .sts := rfl
theorem sth10 : Statement .sth10 := rfl
theorem sth16 : Statement .sth16 := rfl
theorem cllclr : Statement .cllclr := rfl
theorem cllacc : Statement .cllacc := rfl
theorem cllfin : Statement .cllfin := rfl
theorem runGm : Statement .runGm := rfl
theorem runSl : Statement .runSl := rfl

end Sys2Proof.Laws.EncodeDecode
end

