-- ==== Sys2Proof/Laws/Pq.lean ====
section
/-! SUPPORT. The inner stages of `pq` (40_transfer.md R95) for an inner value up to 1.0: what `t` is, written with
magnitudes alone, and that it is monotone and at most 1.0. -/

namespace Sys2Proof.Machine

/-- Unpacking a packed finite magnitude. -/
theorem fUnpack_fPack (s : Bool) {c : Nat} (h : c < 0x7F800000) : fUnpack (fPack s c) = .fin s (magUnits c) := by
  cases s with
  | false =>
    have e : (fPack false c).toNat = c := by
      unfold fPack
      rw [BitVec.toNat_ofNat, if_neg (by decide), Nat.add_zero]
      exact Nat.mod_eq_of_lt (Nat.lt_trans h (by norm_num))
    rw [fUnpack_of_lt (by rw [e]; exact h), e]
  | true =>
    have e : (fPack true c).toNat = c + 2 ^ 31 := by
      unfold fPack
      rw [BitVec.toNat_ofNat, if_pos rfl]
      exact Nat.mod_eq_of_lt (by omega)
    have hs : fSign (fPack true c) = true := by
      unfold fSign
      rw [e, show (c + 2 ^ 31) / 2 ^ 31 = 1 by omega]
      rfl
    have he : fExp (fPack true c) = c / 2 ^ 23 := by
      unfold fExp
      rw [e]
      omega
    have hf : fFrac (fPack true c) = c % 2 ^ 23 := by
      unfold fFrac
      rw [e]
      omega
    unfold fUnpack magUnits
    rw [hs, he, hf]
    by_cases h24 : c < 2 ^ 24
    · rw [if_pos h24, if_neg (by omega)]
      by_cases h23 : c < 2 ^ 23
      · rw [if_pos (by omega), Nat.mod_eq_of_lt h23]
      · have e : 2 ^ 23 + c % 2 ^ 23 = c := by omega
        rw [if_neg (by omega), show c / 2 ^ 23 - 1 = 0 by omega, pow_zero, Nat.mul_one, e]
    · rw [if_neg h24, if_neg (by omega), if_neg (by omega)]

/-- Patterns in units of 2^-149. -/
abbrev units (w : Word) : Nat := magUnits w.toNat

theorem units_mono {a b : Word} (h : a ≤ b) : units a ≤ units b := magUnits_strictMono.monotone (BitVec.le_def.1 h)

theorem units_kONE : units kONE = 2 ^ 149 := by decide +kernel

theorem lt_inf_of_le_one {y : Word} (h : y ≤ kONE) : y.toNat < 0x7F800000 :=
  Nat.lt_of_le_of_lt (kONE_toNat ▸ BitVec.le_def.1 h) (by norm_num)

/-- The first product of `pq`, at most `C1`. -/
theorem pq_product_le {y : Word} (h : y ≤ kONE) : fmul kC1 y ≤ kC1 := by
  have h1 := fmul_mono (a := kC1) (by decide) (by decide) h (by decide)
  have h2 : fmul kC1 kONE = kC1 := by decide +kernel
  exact BitVec.le_trans h1 (by rw [h2]; exact BitVec.le_refl _)

/-- The magnitude of `num`, which is zero or negative. -/
def pqNumMag (y : Word) : Nat := roundMag (units kC1 - units (fmul kC1 y)) 1

theorem pqNumMag_le (y : Word) : pqNumMag y ≤ kC1.toNat := by
  have h := roundMag_mono (num := units kC1 - units (fmul kC1 y)) (den := 1) (num' := units kC1 * 1) (den' := 1)
    (by decide) (by decide) (by omega)
  rwa [show roundMag (units kC1 * 1) 1 = kC1.toNat from roundMag_magUnits (by decide) (by decide)] at h

theorem pqNumMag_anti {y y' : Word} (h : y ≤ y') (h' : y' ≤ kONE) : pqNumMag y' ≤ pqNumMag y := by
  have h1 := units_mono (fmul_mono (a := kC1) (by decide) (by decide) h (BitVec.le_trans h' (by decide)))
  exact roundMag_mono (by decide) (by decide) (by omega)

/-- `num` of `pq`, unpacked: its sign is set unless it is zero. -/
theorem fUnpack_pqNum {y : Word} (h : y ≤ kONE) : ∃ s, fUnpack (pqNum y) = .fin s (magUnits (pqNumMag y)) ∧
    (s = false → pqNumMag y = 0) := by
  have hle := pq_product_le h
  have hlt : (fmul kC1 y).toNat < 0x7F800000 :=
    Nat.lt_of_le_of_lt (BitVec.le_def.1 hle) (by decide)
  have hu := units_mono hle
  have hn : fUnpack (fneg kC1) = .fin true (units kC1) := by decide +kernel
  have hm : pqNumMag y < 0x7F800000 := Nat.lt_of_le_of_lt (pqNumMag_le y) (by decide)
  have hadd : pqNum y = if units (fmul kC1 y) < units kC1 then fPack true (pqNumMag y) else fZero := by
    unfold pqNum fsub fadd
    rw [fUnpack_of_lt hlt, hn]
    simp only [Bool.false_eq_true, if_false]
    rw [if_neg (Nat.not_lt.2 hu)]
    rfl
  rw [hadd]
  by_cases hc : units (fmul kC1 y) < units kC1
  · rw [if_pos hc]
    exact ⟨true, fUnpack_fPack true hm, fun h => by cases h⟩
  · have h0 : pqNumMag y = 0 := by
      unfold pqNumMag
      rw [Nat.sub_eq_zero_of_le (Nat.le_of_not_lt hc)]
      decide
    rw [if_neg hc, h0]
    exact ⟨false, by decide, fun _ => rfl⟩

/-- `den` of `pq` is a finite number of at least 1. -/
theorem pqDen_bounds {y : Word} (h : y ≤ kONE) : (pqDen y).toNat < 0x7F800000 ∧ 2 ^ 149 ≤ units (pqDen y) := by
  have hp : fmul kC3 y ≤ fInf := fmul_le_fInf (by decide) (by decide) (BitVec.le_trans h (by decide))
  have h1 : fmul kC3 y ≤ fmul kC3 kONE := fmul_mono (by decide) (by decide) h (by decide)
  have h2 : pqDen y ≤ pqDen kONE :=
    fadd_mono (BitVec.le_refl _) (by decide) h1 (fmul_le_fInf (by decide) (by decide) (by decide))
  have h3 : fadd kONE fZero ≤ pqDen y :=
    fadd_mono (BitVec.le_refl _) (by decide) (BitVec.le_def.2 (Nat.zero_le _)) hp
  have h4 : fadd kONE fZero = kONE := by decide +kernel
  have h5 : (pqDen kONE).toNat < 0x7F800000 := by decide +kernel
  rw [h4] at h3
  exact ⟨Nat.lt_of_le_of_lt (BitVec.le_def.1 h2) h5, units_kONE ▸ units_mono h3⟩

theorem pqDen_mono {y y' : Word} (h : y ≤ y') (h' : y' ≤ kONE) : pqDen y ≤ pqDen y' :=
  fadd_mono (BitVec.le_refl _) (by decide)
    (fmul_mono (by decide) (by decide) h (BitVec.le_trans h' (by decide)))
    (fmul_le_fInf (by decide) (by decide) (BitVec.le_trans h' (by decide)))

/-- The magnitude of the quotient. -/
def pqQuotMag (y : Word) : Nat := roundMag (magUnits (pqNumMag y) * 2 ^ 149) (units (pqDen y))

theorem pqQuotMag_le {y : Word} (h : y ≤ kONE) : pqQuotMag y ≤ kC1.toNat := by
  have hd := (pqDen_bounds h).2
  have hn := magUnits_strictMono.monotone (pqNumMag_le y)
  have hm := roundMag_mono (num := magUnits (pqNumMag y) * 2 ^ 149) (den := units (pqDen y))
    (num' := magUnits kC1.toNat * 1) (den' := 1) (by omega) (by decide)
    (by rw [Nat.mul_one, Nat.mul_one]; exact Nat.mul_le_mul hn hd)
  rwa [show roundMag (magUnits kC1.toNat * 1) 1 = kC1.toNat from roundMag_magUnits (by decide) (by decide)] at hm

theorem pqQuotMag_anti {y y' : Word} (h : y ≤ y') (h' : y' ≤ kONE) : pqQuotMag y' ≤ pqQuotMag y := by
  have hd := (pqDen_bounds (BitVec.le_trans h h')).2
  have hd' := (pqDen_bounds h').2
  refine roundMag_mono (by omega) (by omega) ?_
  exact Nat.mul_le_mul (Nat.mul_le_mul_right _ (magUnits_strictMono.monotone (pqNumMag_anti h h')))
    (units_mono (pqDen_mono h h'))

/-- `t` of `pq`: 1 less the quotient's magnitude, rounded once. -/
theorem pqT_eq {y : Word} (h : y ≤ kONE) : pqT y = fRound false (2 ^ 149 - magUnits (pqQuotMag y)) 1 := by
  obtain ⟨s, hs, hs0⟩ := fUnpack_pqNum h
  obtain ⟨hlt, hden⟩ := pqDen_bounds h
  have hq : pqQuotMag y < 0x7F800000 := Nat.lt_of_le_of_lt (pqQuotMag_le h) (by decide)
  have hdiv : fdiv (pqNum y) (pqDen y) = fPack s (pqQuotMag y) := by
    unfold fdiv
    rw [hs, fUnpack_of_lt hlt]
    simp only
    rw [if_neg (Nat.ne_of_gt (Nat.lt_of_lt_of_le (by positivity) hden))]
    cases s <;> rfl
  have hM : magUnits (pqQuotMag y) < 2 ^ 149 :=
    Nat.lt_of_le_of_lt (magUnits_strictMono.monotone (pqQuotMag_le h)) (by decide +kernel)
  have h1 : fUnpack kONE = .fin false (2 ^ 149) := by decide +kernel
  unfold pqT fadd
  rw [hdiv, h1, fUnpack_fPack s hq]
  cases s with
  | false =>
    have h0 : pqQuotMag y = 0 := by
      unfold pqQuotMag
      rw [hs0 rfl, show magUnits 0 = 0 by decide, Nat.zero_mul]
      unfold roundMag roundEven
      simp [Nat.lt_of_lt_of_le (show 0 < 2 ^ 149 by positivity) hden]
    rw [h0, show magUnits 0 = 0 by decide]
    rfl
  | true =>
    simp only [Bool.false_eq_true, if_false]
    rw [if_pos hM]

/-- `t` is monotone in the inner value (40_transfer.md R97). -/
theorem pqT_mono {y y' : Word} (h : y ≤ y') (h' : y' ≤ kONE) : pqT y ≤ pqT y' := by
  rw [pqT_eq (BitVec.le_trans h h'), pqT_eq h', BitVec.le_def, fRound_toNat _ _ (by decide),
    fRound_toNat _ _ (by decide)]
  have hm := magUnits_strictMono.monotone (pqQuotMag_anti h h')
  refine roundMag_mono (by decide) (by decide) (Nat.mul_le_mul_right _ ?_)
  exact Nat.sub_le_sub_left hm _

theorem pqT_one : pqT kONE = kONE := by decide +kernel

theorem pqT_zero : pqT fZero = 0x3F560000 := by decide +kernel

theorem pqT_le_one {y : Word} (h : y ≤ kONE) : pqT y ≤ kONE := by
  have := pqT_mono h (BitVec.le_refl _)
  rwa [pqT_one] at this

end Sys2Proof.Machine
end

