-- ==== Sys2Proof/Tests/Slice0.lean ====
section
/-! SUPPORT. Tests: the smoke tests of WellFormed, a written-out word for each command, small vectors of
spec/95_test_vectors.md (the vector's name stands in the test's comment), and for each statement with hypotheses a
witness that meets them. -/

-- One test after the other: elaborated all at once, they ask for more threads than the checks' memory limit allows.
set_option Elab.async false

namespace Sys2Proof.Tests

open Machine

/-! ## Well-formedness: an ill-formed term for each check -/

/-- Width 3 is not 1, 2 or 4 (30_encoding.md R82). -/
theorem test_wf_width : (HostLine.rdb .sdr 0 3).wellFormed = false ∧ (HostLine.wrb .sdr 0 8 0).wellFormed = false := by
  decide

/-- An offset that is no multiple of the width (20_memory.md R62). -/
theorem test_wf_align : (HostLine.rdb .hdr 6 4).wellFormed = false ∧ (HostLine.wrb .input 1 2 0).wellFormed = false := by
  decide

/-- A value wider than the access (30_encoding.md R82). -/
theorem test_wf_value : (HostLine.wrb .sdr 0 1 0x100).wellFormed = false := by decide

/-- Legal lines. -/
theorem test_wf_legal : (HostLine.wrb .sdr 3 1 0xFF).wellFormed = true ∧ (HostLine.rdb .hdr 6 2).wellFormed = true ∧
    (HostLine.cmd .runSl).wellFormed = true := by decide

/-! ## Decoding: words written out bit by bit, `RSV` (31:8) then `OP` (7:0) of 30_encoding.md R78 -/

theorem test_decode_control : decode 0b00000000000000000000000000000000#32 = .ok .nop ∧
    decode 0b00000000000000000000000000000001#32 = .ok .clr := ⟨rfl, rfl⟩

theorem test_decode_transfer : decode 0b00000000000000000000000000010000#32 = .ok .gdec ∧
    decode 0b00000000000000000000000000010001#32 = .ok .genc ∧
    decode 0b00000000000000000000000000010010#32 = .ok .pqenc := ⟨rfl, rfl, rfl⟩

theorem test_decode_gamut : decode 0b00000000000000000000000000100000#32 = .ok .nscale ∧
    decode 0b00000000000000000000000000100001#32 = .ok .mat3 ∧
    decode 0b00000000000000000000000000100010#32 = .ok .clamp ∧
    decode 0b00000000000000000000000000100011#32 = .ok .luma := ⟨rfl, rfl, rfl, rfl⟩

theorem test_decode_quantise : decode 0b00000000000000000000000000110000#32 = .ok .q8 ∧
    decode 0b00000000000000000000000000110001#32 = .ok .q10a2 ∧
    decode 0b00000000000000000000000000110010#32 = .ok .q16 := ⟨rfl, rfl, rfl⟩

theorem test_decode_pack : decode 0b00000000000000000000000000111000#32 = .ok .pk8 ∧
    decode 0b00000000000000000000000000111001#32 = .ok .pk10 ∧
    decode 0b00000000000000000000000000111010#32 = .ok .pk16 := ⟨rfl, rfl, rfl⟩

theorem test_decode_memory : decode 0b00000000000000000000000001000000#32 = .ok .ldpx ∧
    decode 0b00000000000000000000000001000001#32 = .ok .sts ∧
    decode 0b00000000000000000000000001000010#32 = .ok .sth10 ∧
    decode 0b00000000000000000000000001000011#32 = .ok .sth16 := ⟨rfl, rfl, rfl, rfl⟩

theorem test_decode_light : decode 0b00000000000000000000000001010000#32 = .ok .cllclr ∧
    decode 0b00000000000000000000000001010001#32 = .ok .cllacc ∧
    decode 0b00000000000000000000000001010010#32 = .ok .cllfin := ⟨rfl, rfl, rfl⟩

theorem test_decode_frame : decode 0b00000000000000000000000010000000#32 = .ok .runGm ∧
    decode 0b00000000000000000000000010000001#32 = .ok .runSl := ⟨rfl, rfl⟩

/-- X-1, X-2: illegal words, rejected by name. -/
theorem test_decode_illegal : decode 0x00000110#32 = .error (.reservedBits 1) ∧
    decode 0x00000002#32 = .error (.unknownOpcode 2) ∧ decode 0x00000013#32 = .error (.unknownOpcode 0x13) ∧
    decode 0x00000082#32 = .error (.unknownOpcode 0x82) ∧
    decode 0xFFFFFFFF#32 = .error (.reservedBits 0xFFFFFF) := ⟨rfl, rfl, rfl, rfl, rfl⟩

/-! ## Helpers -/

/-- A value read from the next state, if there is one. -/
def after {α : Type} (r : Result) (f : State → α) : Option α :=
  match r with
  | .next t => some (f t)
  | .fault _ | .refused _ => none

/-- `POW32_CR` as the vectors use it. For the exponent `G22` the values are those the vectors T-1, T-3, T-5 and S-4
write (its exact evaluation is too long for the kernel); for the others it is computed. -/
def vectorPow (x y : Word) : Word :=
  if y = kG22 then
    if x = 0x3F000000 then 0x3E5EDC66 else if x = 0x40000000 then 0x4093088D
    else if x = 0x40800000 then 0x41A8E5A3 else if x = fInf then fInf else x
  else pow32cr x y

/-- The vectors' configuration: `MAX_PIXELS = 4`. -/
def four : Config := ⟨{ someAdmissible.params with lastPixel := 3, pow32 := vectorPow }, matR14⟩

/-- Reset state with lanes in `V`. -/
def withV (v : Lanes Word) : State := { State.reset with v := v }

/-- Reset state with lanes in `Q`. -/
def withQ (q : Lanes Half) : State := { State.reset with q := q }

/-- Reset state with a pixel index and a packed word. -/
def withW (idx : Word) (w : DWord) : State := { State.reset with idx := idx, w := w }

/-! ## Commands, one step each -/

/-- X-7. -/
theorem test_nop : after (exec .nop (withW 3 7)) id = some (withW 3 7) := by decide

/-- X-6: `STATUS = 0xA` and an enabled interrupt. -/
theorem test_clr :
    after (exec .clr { State.reset with done := true, nonfin := true, irqEn := 1, pixdone := 9 })
      (fun t => (t.statusWord, t.irq, t.pixdone)) = some (0, false, 9) := by decide

/-- T-5b and the kept alpha: NaN, −0.5, −infinity. -/
theorem test_gdec : after (exec .gdec (withV ⟨0x7FC00000, 0xBF000000, 0xFF800000, 0xBF000000⟩)) (·.v) =
    some ⟨0, 0, 0, 0xBF000000⟩ := by decide +kernel

/-- T-5b: +0, −0, NaN. -/
theorem test_genc : after (exec .genc (withV ⟨0x00000000, 0x80000000, 0x7FC00000, 0x40000000⟩)) (·.v) =
    some ⟨0, 0, 0, 0x40000000⟩ := by decide +kernel

/-- T-1, T-3 through the guard of `gdec`. -/
theorem test_gdec_values : gdec four 0x3F000000 = 0x3E5EDC66 ∧ gdec four 0x40000000 = 0x4093088D := by decide +kernel

/-- T-6, T-9, T-13, T-16: code values of `pq`. -/
theorem test_pqenc_values : pq four 0x00000000 = 0x354436E8 ∧ pq four 0x358637BD = 0x3CB003C9 ∧
    pq four 0x3F000000 = 0x3F6D3233 ∧ pq four 0xBF800000 = 0x354436E8 := by decide +kernel

/-- T-9: the intermediates `num`, `den`, `t`. -/
theorem test_pqenc_stages : pqNum 0x3DE2BC46 = 0xBE15668E ∧ pqDen 0x3DE2BC46 = 0x404468F3 ∧
    pqT 0x3DE2BC46 = 0x3F73D459 := by decide +kernel

/-- G-2. -/
theorem test_nscale : after (exec .nscale (withV ⟨0x41A8E5A3, 0x4093088D, 0x3E5EDC66, 0x3F000000⟩)) (·.v) =
    some ⟨0x3EDB6E57, 0x3DBF069B, 0x3B90C53D, 0x3F000000⟩ := by decide +kernel

/-- G-3: underflow, infinity, NaN. -/
theorem test_nscale_edges : after (exec .nscale (withV ⟨0x00000001, 0x7F800000, 0x7FC00000, 0⟩)) (·.v) =
    some ⟨0x00000000, 0x7F800000, 0x7FC00000, 0⟩ := by decide +kernel

/-- G-8: the two products of lanes r, g are added first. -/
theorem test_mat3_order : after (exec .mat3 (withV ⟨0x3F1A9A81, 0x3F202F35, 0x3D8633FF, 0x11111111⟩)) (·.v) =
    some ⟨0x3ED8B21C, 0x3F47ADE0, 0x3DBC38CA, 0x11111111⟩ := by decide +kernel

/-- G-6: lane g alone picks out column 1 of `MAT`. -/
theorem test_mat3_column : after (exec .mat3 (withV ⟨0, 0x3CA64C30, 0, 0⟩)) (·.v) =
    some ⟨0x3AB7ECB5, 0x3C98EB36, 0x3970F9C1, 0⟩ := by decide +kernel

/-- G-10. -/
theorem test_clamp : after (exec .clamp (withV ⟨0x7FC00000, 0x7F800000, 0xBF000000, 0x40000000⟩)) (·.v) =
    some ⟨0x00000000, 0x3F800000, 0x00000000, 0x3F800000⟩ := by decide +kernel

/-- G-11. -/
theorem test_clamp_edges : after (exec .clamp (withV ⟨0x80000000, 0x00000001, 0x3F7FFFFF, 0x3F800001⟩)) (·.v) =
    some ⟨0x00000000, 0x00000001, 0x3F7FFFFF, 0x3F800000⟩ := by decide +kernel

/-- G-13. -/
theorem test_luma : after (exec .luma (withV ⟨0x3F000000, 0x3E800000, 0x3E000000, 0⟩)) (·.y) = some 3083 := by
  decide +kernel

/-- G-16: the inner clamp. -/
theorem test_luma_clamps : after (exec .luma (withV ⟨0x40000000, 0xBF800000, 0x7FC00000, 0⟩)) (·.y) = some 2627 := by
  decide +kernel

/-- Q-1, Q-2, Q-4, Q-10. -/
theorem test_q8 : after (exec .q8 (withV ⟨0x3F000000, 0x3DCCCCCD, 0x3E2AAAAA, 0x3F7F7CEE⟩)) (·.q) =
    some ⟨128, 26, 42, 254⟩ := by decide +kernel

/-- S-4: colour to 10 bits, alpha to 2. -/
theorem test_q10a2 : after (exec .q10a2 (withV ⟨0x3F5CBA0C, 0x3F576226, 0x3F18A72C, 0x3F000000⟩)) (·.q) =
    some ⟨882, 861, 610, 2⟩ := by decide +kernel

/-- Q-9, Q-6: the 2-bit alpha at its boundary, and a 10-bit lane. -/
theorem test_q10a2_edges : after (exec .q10a2 (withV ⟨0x3F555555, 0x3F555554, 0x3B008081, 0x3F555554⟩)) (·.q) =
    some ⟨853, 852, 2, 2⟩ := by decide +kernel

/-- Q-7, Q-8, Q-5: the rounding is of the rounded product. -/
theorem test_q16 : after (exec .q16 (withV ⟨0x3F707C70, 0x3F502E50, 0x3F335533, 0x3EFFFFFF⟩)) (·.q) =
    some ⟨61564, 53294, 45909, 32767⟩ := by decide +kernel

/-- K-2. -/
theorem test_pk8 : after (exec .pk8 (withQ ⟨0x1FF, 0x100, 0xFFFF, 0x0001⟩)) (·.w) = some 0x01FF00FF := by
  decide +kernel

/-- K-3. -/
theorem test_pk10 : after (exec .pk10 (withQ ⟨882, 861, 610, 2⟩)) (·.w) = some 0xA62D7772 := by decide +kernel

/-- K-5: fields truncated. -/
theorem test_pk10_truncates : after (exec .pk10 (withQ ⟨0xFFFF, 0xFFFF, 0xFFFF, 0xFFFF⟩)) (·.w) =
    some 0x00000000FFFFFFFF := by decide +kernel

/-- K-7. -/
theorem test_pk16 : after (exec .pk16 (withQ ⟨1, 2, 3, 4⟩)) (·.w) = some 0x0004000300020001 := by decide +kernel

/-- M-2: little-endian lanes, payload kept, `NONFIN` set. -/
theorem test_ldpx :
    let s := { State.reset with inBuf := [(0, 0), (1, 0), (2, 0xC0), (3, 0x7F), (4, 0), (5, 0), (6, 0x80), (7, 0x7F),
      (8, 0), (9, 0), (10, 0x80), (11, 0xFF), (12, 1), (13, 0), (14, 0x80), (15, 0x7F)] }
    ((loadPixel four s).v, (loadPixel four s).nonfin) =
      ((⟨0x7FC00000, 0x7F800000, 0xFF800000, 0x7F800001⟩ : Lanes Word), true) := by decide +kernel

/-- M-8: the index check. -/
theorem test_ldpx_index : loadPixel four (withW 0xFFFFFFFF 0) = (withW 0xFFFFFFFF 0).raise .idx 0xFFFFFFFF := by
  decide +kernel

/-- M-3: `SDR[4..7] = FF FF 80 80`. -/
theorem test_sts : (storePixel four .sdr 4 (withW 1 0xDEADBEEF8080FFFF)).sdrBuf =
    [(4, 0xFF), (5, 0xFF), (6, 0x80), (7, 0x80)] := by decide +kernel

/-- M-4: `HDR[4..7] = 72 77 2D A6`. -/
theorem test_sth10 : (storePixel four .hdr 4 (withW 1 0xA62D7772)).hdrBuf =
    [(4, 0x72), (5, 0x77), (6, 0x2D), (7, 0xA6)] := by decide +kernel

/-- M-5: `HDR[8..15]`. -/
theorem test_sth16 : (storePixel four .hdr 8 (withW 1 0x800098A7D761DCB9)).hdrBuf =
    [(8, 0xB9), (9, 0xDC), (10, 0x61), (11, 0xD7), (12, 0xA7), (13, 0x98), (14, 0x00), (15, 0x80)] := by decide +kernel

/-- M-7: at `CAP` nothing is stored. -/
theorem test_sth16_index : storePixel four .hdr 8 (withW 4 7) = (withW 4 7).raise .idx 4 := by decide +kernel

/-- L-1. -/
theorem test_cllclr :
    after (exec .cllclr { State.reset with cllMax := 5, cllSum := 6, cllCnt := 2, maxcll := 9, maxpall := 8 })
      (fun t => (t.cllMax, t.cllSum, t.cllCnt, t.maxcll, t.maxpall)) = some (0, 0, 0, 9, 8) := by decide

/-- L-3, its last accumulation. -/
theorem test_cllacc : after (exec .cllacc { State.reset with y := 2278, cllMax := 233, cllSum := 284, cllCnt := 2 })
    (fun t => (t.cllMax, t.cllSum, t.cllCnt)) = some (2278, 2562, 3) := by decide

/-- L-6: the last count. -/
theorem test_cllacc_full : after (exec .cllacc { State.reset with y := 1, cllCnt := 0xFFFFFFFF })
    (fun t => (t.err, t.errcode, t.errinfo, t.cllCnt)) = some (true, 6, 0x51, 0xFFFFFFFF) := by decide

/-- L-2: 233 and 0. -/
theorem test_cllfin : after (exec .cllfin { State.reset with cllMax := 233, cllSum := 233, cllCnt := 2 })
    (fun t => (t.maxcll, t.maxpall)) = some (233, 117) := by decide

/-- L-5: nothing accumulated. -/
theorem test_cllfin_empty : after (exec .cllfin { State.reset with maxcll := 7 })
    (fun t => (t.errcode, t.errinfo, t.maxcll)) = some (6, 0x52, 7) := by decide

/-- Reset state with a frame's size and declared count. -/
def withFrame (w h n : Word) : State := { State.reset with width := w, height := h, inCount := n }

/-- F-4, F-6: the declared count differs, the information saturates. -/
theorem test_runGm_size : startFrame four .gm 0x80 (withFrame 2 1 3) = (withFrame 2 1 3).raise .size 2 ∧
    startFrame four .gm 0x80 (withFrame 0x10000 0x10000 0) =
      (withFrame 0x10000 0x10000 0).raise .size 0xFFFFFFFF := by decide +kernel

/-- F-5: beyond the capacity; and the acceptance of a frame that just fits. -/
theorem test_runGm_cap : startFrame four .gm 0x80 (withFrame 5 1 5) = (withFrame 5 1 5).raise .cap 5 ∧
    (startFrame four .gm 0x80 (withFrame 2 2 4)).engine = some ⟨.gm, 4, []⟩ := by decide +kernel

/-- F-3: an empty frame. -/
theorem test_runSl_dim : after (exec .runSl (withFrame 2 0 0)) (fun t => (t.errcode, t.errinfo, t.statusWord)) =
    some (2, 0x81, 0x4) := by decide +kernel

/-- P2, line 13: acceptance clears the accumulators. -/
theorem test_runSl_accepts : (startFrame four .sl 0x81 { withFrame 2 1 2 with cllCnt := 3, done := true }).statusWord = 1 ∧
    (startFrame four .sl 0x81 { withFrame 2 1 2 with cllCnt := 3, done := true }).cllCnt = 0 := by decide +kernel

/-! ## Pixels, the engine, the bus -/

/-- S-4. -/
theorem test_pixel_s4 : sdrPx ⟨0x40800000, 0x40000000, 0x3F000000, 0x3F000000⟩ = 0x8080FFFF ∧
    hdr10Px four ⟨0x40800000, 0x40000000, 0x3F000000, 0x3F000000⟩ = 0xA62D7772 ∧
    yPx four ⟨0x40800000, 0x40000000, 0x3F000000, 0x3F000000⟩ = 2278 := by decide +kernel

/-- S-1, single-layer pixel and measure. -/
theorem test_pixel_s1 : hdr16Px four ⟨kONE, kONE, kONE, kONE⟩ = 0xFFFF934A9C798BAE ∧
    yPx four ⟨kONE, kONE, kONE, kONE⟩ = 233 := by decide +kernel

/-- S-9: non-finite lanes. -/
theorem test_pixel_s9 : hdr10Px four ⟨0x7FC00000, 0x7F800000, 0xFF800000, 0x7FC00000⟩ = 0x3FFFFFFF ∧
    yPx four ⟨0x7FC00000, 0x7F800000, 0xFF800000, 0x7FC00000⟩ = 10000 := by decide +kernel

/-- F-2: completion after samples S-1 and S-2. -/
theorem test_completion :
    after (completionStep ⟨.sl, 2, [0, 1]⟩ { withFrame 2 1 2 with cllMax := 233, cllSum := 233, cllCnt := 2 })
      (fun t => (t.maxcll, t.maxpall, t.statusWord)) = some (233, 117, 2) := by decide +kernel

/-- X-2 through the bus: an illegal word. -/
theorem test_bus_illegal : after (step { State.reset with host := [writeRegOp .cmd 0x13] })
    (fun t => (t.errcode, t.errinfo, t.response)) = some (1, 0x13, some .ok) := by decide +kernel

/-- X-3: a command is dropped while `ERR = 1`. -/
theorem test_bus_dropped :
    after (step { State.reset with host := [cmdOp .clamp], err := true, errcode := 1, v := ⟨0x40000000, 0, 0, 0⟩ })
      (fun t => (t.v.r, t.errcode, t.response)) = some (0x40000000, 1, some .ok) := by decide +kernel

/-- X-12: a 16-bit register keeps the low half. -/
theorem test_bus_masks : after (hostWrite .reg 0x60 4 0x12345678 State.reset) (fun t => t.q.r) = some 0x5678 := by
  decide +kernel

/-- M-9: a one-byte and a two-byte read of `HDR`. -/
theorem test_buffer_reads :
    let s := { State.reset with hdrBuf := [(4, 0x72), (5, 0x77), (6, 0x2D), (7, 0xA6)] }
    s.memRead .hdr 4 1 = 0x72 ∧ s.memRead .hdr 6 2 = 0xA62D := by decide +kernel

/-- `WAIT DONE` of 30_encoding.md R82: a read of `STATUS` while neither flag is set (mid-frame it shows `BUSY` and
`NONFIN`) leaves the loop waiting, and one that shows a flag ends it. -/
theorem test_wait_done :
    after (performHostOp .waitDone { State.reset with nonfin := true, engine := some ⟨.gm, 1, []⟩ })
      (fun t => (t.host, t.response)) = some ([.waitDone], some (.data 9)) ∧
    after (step { State.reset with host := [.waitDone], done := true }) (fun t => (t.host, t.response)) =
      some ([], some (.data 2)) := by decide +kernel

/-- The encoding of a program (30_encoding.md R82): offsets of 10_state.md R22, match words of R78. -/
theorem test_program_encoding :
    programEncoding [.wr .width 2, .rd .status, .cmd .runSl, .waitDone] = [(0x18, 2), (0x04, 0x81)] := by decide

/-- The macro `PIXHDR16` of 30_encoding.md R83 as `CMD` writes. -/
theorem test_macro : (lineOps (.pseudo .pixHdr16)).map (fun op => match op with | .write _ _ _ x => x | _ => 0) =
    [0x10, 0x20, 0x21, 0x22, 0x23, 0x51, 0x12, 0x32, 0x3A, 0x43] := by decide

/-! ## Witnesses: for each statement with hypotheses, a state and operands that meet them

`Config.here` is uninterpreted: of `MAX_PIXELS` only `1 ≤ MAX_PIXELS ≤ 2^32 − 1` is known, so frames have one pixel
and the boundary pixel is `MAX_PIXELS − 1`. -/

/-- A frame of one pixel that runs. -/
def running (m : EngMode) : State := { withFrame 1 1 1 with engine := some ⟨m, 1, []⟩ }

/-- A frame of two pixels that runs. -/
def runningTwo (m : EngMode) : State := { withFrame 2 1 2 with engine := some ⟨m, 2, []⟩ }

/-- The last pixel index of the instance. -/
def lastIdx : Word := BitVec.ofNat 32 (Config.here.maxPixels - 1)

theorem lastIdx_toNat : lastIdx.toNat = Config.here.maxPixels - 1 := by
  have := maxPixels_lt Config.here
  rw [lastIdx, BitVec.toNat_ofNat, Nat.mod_eq_of_lt (by omega)]

theorem lastIdx_lt : lastIdx.toNat < Config.here.maxPixels := by
  have := maxPixels_pos Config.here
  rw [lastIdx_toNat]; omega

/-- A two-pixel frame in the vectors' configuration satisfies the invariant. -/
theorem runningTwo_inv (m : EngMode) : Inv four (runningTwo m) where
  bufWf := fun b => by cases b <;> exact List.Pairwise.nil
  bufWithin := fun b => by cases b <;> exact fun p hp => absurd hp (List.not_mem_nil)
  errClear := fun _ => ⟨rfl, rfl⟩
  errCode := fun h => by cases h
  sum := Nat.le_refl 0
  mean := Nat.le_refl 0
  running := fun e he => by
    cases he
    exact ⟨rfl, rfl, rfl, rfl, rfl, Nat.succ_pos 1, show 2 ≤ four.maxPixels by decide, List.Pairwise.nil, by simp, rfl,
      fun _ => rfl⟩

/-- A one-pixel frame satisfies the invariant in every configuration. -/
theorem running_inv (c : Config) (m : EngMode) : Inv c (running m) where
  bufWf := fun b => by cases b <;> exact List.Pairwise.nil
  bufWithin := fun b => by cases b <;> exact fun p hp => absurd hp (List.not_mem_nil)
  errClear := fun _ => ⟨rfl, rfl⟩
  errCode := fun h => by cases h
  sum := Nat.le_refl 0
  mean := Nat.le_refl 0
  running := fun e he => by
    cases he
    exact ⟨rfl, rfl, rfl, rfl, rfl, Nat.succ_pos 0, maxPixels_pos c, List.Pairwise.nil, by simp, rfl, fun _ => rfl⟩

/-- A state that is about to run a one-pixel frame satisfies the invariant. -/
theorem oneFrame_inv (c : Config) : Inv c (withFrame 1 1 1) where
  bufWf := fun b => by cases b <;> exact List.Pairwise.nil
  bufWithin := fun b => by cases b <;> exact fun p hp => absurd hp (List.not_mem_nil)
  errClear := fun _ => ⟨rfl, rfl⟩
  errCode := fun h => by cases h
  sum := Nat.le_refl 0
  mean := Nat.le_refl 0
  running := fun e he => by cases he

/-! ### Dispatch -/

/-- A state with a `CMD` write waiting, in the middle of other work. -/
def pending (w : Word) : State := { withFrame 1 1 1 with host := [writeRegOp .cmd w, .waitDone], done := true }

theorem witness_StepRunsTheDecodedCommand :
    (CmdPending (pending 0x00) 0x00 [.waitDone] ∧ (pending 0x00).engine = none ∧ (pending 0x00).err = false ∧
      Instr.nop.wellFormed = true ∧ decode 0x00 = .ok .nop) ∧
    (CmdPending (pending 0x81) 0x81 [.waitDone] ∧ (pending 0x81).engine = none ∧ (pending 0x81).err = false ∧
      Instr.runSl.wellFormed = true ∧ decode 0x81 = .ok .runSl) :=
  ⟨⟨⟨rfl, rfl, rfl⟩, rfl, rfl, rfl, rfl⟩, ⟨rfl, rfl, rfl⟩, rfl, rfl, rfl, rfl⟩

theorem witness_IllegalWordRaisesIllcmd :
    (CmdPending (pending 0x02) 0x02 [.waitDone] ∧ (pending 0x02).engine = none ∧ (pending 0x02).err = false ∧
      ∀ i : Instr, (0x02 : Word) ≠ encode i) ∧
    (CmdPending (pending 0x110) 0x110 [.waitDone] ∧ (pending 0x110).engine = none ∧ (pending 0x110).err = false ∧
      ∀ i : Instr, (0x110 : Word) ≠ encode i) :=
  ⟨⟨⟨rfl, rfl, rfl⟩, rfl, rfl, fun i => by cases i <;> decide⟩, ⟨rfl, rfl, rfl⟩, rfl, rfl,
    fun i => by cases i <;> decide⟩

/-- The same state with an error recorded. -/
def failed (w : Word) : State := { pending w with err := true, errcode := 1, errinfo := 0x110 }

theorem witness_ErrDropsAllCommandsButClr :
    (CmdPending (failed 0x10) 0x10 [.waitDone] ∧ (failed 0x10).engine = none ∧ (failed 0x10).err = true ∧
      (0x10 : Word) ≠ encode .clr) ∧
    ((failed 0x10).err = true ∧ (failed 0x10).engine = none ∧ (failed 0x10).rst = false ∧ Reg.width ≠ .cmd) ∧
    ((failed 0x10).err = true ∧ (failed 0x10).engine = none ∧ (failed 0x10).rst = false ∧
      bufAccessOk Config.here .sdr 0 4 = true ∧ bufAccessOk Config.here .hdr (8 * Config.here.maxPixels - 1) 1 = true) := by
  have := maxPixels_pos Config.here
  refine ⟨⟨⟨rfl, rfl, rfl⟩, rfl, rfl, by decide⟩, ⟨rfl, rfl, rfl, by decide⟩, rfl, rfl, rfl, ?_, ?_⟩ <;>
    simp only [bufAccessOk, size_sdr, size_hdr] <;> simp [Nat.mod_one] <;> omega

/-- Each cause but `E_CAP` (whose frame need not exist when `MAX_PIXELS` is `2^32 − 1`). -/
theorem witness_ErrorsArePrecise :
    (State.reset.err = false ∧ after (exec .runGm State.reset) (·.err) = some true) ∧
    ((withFrame 2 1 3).err = false ∧ after (exec .runSl (withFrame 2 1 3)) (·.err) = some true) ∧
    ((withW 0xFFFFFFFF 0).err = false ∧ after (exec .ldpx (withW 0xFFFFFFFF 0)) (·.err) = some true) ∧
    after (exec .cllacc { State.reset with cllCnt := 0xFFFFFFFF }) (·.err) = some true ∧
    after (exec .cllfin State.reset) (·.err) = some true := by
  refine ⟨⟨rfl, rfl⟩, ⟨rfl, rfl⟩, ⟨rfl, ?_⟩, rfl, rfl⟩
  have h : exec .ldpx (withW 0xFFFFFFFF 0) = .next ((withW 0xFFFFFFFF 0).raise .idx 0xFFFFFFFF) :=
    congrArg _ (if_pos (maxPixels_le Config.here))
  rw [h]; rfl

/-- A word that is dropped, and `CLR`'s. -/
theorem witness_FirstErrorStaysRecorded :
    ((failed 0x10).err = true ∧ after (step (failed 0x10)) (·.err) = some true) ∧
    ((failed 0x01).err = true ∧ after (step (failed 0x01)) (·.err) = some false) :=
  ⟨⟨rfl, rfl⟩, rfl, rfl⟩

/-- For each clause a state: an access by offset (`pending`), by the first and the last address of a window, by an
address in none, the loop with and without a flag and in reset, the engine, a level of `rst`, nothing, several. -/
theorem witness_StepIsOneAgentsMove :
    ((pending 0x00).rstInput = [] ∧ (pending 0x00).engine = none ∧
      (pending 0x00).host = .write .reg 4 4 0x00 :: [.waitDone]) ∧
    (0 < Config.here.params.windowSize (.buf .sdr) ∧ 255 < Config.here.params.windowSize .reg) ∧
    (∃ addr, ∀ win : Window, addr < Config.here.params.windowBase win ∨
      Config.here.params.windowBase win + Config.here.params.windowSize win ≤ addr) ∧
    (({ State.reset with host := [.waitDone], rst := true } : State).rst = true ∧
      ({ State.reset with host := [.waitDone], done := true } : State).done = true ∧
      ({ State.reset with host := [.waitDone] } : State).done = false) ∧
    ((running .gm).host = [] ∧ (running .gm).rstInput = [] ∧ (running .gm).rst = false ∧
      (running .gm).engine = some ⟨.gm, 1, []⟩) ∧
    (({ State.reset with rstInput := [true] } : State).rstInput = true :: []) ∧
    ¬((pending 0x00).host = [] ∧ (pending 0x00).rstInput = [] ∧ ((pending 0x00).engine = none ∨ (pending 0x00).rst = true)) := by
  refine ⟨⟨rfl, rfl, rfl⟩, ⟨?_, by decide⟩, ?_, ⟨rfl, rfl, rfl⟩, ⟨rfl, rfl, rfl, rfl⟩, rfl, fun h => nomatch h.1⟩
  · have := maxPixels_pos Config.here
    simp only [OpenParams.windowSize, Config.maxPixels] at *
    omega
  · let f : Window → Nat := fun w => Config.here.params.windowBase w + Config.here.params.windowSize w
    refine ⟨f .reg + f (.buf .input) + f (.buf .sdr) + f (.buf .hdr), fun win => .inr ?_⟩
    show f win ≤ _
    rcases win with _ | _ | _ | _ <;> omega

theorem witness_NopDoesNothing : (running .gm).busy = true ∧ (withFrame 1 1 1).busy = false := ⟨rfl, rfl⟩

theorem witness_ClrClearsStatusAndError : (running .sl).busy = true ∧ (failed 0x01).busy = false := ⟨rfl, rfl⟩

/-! ### Lanes -/

/-- Lanes on either side of each boundary: NaN, −0 and the smallest subnormal around 0; 1.0 and its lower neighbour. -/
theorem witness_GammaCommandsRaiseColourLanes :
    isNaN 0x7FC00000 = true ∧ fKey 0x80000000 ≤ 0 ∧ (isNaN 0x00000001 = false ∧ 0 < fKey 0x00000001) ∧
    (isNaN 0x7F800000 = false ∧ 0 < fKey 0x7F800000) := by decide +kernel

theorem witness_PqencEncodesColourLanes :
    isNaN 0xFFC00000 = true ∧ fKey 0x00000000 ≤ 0 ∧ (isNaN 0x3F800000 = false ∧ fKey 0x3F800000 ≤ fKey 0x3F800000) ∧
    (isNaN 0x7F800000 = false ∧ fKey 0x3F800000 ≤ fKey 0x7F800000) ∧
    (⟨{ someAdmissible.params with pow32 := pow32cr }, matR14⟩ : Config).params.pow32 = pow32cr :=
  ⟨by decide +kernel, by decide +kernel, by decide +kernel, by decide +kernel, rfl⟩

theorem witness_PqIsMonotoneAndFixesOne :
    PowLaws someAdmissible.params.pow32 ∧ ((0x00000000 : Word) ≤ 0x3F800000 ∧ (0x3F800000 : Word) ≤ 0x3F800000) ∧
    (isNaN 0x40000000 = false ∧ fKey 0x3F800000 ≤ fKey 0x40000000) ∧ isNaN 0x7FC00000 = true ∧ fKey 0xBF800000 ≤ 0 :=
  ⟨stepPow_laws, by decide, by decide +kernel, by decide +kernel, by decide +kernel⟩

theorem witness_NscaleMultipliesColourLanes : isNaN 0x7F800001 = true ∧ isNaN 0xFFC00000 = true := by decide +kernel

theorem witness_Mat3AppliesTheLiteralMatrix :
    (0x00000000 : Word) ≤ 0x7F800000 ∧ (0x7F7FFFFF : Word) ≤ 0x7F800000 ∧ (0x7F800000 : Word) ≤ 0x7F800000 := by decide

theorem witness_ClampClampsAllFourLanes :
    (isNaN 0x7F800001 = true ∧ fKey 0x80000000 ≤ 0) ∧ (isNaN 0x3F800000 = false ∧ fKey 0x3F800000 ≤ fKey 0x3F800000) ∧
    (isNaN 0x3F7FFFFF = false ∧ 0 < fKey 0x3F7FFFFF ∧ fKey 0x3F7FFFFF < fKey 0x3F800000) ∧
    (withV ⟨0x7FC00000, 0x7F800000, 0xBF000000, 0x40000000⟩).v = ⟨0x7FC00000, 0x7F800000, 0xBF000000, 0x40000000⟩ :=
  ⟨by decide +kernel, by decide +kernel, by decide +kernel, rfl⟩

theorem witness_LumaMeasuresTheClampedTriple :
    (fKey 0x3F800000 ≤ fKey 0x3F800000 ∧ fKey 0x3F800000 ≤ fKey 0x7F800000 ∧ isNaN 0x3F800000 = false ∧
      isNaN 0x7F800000 = false) ∧ (fKey 0x80000000 ≤ 0 ∧ fKey 0x00000000 ≤ 0) := by decide +kernel

theorem witness_QuantIsBoundedAndMonotone :
    (isNaN 0xBF800000 = false ∧ isNaN 0x00000001 = false ∧ fKey 0xBF800000 ≤ fKey 0x00000001) ∧ (isNaN 0x7FC00000 = true ∧ fKey 0x80000000 ≤ 0) ∧
    (isNaN 0x3F800000 = false ∧ fKey 0x3F800000 ≤ fKey 0x3F800000) := by decide +kernel

theorem witness_Q8QuantisesAllLanes :
    (isNaN 0x7FC00000 = true ∧ fKey 0x80000000 ≤ 0) ∧ (isNaN 0x3F800000 = false ∧ fKey 0x3F800000 ≤ fKey 0x3F800000) ∧
    (withV ⟨0x40800000, 0x40000000, 0x3F000000, 0x3F000000⟩).v = ⟨0x40800000, 0x40000000, 0x3F000000, 0x3F000000⟩ :=
  ⟨by decide +kernel, by decide +kernel, rfl⟩

theorem witness_Q10a2QuantisesColourAndAlpha :
    (isNaN 0x3E2AAAAA = false ∧ fKey 0x3E2AAAAA ≤ fKey 0x3E2AAAAA) ∧ (0x3F555555 : Word) ≤ 0x3F555555 ∧ (0x3F555555 : Word) ≤ 0x7F800000 ∧
    (withV ⟨0x3F5CBA0C, 0x3F576226, 0x3F18A72C, 0x3F000000⟩).v = ⟨0x3F5CBA0C, 0x3F576226, 0x3F18A72C, 0x3F000000⟩ :=
  ⟨by decide +kernel, by decide, by decide, rfl⟩

theorem witness_Q16QuantisesAllLanes :
    (withV ⟨0x3F707C70, 0x3F000000, 0x354436E8, 0⟩).v.r = 0x3F707C70 ∧
    (withV ⟨0x3F5CBA0C, 0x3F576226, 0x3F18A72C, 0x3F000000⟩).v = ⟨0x3F5CBA0C, 0x3F576226, 0x3F18A72C, 0x3F000000⟩ :=
  ⟨rfl, rfl⟩

theorem witness_Pk8PacksFourBytes : (withQ ⟨255, 255, 128, 128⟩).q = ⟨255, 255, 128, 128⟩ := rfl

theorem witness_Pk10PacksTheHdrWord : (withQ ⟨882, 861, 610, 2⟩).q = ⟨882, 861, 610, 2⟩ := rfl

theorem witness_Pk16PacksFourChannels :
    (withQ ⟨56505, 55137, 39079, 32768⟩).q = ⟨56505, 55137, 39079, 32768⟩ := rfl

/-! ### Memory commands -/

theorem witness_IndexBeyondCapRaisesIdx :
    Config.here.maxPixels ≤ (withW Config.here.cap 0).idx.toNat ∧ (withW lastIdx 0).idx.toNat < Config.here.maxPixels :=
  ⟨(cap_toNat Config.here).ge, lastIdx_lt⟩

theorem witness_LdpxLoadsTheSample :
    Config.here.maxPixels ≤ (withW Config.here.cap 0).idx.toNat ∧ (withW 0 0).idx.toNat < Config.here.maxPixels ∧
    (withW lastIdx 0).idx.toNat < Config.here.maxPixels :=
  ⟨(cap_toNat Config.here).ge, maxPixels_pos Config.here, lastIdx_lt⟩

theorem witness_StsStoresTheSdrPixel :
    Config.here.maxPixels ≤ (withW Config.here.cap 0x8080FFFF).idx.toNat ∧ (withW 0 0x8080FFFF).idx.toNat < Config.here.maxPixels ∧
    (withW lastIdx 0x8080FFFF).idx.toNat < Config.here.maxPixels :=
  ⟨(cap_toNat Config.here).ge, maxPixels_pos Config.here, lastIdx_lt⟩

theorem witness_Sth10StoresTheHdrWord :
    Config.here.maxPixels ≤ (withW Config.here.cap 0xA62D7772).idx.toNat ∧ (withW 0 0xA62D7772).idx.toNat < Config.here.maxPixels ∧
    (withW lastIdx 0xA62D7772).idx.toNat < Config.here.maxPixels :=
  ⟨(cap_toNat Config.here).ge, maxPixels_pos Config.here, lastIdx_lt⟩

theorem witness_Sth16StoresTheHdrPixel :
    Config.here.maxPixels ≤ (withW Config.here.cap 7).idx.toNat ∧ (withW 0 7).idx.toNat < Config.here.maxPixels ∧
    (withW lastIdx 7).idx.toNat < Config.here.maxPixels :=
  ⟨(cap_toNat Config.here).ge, maxPixels_pos Config.here, lastIdx_lt⟩

theorem witness_PackedWordBytesInMemory :
    ∃ t u, exec .pk10 (withQ ⟨882, 861, 610, 2⟩) = .next t ∧ exec .sth10 t = .next u ∧
      (withQ ⟨882, 861, 610, 2⟩).idx.toNat < Config.here.maxPixels :=
  ⟨_, _, rfl, rfl, maxPixels_pos Config.here⟩

/-! ### Light level -/

theorem witness_RdivRoundsHalfUp : (1 ≤ 1 ∧ 5 ≤ 3 * 2) ∧ 1 ≤ 0xFFFFFFFF := by decide

theorem witness_CllaccAccumulatesY :
    ({ withFrame 1 1 1 with cllCnt := 0xFFFFFFFF } : State).cllCnt = 0xFFFFFFFF ∧
    ({ withFrame 1 1 1 with cllCnt := 0xFFFFFFFE } : State).cllCnt ≠ 0xFFFFFFFF ∧
    ((withFrame 1 1 1).cllCnt ≠ 0xFFFFFFFF ∧ Inv Config.here (withFrame 1 1 1)) :=
  ⟨rfl, by decide, by decide, oneFrame_inv _⟩

/-- A state with one measure accumulated satisfies the invariant. -/
theorem accumulated_inv : Inv Config.here { withFrame 1 1 1 with cllMax := 7, cllSum := 7, cllCnt := 1 } :=
  { oneFrame_inv Config.here with
    bufWf := fun b => by cases b <;> exact List.Pairwise.nil
    bufWithin := fun b => by cases b <;> exact fun p hp => absurd hp (List.not_mem_nil)
    sum := by decide
    running := fun e he => by cases he }

theorem witness_CllfinPublishesMaxAndMean :
    (withFrame 1 1 1).cllCnt = 0 ∧
    (({ withFrame 1 1 1 with cllMax := 7, cllSum := 7, cllCnt := 1 } : State).cllCnt ≠ 0 ∧
      Inv Config.here { withFrame 1 1 1 with cllMax := 7, cllSum := 7, cllCnt := 1 }) :=
  ⟨rfl, by decide, accumulated_inv⟩

theorem witness_UniformLuminanceGivesEqualLevels : (1 ≤ 1 ∧ 1 < 2 ^ 32) ∧ 1 ≤ 2 ^ 32 - 1 ∧ 2 ^ 32 - 1 < 2 ^ 32 := by
  decide

/-! ### Frames -/

theorem witness_AcceptedFrameStartsTheEngine :
    (withFrame 1 1 1).width ≠ 0 ∧ (withFrame 1 1 1).height ≠ 0 ∧
    (withFrame 1 1 1).width.toNat * (withFrame 1 1 1).height.toNat = (withFrame 1 1 1).inCount.toNat ∧
    (withFrame 1 1 1).inCount.toNat ≤ Config.here.maxPixels :=
  ⟨by decide, by decide, rfl, maxPixels_pos _⟩

/-- Each clause, the last two on either side of a capacity of 4. -/
theorem witness_FrameChecksInOrder :
    (withFrame 2 0 0).height = 0 ∧
    ((withFrame 2 1 3).width ≠ 0 ∧ (withFrame 2 1 3).height ≠ 0 ∧
      (withFrame 2 1 3).width.toNat * (withFrame 2 1 3).height.toNat ≠ (withFrame 2 1 3).inCount.toNat) ∧
    ((withFrame 5 1 5).width ≠ 0 ∧ (withFrame 5 1 5).height ≠ 0 ∧
      (withFrame 5 1 5).width.toNat * (withFrame 5 1 5).height.toNat = (withFrame 5 1 5).inCount.toNat ∧
      four.maxPixels < (withFrame 5 1 5).width.toNat * (withFrame 5 1 5).height.toNat) ∧
    ((withFrame 2 2 4).width ≠ 0 ∧ (withFrame 2 2 4).height ≠ 0 ∧
      (withFrame 2 2 4).width.toNat * (withFrame 2 2 4).height.toNat = (withFrame 2 2 4).inCount.toNat ∧
      (withFrame 2 2 4).width.toNat * (withFrame 2 2 4).height.toNat ≤ four.maxPixels) := by
  decide

theorem witness_EngineStepIsAnAllowedMove :
    ∃ t, (running .gm).engine = some ⟨.gm, 1, []⟩ ∧ engineStep Config.here ⟨.gm, 1, []⟩ (running .gm) = .next t := by
  rcases engineStep_cases Config.here ⟨.gm, 1, []⟩ (running .gm) with ⟨h, -⟩ | ⟨i, hi, h⟩
  · cases h
  · have h0 : i < Config.here.maxPixels :=
      lt_of_lt_of_le (Engine.mem_remaining.1 hi).1 (maxPixels_pos Config.here)
    exact ⟨_, rfl, h.trans (pixelStep_of_lt h0 _ _)⟩

theorem witness_PixelStepsCommute :
    Inv four (runningTwo .sl) ∧ (runningTwo .sl).engine = some ⟨.sl, 2, []⟩ ∧ 0 < 2 ∧ 1 < 2 ∧ 0 ≠ 1 ∧
      0 ∉ ([] : List Nat) ∧ 1 ∉ ([] : List Nat) :=
  ⟨runningTwo_inv .sl, rfl, by decide, by decide, by decide, by simp, by simp⟩

/-- The state after the pixel steps of pixels `i`, then `j`, then completion. -/
def twoSteps (i j : Nat) : State :=
  let p := fun (i : Nat) (s : State) =>
    { writePixel four .gm i (s.sample i) s with
        pixdone := (writePixel four .gm i (s.sample i) s).pixdone + 1
        engine := s.engine.map (fun e => { e with doneSet := insertPixel i e.doneSet }) }
  { p j (p i (runningTwo .gm)) with engine := none, done := true }

theorem twoSteps_run {i j : Nat} (hi : i < 2) (hj : j < 2) (hij : i ≠ j) :
    EngineRun four (runningTwo .gm) (twoSteps i j) := by
  have h4 : (2 : Nat) ≤ four.maxPixels := by decide
  refine .head (.pixel (e := ⟨.gm, 2, []⟩) rfl hi (by simp) (pixelStep_of_lt (by omega) _ _)) ?_
  refine .head (.pixel (e := ⟨.gm, 2, insertPixel i []⟩) rfl hj (by simp [insertPixel]; omega)
    (pixelStep_of_lt (by omega) _ _)) ?_
  refine .single (.complete (e := ⟨.gm, 2, insertPixel j (insertPixel i [])⟩) rfl (fun k (hk : k < 2) => ?_) rfl)
  simp only [mem_insertPixel]
  omega

theorem witness_FrameResultIsOrderIndependent :
    Inv four (runningTwo .gm) ∧ EngineRun four (runningTwo .gm) (twoSteps 0 1) ∧
      EngineRun four (runningTwo .gm) (twoSteps 1 0) ∧ (twoSteps 0 1).engine = none ∧ (twoSteps 1 0).engine = none :=
  ⟨runningTwo_inv .gm, twoSteps_run (by decide) (by decide) (by decide),
    twoSteps_run (by decide) (by decide) (by decide), rfl, rfl⟩

theorem witness_BusyEndsWithinRemainingSteps :
    (Inv Config.here (running .sl) ∧ (running .sl).engine = some ⟨.sl, 1, []⟩ ∧ (running .sl).host = [] ∧
      (running .sl).rstInput = []) ∧
    (Inv Config.here { running .gm with host := [.waitDone] } ∧
      ({ running .gm with host := [.waitDone] } : State).engine = some ⟨.gm, 1, []⟩ ∧
      ({ running .gm with host := [.waitDone] } : State).rstInput = [] ∧
      ({ running .gm with host := [.waitDone] } : State).host = .waitDone :: []) :=
  ⟨⟨running_inv _ _, rfl, rfl, rfl⟩, { running_inv Config.here .gm with running := fun e he =>
    { (running_inv Config.here .gm).running e he with } }, rfl, rfl, rfl⟩

/-- The one-pixel frame is accepted. -/
theorem oneFrame_accepted (m : EngMode) (w : Word) :
    startFrame Config.here m w (withFrame 1 1 1) = acceptFrame m (withFrame 1 1 1) := by
  rcases startFrame_cases Config.here m w (withFrame 1 1 1) with ⟨h, -⟩ | ⟨-, h, -⟩ | ⟨-, -, h, -⟩ | ⟨-, -, -, h⟩
  · exact absurd h (by decide)
  · exact absurd rfl h
  · exact absurd h (Nat.not_lt.2 (maxPixels_pos Config.here))
  · exact h

theorem witness_RunGmConvertsTheFrame :
    Inv Config.here (withFrame 1 1 1) ∧ (withFrame 1 1 1).engine = none ∧ (withFrame 1 1 1).err = false ∧
      (withFrame 1 1 1).rst = false ∧
      ∃ t, exec .runGm (withFrame 1 1 1) = .next t ∧ t.err = false :=
  ⟨oneFrame_inv _, rfl, rfl, rfl, _, congrArg Host.Outcome.next (oneFrame_accepted .gm _), rfl⟩

theorem witness_RunSlConvertsTheFrameAndMeasuresIt :
    Inv Config.here (withFrame 1 1 1) ∧ (withFrame 1 1 1).engine = none ∧ (withFrame 1 1 1).err = false ∧
      (withFrame 1 1 1).rst = false ∧
      ∃ t, exec .runSl (withFrame 1 1 1) = .next t ∧ t.err = false :=
  ⟨oneFrame_inv _, rfl, rfl, rfl, _, congrArg Host.Outcome.next (oneFrame_accepted .sl _), rfl⟩

theorem witness_ScalarPixelEqualsGainMapStep :
    (withW 0 0).idx.toNat < Config.here.maxPixels ∧ (withW lastIdx 0).idx.toNat < Config.here.maxPixels :=
  ⟨maxPixels_pos _, lastIdx_lt⟩

theorem witness_ScalarPixelEqualsSingleLayerStep :
    ((withW 0 0).idx.toNat < Config.here.maxPixels ∧ (withW 0 0).cllCnt ≠ 0xFFFFFFFF) ∧
    (({ withW lastIdx 0 with cllCnt := 0xFFFFFFFE } : State).idx.toNat < Config.here.maxPixels ∧
      ({ withW lastIdx 0 with cllCnt := 0xFFFFFFFE } : State).cllCnt ≠ 0xFFFFFFFF) :=
  ⟨⟨maxPixels_pos _, by decide⟩, lastIdx_lt, fun h => absurd (show (0xFFFFFFFE : Word) = 0xFFFFFFFF from h) (by decide)⟩

theorem witness_ZeroSampleGivesZeroPixels :
    ((⟨someAdmissible.params, matR14⟩ : Config).mat = matR14 ∧ PowLaws someAdmissible.params.pow32) ∧
    ((⟨{ someAdmissible.params with pow32 := pow32cr }, matR14⟩ : Config).mat = matR14 ∧
      (⟨{ someAdmissible.params with pow32 := pow32cr }, matR14⟩ : Config).params.pow32 = pow32cr) :=
  ⟨⟨rfl, stepPow_laws⟩, rfl, rfl⟩

/-! ### Arithmetic -/

/-- A finite result and, at the very rounding boundary of overflow, infinity. -/
theorem witness_RoundingIsNearestTiesToEven :
    (0 < 2 ∧ roundMag 3 2 < 0x7F800000 ∧ (1 : Nat) < 0x7F800000 ∧ 1 ≠ roundMag 3 2 ∧
      |(magUnits (roundMag 3 2) * 2 : ℤ) - 3| = |(magUnits 1 * 2 : ℤ) - 3|) ∧
    (0 < 2 ∧ boundary2 0x7F800000 * 2 ≤ 2 * boundary2 0x7F800000) := by decide +kernel

/-! ### Registers, bus, reset -/

theorem witness_RegisterAccessRules :
    State.reset.rst = false ∧ ((2 ≠ 4 ∨ 0x18 % 4 ≠ 0) ∧ (4 ≠ 4 ∨ 0x1A % 4 ≠ 0)) ∧
    ((running .gm).rst = false ∧ (running .gm).busy = true ∧ Reg.cmd ≠ .irqEn) ∧ State.reset.busy = false ∧
    State.reset.engine = none :=
  ⟨rfl, by decide, ⟨rfl, rfl, by decide⟩, rfl, rfl⟩

theorem witness_WrittenRegistersReadBackMasked :
    (withQ ⟨1, 2, 3, 4⟩).rst = false ∧ (withQ ⟨1, 2, 3, 4⟩).busy = false ∧ (running .gm).rst = false ∧
    (∀ off ∈ [0x48, 0x4C, 0x74, 0x80, 0xFC],
      off % 4 = 0 ∧ (off = 0x48 ∨ off = 0x4C ∨ off = 0x74 ∨ (0x80 ≤ off ∧ off ≤ 0xFC))) :=
  ⟨rfl, rfl, rfl, by decide⟩

/-- Busy; the first and the last legal access; a width, an alignment and a bound that are wrong. -/
theorem witness_BufferAccessRules :
    ((running .gm).rst = false ∧ (running .gm).busy = true) ∧
    (State.reset.busy = false ∧ (4 = 1 ∨ 4 = 2 ∨ 4 = 4) ∧ 0 % 4 = 0 ∧ 0 + 4 ≤ Config.here.size .sdr ∧
      (4 * Config.here.maxPixels - 4) % 4 = 0 ∧ 4 * Config.here.maxPixels - 4 + 4 ≤ Config.here.size .sdr) ∧
    (¬((3 = 1 ∨ 3 = 2 ∨ 3 = 4) ∧ 0 % 3 = 0 ∧ 0 + 3 ≤ Config.here.size .sdr) ∧
      ¬((2 = 1 ∨ 2 = 2 ∨ 2 = 4) ∧ 1 % 2 = 0 ∧ 1 + 2 ≤ Config.here.size .sdr) ∧
      ¬((1 = 1 ∨ 1 = 2 ∨ 1 = 4) ∧ 4 * Config.here.maxPixels % 1 = 0 ∧
        4 * Config.here.maxPixels + 1 ≤ Config.here.size .sdr)) := by
  have := maxPixels_pos Config.here
  have h : Config.here.size .sdr = 4 * Config.here.maxPixels := rfl
  exact ⟨⟨rfl, rfl⟩, ⟨rfl, by omega, rfl, by omega, by omega, by omega⟩, by omega, by omega, by omega⟩

theorem witness_AddressesRouteToTheirWindow :
    0 < Config.here.params.windowSize .reg ∧ 255 < Config.here.params.windowSize .reg ∧
    16 * Config.here.maxPixels - 1 < Config.here.params.windowSize (.buf .input) ∧
    4 * Config.here.maxPixels - 1 < Config.here.params.windowSize (.buf .sdr) ∧
    8 * Config.here.maxPixels - 1 < Config.here.params.windowSize (.buf .hdr) := by
  have := maxPixels_pos Config.here
  refine ⟨by decide, by decide, ?_, ?_, ?_⟩ <;> simp only [OpenParams.windowSize, Config.maxPixels] at * <;> omega

theorem witness_PixdoneReadsWithinProgress :
    Inv Config.here (running .gm) ∧ (running .gm).engine = some ⟨.gm, 1, []⟩ ∧ ([] : List Nat) = [] :=
  ⟨running_inv _ _, rfl, rfl⟩

theorem witness_NonfinIsStickyButForClr :
    (exec .cllclr { State.reset with nonfin := true } = .next { State.reset with nonfin := true } ∧
      ({ State.reset with nonfin := true } : State).nonfin = true ∧ Instr.cllclr ≠ .clr) ∧
    (engineStep Config.here ⟨.gm, 0, []⟩ { State.reset with nonfin := true } =
      .next { State.reset with nonfin := true, done := true }) :=
  ⟨⟨rfl, rfl, by decide⟩, rfl⟩

theorem witness_IrqIsALevelOfFlagsAndEnables :
    (∃ t, exec .clr { State.reset with done := true, irqEn := 1 } = .next t) ∧
    (({ State.reset with err := true, irqEn := 3 } : State).rst = false ∧
      ∃ t, hostWrite .reg 0x14 4 0 { State.reset with err := true, irqEn := 3 } = .next t) ∧
    ({ State.reset with done := true, irqEn := 3 } : State).err = false :=
  ⟨⟨_, rfl⟩, ⟨rfl, _, rfl⟩, rfl⟩

theorem witness_ResetRefusesThenRestoresResetState : ({ running .sl with rst := true } : State).rst = true := rfl

/-! ### Invariants -/

theorem witness_EveryStepKeepsTheInvariant :
    ∃ t, Inv Config.here (withFrame 1 1 1) ∧ step (withFrame 1 1 1) = .next t := ⟨_, oneFrame_inv _, rfl⟩

theorem witness_NoStepStopsUnderTheInvariant : Inv Config.here (running .sl) := running_inv _ _

end Sys2Proof.Tests
end

section
/-! PROOFS. The statements of 10_state.md: register accesses (R22 to R41), reset values (R44) and the interrupt
line (R46). First the rules of the register window, one per outcome of an access; the statements follow from them. -/

namespace Sys2Proof.Machine

/-! ## The register map (R22) -/

@[simp] theorem regAt_regOffset (r : Reg) : regAt (regOffset r) = some r := by
  cases r <;> rfl

/-- Every register is a 4-byte aligned word inside the window. -/
@[simp] theorem regAccessOk_regOffset (r : Reg) : regAccessOk (regOffset r) 4 = true := by
  cases r <;> rfl

theorem regAccessOk_eq_false {off n : Nat} (h : n ≠ 4 ∨ off % 4 ≠ 0) : regAccessOk off n = false := by
  rcases h with h | h <;> simp [regAccessOk, h]

/-! ## Reads of the register window (R40, R41) -/

theorem hostRead_reg_refused {s : State} {off n : Nat} (hr : s.rst = false) (h : regAccessOk off n = false) :
    hostRead .reg off n s = s.respond .busError := by
  simp [hostRead, hr, h]

theorem hostRead_regOffset {s : State} (hr : s.rst = false) (r : Reg) :
    hostRead .reg (regOffset r) 4 s = s.respond (.data (readReg Config.here s r)) := by
  simp [hostRead, hr]

/-- A register whose content is the number `k` answers a word that denotes `k`. -/
theorem hostRead_regOffset_toNat {s : State} (hr : s.rst = false) (r : Reg) {k : Nat}
    (hk : (readReg Config.here s r).toNat = k) :
    ∃ w : Word, hostRead .reg (regOffset r) 4 s = s.respond (.data w) ∧ w.toNat = k :=
  ⟨_, hostRead_regOffset hr r, hk⟩

/-- A field narrower than its register, zero-extended, answers a word that denotes the field's number. -/
theorem hostRead_regOffset_narrow {s : State} (hr : s.rst = false) (r : Reg) {n : Nat} (x : BitVec n) (hn : n ≤ 32)
    (h : readReg Config.here s r = x.setWidth 32) :
    ∃ w : Word, hostRead .reg (regOffset r) 4 s = s.respond (.data w) ∧ w.toNat = x.toNat :=
  hostRead_regOffset_toNat hr r (by rw [h, BitVec.toNat_setWidth_of_le hn])

/-! ## Writes to the register window (R40, R41; 46_control.md R165) -/

theorem hostWrite_reg_of_released {s : State} (hr : s.rst = false) (off n : Nat) (x : Word) :
    hostWrite .reg off n x s = hostWriteReg off n x s := by
  simp [hostWrite, hr]

theorem hostWriteReg_refused (s : State) {off n : Nat} (h : regAccessOk off n = false) (x : Word) :
    hostWriteReg off n x s = .next (s.respond .busError) := by
  simp [hostWriteReg, h]

theorem hostWriteReg_cmd (s : State) (x : Word) : hostWriteReg (regOffset .cmd) 4 x s = writeCmd x s := rfl

/-- `IRQ_EN` is written whether or not a frame runs. -/
theorem hostWriteReg_irqEn (s : State) (x : Word) :
    hostWriteReg (regOffset .irqEn) 4 x s = .next { s with irqEn := x.setWidth 2, response := some .ok } := rfl

/-- Every register other than `CMD` and `IRQ_EN` is written only while no frame runs. -/
theorem hostWriteReg_regOffset (s : State) {r : Reg} (hc : r ≠ .cmd) (hi : r ≠ .irqEn) (x : Word) :
    hostWriteReg (regOffset r) 4 x s =
      if s.busy then .next (s.respond .busError) else .next ((writeReg s r x).respond .ok) := by
  simp only [hostWriteReg, regAccessOk_regOffset, regAt_regOffset]
  rfl

theorem writeCmd_of_busy {s : State} (hb : s.busy = true) (x : Word) :
    writeCmd x s = .next (s.respond .busError) := if_pos hb

/-- While a frame runs no register but `IRQ_EN` takes a write; a `CMD` write among them is not executed. -/
theorem hostWriteReg_of_busy {s : State} (hb : s.busy = true) {r : Reg} (hi : r ≠ .irqEn) (x : Word) :
    hostWriteReg (regOffset r) 4 x s = .next (s.respond .busError) := by
  by_cases hc : r = .cmd
  · rw [hc, hostWriteReg_cmd, writeCmd_of_busy hb]
  · rw [hostWriteReg_regOffset s hc hi, if_pos hb]

/-- The read-only registers of R22. -/
def readOnlyRegs : List Reg :=
  [.id, .status, .errcode, .errinfo, .pixdone, .cap, .maxcll, .maxpall, .cllMax, .cllCnt, .cllSumLo, .cllSumHi]

theorem writeReg_of_readOnly (s : State) {r : Reg} (h : r ∈ readOnlyRegs) (x : Word) : writeReg s r x = s := by
  fin_cases h <;> rfl

theorem hostWriteReg_of_readOnly {s : State} (hb : s.busy = false) {r : Reg} (h : r ∈ readOnlyRegs) (x : Word) :
    hostWriteReg (regOffset r) 4 x s = .next (s.respond .ok) := by
  have hc : r ≠ .cmd := ne_of_mem_of_not_mem h (by decide)
  have hi : r ≠ .irqEn := ne_of_mem_of_not_mem h (by decide)
  rw [hostWriteReg_regOffset s hc hi, hb, writeReg_of_readOnly s h]
  rfl

/-! ## The numbers that registers hold (R22 to R39) -/

theorem readReg_cllSumLo_toNat (c : Config) (s : State) :
    (readReg c s .cllSumLo).toNat = s.cllSum.toNat % 2 ^ 32 := by
  simp [readReg]

theorem readReg_cllSumHi_toNat (c : Config) (s : State) :
    (readReg c s .cllSumHi).toNat = s.cllSum.toNat / 2 ^ 32 := by
  have := s.cllSum.isLt
  simp only [readReg, BitVec.toNat_setWidth, BitVec.extractLsb'_toNat, Nat.shiftRight_eq_div_pow]
  omega

theorem readReg_wLo_toNat (c : Config) (s : State) : (readReg c s .wLo).toNat = s.w.toNat % 2 ^ 32 := by
  simp [readReg]

theorem readReg_wHi_toNat (c : Config) (s : State) : (readReg c s .wHi).toNat = s.w.toNat / 2 ^ 32 := by
  have := s.w.isLt
  simp only [readReg, BitVec.extractLsb'_toNat, Nat.shiftRight_eq_div_pow]
  omega

/-- `PIXDONE` is a plain register while no frame runs (R31). -/
theorem readReg_pixdone_of_idle (c : Config) {s : State} (h : s.engine = none) :
    readReg c s .pixdone = s.pixdone := by
  simp [readReg, State.pixdoneRead, h]

/-- Settles O48: one rule of the register window per clause, and the table of R22 entry by entry. -/
theorem registerAccessRules : Obligations.RegisterAccessRules := by
  intro s hr
  refine ⟨fun off n x h => ?malformed, hostRead_regOffset hr, fun x => ?irqEn, fun hb r x hi => ?busy,
    fun hb x r h => ?readOnly, ?status, ?table, fun he => ?pixdone⟩
  case malformed =>
    have hbad := regAccessOk_eq_false h
    exact ⟨hostRead_reg_refused hr hbad, by rw [hostWrite_reg_of_released hr, hostWriteReg_refused s hbad]; rfl⟩
  case irqEn => rw [hostWrite_reg_of_released hr, hostWriteReg_irqEn]
  case busy => rw [hostWrite_reg_of_released hr, hostWriteReg_of_busy hb hi]; rfl
  case readOnly => rw [hostWrite_reg_of_released hr, hostWriteReg_of_readOnly hb h]; rfl
  case status =>
    refine ⟨s.statusWord, hostRead_regOffset hr .status, s.statusWord_getLsbD 0, s.statusWord_getLsbD 1,
      s.statusWord_getLsbD 2, s.statusWord_getLsbD 3, fun k hk => ?_⟩
    rw [s.statusWord_getLsbD]
    simp [show k ≠ 0 ∧ k ≠ 1 ∧ k ≠ 2 ∧ k ≠ 3 by omega]
  case table =>
    have word (r : Reg) := hostRead_regOffset_toNat hr r rfl
    have half (r : Reg) (x : Half) := hostRead_regOffset_narrow hr r x (by decide)
    simp only [List.forall_mem_cons]
    exact ⟨word .id, word .cmd, hostRead_regOffset_narrow hr .errcode s.errcode (by decide) rfl, word .errinfo,
      hostRead_regOffset_narrow hr .irqEn s.irqEn (by decide) rfl, word .width, word .height, word .inCount, word .idx,
      hostRead_regOffset_toNat hr .cap (cap_toNat _), half .maxcll s.maxcll rfl, half .maxpall s.maxpall rfl,
      half .cllMax s.cllMax rfl, word .cllCnt, hostRead_regOffset_toNat hr .cllSumLo (readReg_cllSumLo_toNat _ s),
      hostRead_regOffset_toNat hr .cllSumHi (readReg_cllSumHi_toNat _ s), word .v0, word .v1, word .v2, word .v3,
      half .q0 s.q.r rfl, half .q1 s.q.g rfl, half .q2 s.q.b rfl, half .q3 s.q.a rfl, half .y s.y rfl,
      hostRead_regOffset_toNat hr .wLo (readReg_wLo_toNat _ s),
      hostRead_regOffset_toNat hr .wHi (readReg_wHi_toNat _ s), fun _ h => nomatch h⟩
  case pixdone =>
    have hread := hostRead_regOffset hr .pixdone
    rwa [readReg_pixdone_of_idle Config.here he] at hread

/-! ## The interrupt line (R46) -/

theorem State.irq_eq_true_iff (s : State) : s.irq = true ↔
    (s.done = true ∧ s.irqEn.getLsbD 0 = true) ∨ (s.err = true ∧ s.irqEn.getLsbD 1 = true) := by
  simp only [State.irq, Bool.or_eq_true, Bool.and_eq_true]

/-- With both flags clear the line is low, whatever the enables. -/
theorem State.irq_of_flags_clear {s : State} (hd : s.done = false) (he : s.err = false) : s.irq = false := by
  simp [State.irq, hd, he]

/-- With both enables clear the line is low, whatever the flags. -/
theorem State.irq_of_enables_clear {s : State} (h : s.irqEn = 0) : s.irq = false := by
  simp [State.irq, h]

/-- Acceptance clears `DONE` (45_frame.md R149). -/
@[simp] theorem acceptFrame_done (m : EngMode) (s : State) : (acceptFrame m s).done = false := by
  cases m <;> rfl

@[simp] theorem acceptFrame_err (m : EngMode) (s : State) : (acceptFrame m s).err = s.err := by
  cases m <;> rfl

theorem exec_clr (s : State) : exec .clr s = .next s.clearStatus := rfl

/-- Asserting `rst` puts the block in the state after reset (70_reset_and_hazards.md R195). -/
theorem driveReset_asserted (s : State) : driveReset true s = s.afterReset true s.resets := rfl

/-- Settles O54: the line is low when both flags or both enables are clear, and each cause of R46 clears one pair. -/
theorem irqIsALevelOfFlagsAndEnables : Obligations.IrqIsALevelOfFlagsAndEnables := by
  refine ⟨State.irq_eq_true_iff, fun s t h => ?clr, fun s t hr h => ?enables, fun m s he => ?accepted,
    fun s => ?reset⟩
  case clr =>
    rw [exec_clr] at h
    cases h
    exact State.irq_of_flags_clear s.clearStatus_done s.clearStatus_err
  case enables =>
    rw [hostWrite_reg_of_released hr, show 0x14 = regOffset .irqEn from rfl, hostWriteReg_irqEn] at h
    cases h
    exact State.irq_of_enables_clear rfl
  case accepted => exact State.irq_of_flags_clear (acceptFrame_done m s) ((acceptFrame_err m s).trans he)
  case reset =>
    rw [driveReset_asserted]
    exact State.irq_of_flags_clear rfl rfl

/-! ## The state after reset (R44) -/

/-- Every register but the two constants `ID` and `CAP` reads zero after reset. -/
theorem readReg_reset_eq_zero (c : Config) {r : Reg} (hid : r ≠ .id) (hcap : r ≠ .cap) :
    readReg c State.reset r = 0 := by
  cases r
  case id => exact absurd rfl hid
  case cap => exact absurd rfl hcap
  all_goals rfl

/-- A release after an assertion leaves the state of R44, in a new epoch of unspecified bytes. -/
theorem driveReset_released_after_asserted (s : State) :
    driveReset false (driveReset true s) = s.afterReset false (s.resets + 1) := rfl

/-- No byte is listed after reset, so each offset reads as its unspecified byte. -/
theorem byteAt_reset (b : Buffer) (x : Nat) :
    State.reset.byteAt b x = Config.unspecifiedByte State.reset.resets b x := by
  cases b <;> rfl

/-- Settles O55: the table of R44 read off the reset state; a frame in progress is abandoned. -/
theorem resetLeavesTheStatedValues : Obligations.ResetLeavesTheStatedValues := by
  refine ⟨rfl, cap_toNat _, fun r hid hcap => readReg_reset_eq_zero _ hid hcap, rfl, rfl, rfl, rfl,
    fun s => ?abandoned, byteAt_reset⟩
  case abandoned => rw [driveReset_released_after_asserted]; rfl

end Sys2Proof.Machine
end

section
/-! PROOFS. The statements of 20_memory.md: the packed HDR word in memory (R56), the windows of the host's address
space (R59), buffer accesses of the host (R62, R63). First one rule per operation; the statements follow from them. -/

namespace Sys2Proof.Machine

/-! ## The address map (R59) -/

/-- The addresses of a window. -/
def InWindow (p : OpenParams) (w : Window) (addr : Nat) : Prop :=
  p.windowBase w ≤ addr ∧ addr < p.windowBase w + p.windowSize w

theorem mem_allWindows (w : Window) : w ∈ allWindows := by
  rcases w with _ | b
  · exact List.mem_cons_self
  · cases b <;> decide

/-- Windows do not overlap (00_scope.md R6): an address lies in one of them at most. -/
theorem InWindow.unique {p : OpenParams} (hp : p.Admissible) {w w' : Window} {addr : Nat}
    (h : InWindow p w addr) (h' : InWindow p w' addr) : w = w' := by
  by_contra hne
  obtain ⟨hlo, hhi⟩ := h
  obtain ⟨hlo', hhi'⟩ := h'
  rcases hp.disjoint w w' hne with hd | hd <;> omega

theorem route_of_inWindow {c : Config} (hc : c.params.Admissible) {w : Window} {addr : Nat}
    (h : InWindow c.params w addr) : route c addr = some (w, addr - c.params.windowBase w) := by
  unfold route
  split
  case h_1 w' hw' =>
    have hin : InWindow c.params w' addr := by simpa [InWindow] using List.find?_some hw'
    rw [hin.unique hc h]
  case h_2 hnone =>
    exact absurd h (by simpa [InWindow] using List.find?_eq_none.1 hnone w (mem_allWindows w))

/-- Settles O51: `base + off` lies in the window, the windows are disjoint, and the bases are aligned. -/
theorem addressesRouteToTheirWindow : Obligations.AddressesRouteToTheirWindow := by
  intro w off hoff
  have hok : Config.here.params.Admissible := Config.openParams.ok
  have hin : InWindow Config.here.params w (Config.here.params.windowBase w + off) := ⟨by omega, by omega⟩
  have hroute := route_of_inWindow hok hin
  rw [Nat.add_sub_cancel_left] at hroute
  exact ⟨hroute, hok.aligned w⟩

/-! ## Bytes of a buffer under writes and bus responses (00_scope.md R9) -/

@[simp] theorem State.respond_byteAt (s : State) (r : Response) (b : Buffer) (z : Nat) :
    (s.respond r).byteAt b z = s.byteAt b z := by
  cases b <;> rfl

@[simp] theorem State.respond_memRead (s : State) (r : Response) (b : Buffer) (a n : Nat) :
    (s.respond r).memRead b a n = s.memRead b a n :=
  State.memRead_congr fun z _ _ => s.respond_byteAt r b z

/-- Byte `k` of a stored value stands `k` bytes above its address (20_memory.md R57). -/
theorem State.byteAt_memWrite_add (s : State) (b : Buffer) (a v : Nat) {n k : Nat} (hk : k < n) :
    (s.memWrite b a n v).byteAt b (a + k) = BitVec.ofNat 8 (v / 256 ^ k) := by
  rw [State.byteAt_memWrite, if_pos ⟨rfl, by omega, by omega⟩, Nat.add_sub_cancel_left]

theorem State.byteAt_memWrite_of_outside (s : State) {b b' : Buffer} {a n z : Nat} (v : Nat)
    (h : ¬(b' = b ∧ a ≤ z ∧ z < a + n)) : (s.memWrite b a n v).byteAt b' z = s.byteAt b' z := by
  rw [State.byteAt_memWrite, if_neg h]

/-- Apart from the three buffers a buffer write changes nothing. -/
theorem State.memWrite_frame (s : State) (b : Buffer) (a n v : Nat) :
    s.memWrite b a n v =
      { s with inBuf := (s.memWrite b a n v).inBuf, sdrBuf := (s.memWrite b a n v).sdrBuf,
               hdrBuf := (s.memWrite b a n v).hdrBuf } := by
  cases b <;> rfl

/-! ## Buffer accesses of the host (R62, R63) -/

theorem bufAccessOk_iff (c : Config) (b : Buffer) (off n : Nat) :
    bufAccessOk c b off n = true ↔ (n = 1 ∨ n = 2 ∨ n = 4) ∧ off % n = 0 ∧ off + n ≤ c.size b := by
  simp [bufAccessOk, or_assoc, and_assoc]

section
variable {s : State} {b : Buffer} {off n : Nat}

theorem hostRead_buf_of_ok (hr : s.rst = false) (hb : s.busy = false) (hok : bufAccessOk Config.here b off n = true) :
    hostRead (.buf b) off n s = s.respond (.data (BitVec.ofNat 32 (s.memRead b off n))) := by
  simp [hostRead, hr, hb, hok]

theorem hostRead_buf_refused (hr : s.rst = false) (h : s.busy = true ∨ bufAccessOk Config.here b off n = false) :
    hostRead (.buf b) off n s = s.respond .busError := by
  rcases h with h | h <;> simp [hostRead, hr, h]

theorem hostWrite_buf_of_ok (hr : s.rst = false) (hb : s.busy = false) (hok : bufAccessOk Config.here b off n = true)
    (x : Word) : hostWrite (.buf b) off n x s = .next ((s.memWrite b off n x.toNat).respond .ok) := by
  simp [hostWrite, hr, hb, hok]

theorem hostWrite_buf_refused (hr : s.rst = false) (h : s.busy = true ∨ bufAccessOk Config.here b off n = false)
    (x : Word) : hostWrite (.buf b) off n x s = .next (s.respond .busError) := by
  rcases h with h | h <;> simp [hostWrite, hr, h]

end

/-- Settles O50: a buffer access is refused while a frame runs or when it is not legal, and is a `MemRead` or
`MemWrite` otherwise. -/
theorem bufferAccessRules : Obligations.BufferAccessRules := by
  intro s b off n x hr
  refine ⟨fun hb => ?busy, fun ⟨hb, hlegal⟩ => ?legal, fun ⟨_, hillegal⟩ => ?illegal⟩
  case busy => exact ⟨hostRead_buf_refused hr (.inl hb), hostWrite_buf_refused hr (.inl hb) x⟩
  case illegal =>
    have hbad : bufAccessOk Config.here b off n = false := by
      rwa [← bufAccessOk_iff, Bool.not_eq_true] at hillegal
    exact ⟨hostRead_buf_refused hr (.inr hbad), hostWrite_buf_refused hr (.inr hbad) x⟩
  case legal =>
    have hok : bufAccessOk Config.here b off n = true := (bufAccessOk_iff ..).2 hlegal
    refine ⟨hostRead_buf_of_ok hr hb hok, _, hostWrite_buf_of_ok hr hb hok x, ?readBack, ?otherBytes, ?frame⟩
    case readBack => rw [State.respond_memRead, State.memRead_memWrite_self]
    case otherBytes =>
      intro b' y hout
      rw [State.respond_byteAt, State.byteAt_memWrite_of_outside s _ hout]
    case frame => exact congrArg (State.respond · .ok) (s.memWrite_frame b off n x.toNat)

/-! ## The packed HDR word (R56, 42_quantize_pack.md R119) -/

/-- A bit vector cut in two: the number it denotes, written with its parts. -/
theorem ofNat_eq_append_iff {n m : Nat} (v : Nat) (hi : BitVec n) (lo : BitVec m) :
    BitVec.ofNat (n + m) v = hi ++ lo ↔ v % 2 ^ (n + m) = hi.toNat * 2 ^ m + lo.toNat := by
  rw [← BitVec.toNat_inj, BitVec.toNat_ofNat, BitVec.toNat_append, ← Nat.shiftLeft_add_eq_or_of_lt lo.isLt,
    Nat.shiftLeft_eq]

/-- A field's number: the low bits of the lane, in its place. -/
theorem packField_toNat (h : Half) {bits shift : Nat} (hfit : bits + shift ≤ 64) :
    (packField h bits shift).toNat = h.toNat % 2 ^ bits * 2 ^ shift := by
  have hlt : h.toNat % 2 ^ bits * 2 ^ shift < 2 ^ 64 := calc
    h.toNat % 2 ^ bits * 2 ^ shift < 2 ^ bits * 2 ^ shift :=
      Nat.mul_lt_mul_of_pos_right (Nat.mod_lt _ (Nat.two_pow_pos _)) (Nat.two_pow_pos _)
    _ = 2 ^ (bits + shift) := (pow_add ..).symm
    _ ≤ 2 ^ 64 := Nat.pow_le_pow_right (by decide) hfit
  simp only [packField, BitVec.toNat_shiftLeft, BitVec.toNat_setWidth, BitVec.extractLsb'_toNat, Nat.shiftRight_zero,
    Nat.shiftLeft_eq, Nat.mod_mul_mod]
  exact Nat.mod_eq_of_lt hlt

/-- A field put above the fields packed so far adds its own number to theirs. -/
theorem or_packField_toNat {w : DWord} {shift : Nat} (hw : w.toNat < 2 ^ shift) (h : Half) {bits : Nat}
    (hfit : bits + shift ≤ 64) :
    (w ||| packField h bits shift).toNat = w.toNat + h.toNat % 2 ^ bits * 2 ^ shift := by
  rw [BitVec.toNat_or, packField_toNat h hfit, Nat.or_comm, ← Nat.shiftLeft_eq,
    ← Nat.shiftLeft_add_eq_or_of_lt hw, Nat.add_comm]

/-- The packed word as a number (R56). -/
theorem pack10_toNat (q : Lanes Half) : (pack10 q).toNat =
    q.r.toNat % 2 ^ 10 + q.g.toNat % 2 ^ 10 * 2 ^ 10 + q.b.toNat % 2 ^ 10 * 2 ^ 20 + q.a.toNat % 2 ^ 2 * 2 ^ 30 := by
  have hr := packField_toNat q.r (bits := 10) (shift := 0) (by decide)
  have hg := or_packField_toNat (w := packField q.r 10 0) (shift := 10) (by omega) q.g (bits := 10) (by decide)
  have hb := or_packField_toNat (w := packField q.r 10 0 ||| packField q.g 10 10) (shift := 20) (by omega) q.b
    (bits := 10) (by decide)
  rw [pack10, or_packField_toNat (by omega) q.a (by decide), hb, hg, hr, pow_zero, mul_one]

/-- The four bytes of the packed word, lowest first (R56). -/
theorem pack10_bytes (q : Lanes Half) :
    BitVec.ofNat 8 ((pack10 q).toNat / 256 ^ 0) = q.r.extractLsb' 0 8 ∧
    BitVec.ofNat 8 ((pack10 q).toNat / 256 ^ 1) = q.g.extractLsb' 0 6 ++ q.r.extractLsb' 8 2 ∧
    BitVec.ofNat 8 ((pack10 q).toNat / 256 ^ 2) = q.b.extractLsb' 0 4 ++ q.g.extractLsb' 6 4 ∧
    BitVec.ofNat 8 ((pack10 q).toNat / 256 ^ 3) = q.a.extractLsb' 0 2 ++ q.b.extractLsb' 4 6 := by
  rw [pack10_toNat]
  refine ⟨BitVec.eq_of_toNat_eq ?_, (ofNat_eq_append_iff (n := 6) (m := 2) ..).2 ?_,
    (ofNat_eq_append_iff (n := 4) (m := 4) ..).2 ?_, (ofNat_eq_append_iff (n := 2) (m := 6) ..).2 ?_⟩ <;>
    simp only [BitVec.extractLsb'_toNat, BitVec.toNat_ofNat, Nat.shiftRight_eq_div_pow] <;> omega

/-! ## `PK10` followed by `STH10` -/

theorem exec_pk10 (s : State) : exec .pk10 s = .next { s with w := pack10 s.q } := rfl

/-- Below the capacity `STH10` is one `MemWrite` (43_memory_ops.md R128, R131). -/
theorem exec_sth10_of_lt {s : State} (h : s.idx.toNat < Config.here.maxPixels) :
    exec .sth10 s = .next (s.memWrite .hdr (4 * s.idx.toNat) 4 s.w.toNat) :=
  congrArg Host.Outcome.next (if_neg (Nat.not_le.2 h))

/-- What the two commands leave: the word of `PK10` in `W` and in the four bytes of pixel `IDX`. -/
theorem state_after_pk10_sth10 {s t u : State} (hpk : exec .pk10 s = .next t) (hsth : exec .sth10 t = .next u)
    (hidx : s.idx.toNat < Config.here.maxPixels) :
    u = State.memWrite { s with w := pack10 s.q } .hdr (4 * s.idx.toNat) 4 (pack10 s.q).toNat := by
  rw [exec_pk10] at hpk
  cases hpk
  rw [exec_sth10_of_lt (by exact hidx)] at hsth
  cases hsth
  rfl

/-- Settles O30: `STH10` stores the number that `PK10` packs, and each byte of it is cut out of the lanes. -/
theorem packedWordBytesInMemory : Obligations.PackedWordBytesInMemory := by
  intro s t u hpk hsth hidx
  rw [state_after_pk10_sth10 hpk hsth hidx]
  obtain ⟨h0, h1, h2, h3⟩ := pack10_bytes s.q
  have hbyte {k : Nat} (hk : k < 4) := State.byteAt_memWrite_add { s with w := pack10 s.q } .hdr (4 * s.idx.toNat)
    (pack10 s.q).toNat hk
  refine ⟨?word, (hbyte (by decide)).trans h0, (hbyte (by decide)).trans h1, (hbyte (by decide)).trans h2,
    (hbyte (by decide)).trans h3⟩
  case word =>
    have hpack := pack10_toNat s.q
    rw [State.memRead_memWrite_self, Nat.mod_eq_of_lt (by omega), hpack]

end Sys2Proof.Machine
end

section
/-! PROOFS. The statements of 30_encoding.md: decoding and encoding (R75, R78) and illegal words (R79). A word is its
two fields, so a word names a command exactly when it is that command's match word; an illegal word then meets the
one branch of a `CMD` write that raises `E_ILLCMD`. -/

namespace Sys2Proof

/-! ## The decoder (R75, R78, R79) -/

@[simp] theorem Instr.wellFormed_eq_true (i : Instr) : i.wellFormed = true := by
  cases i <;> rfl

/-- Format C: a word is `RSV` above `OP` (R75). -/
theorem fieldRsv_append_fieldOp (w : Word) : fieldRsv w ++ fieldOp w = w :=
  BitVec.extractLsb'_append_extractLsb'_eq_extractLsb' (by decide) |>.trans BitVec.extractLsb'_eq_self

theorem decode_eq_ok_iff {w : Word} {i : Instr} :
    decode w = .ok i ↔ fieldRsv w = 0 ∧ decodeOp (fieldOp w) = some i := by
  unfold decode
  split
  case isTrue hrsv => cases decodeOp (fieldOp w) <;> simp [hrsv]
  case isFalse hrsv => exact iff_of_false nofun fun h => hrsv h.1

/-- Each row of the opcode map stands for the match word with that `OP` and a zero `RSV` (R78). -/
theorem append_eq_encode_of_decodeOp {op : BitVec 8} {i : Instr} (h : decodeOp op = some i) :
    0#24 ++ op = encode i := by
  unfold decodeOp at h
  split at h <;> cases h <;> rfl

open Laws.EncodeDecode in
@[simp] theorem decode_encode (i : Instr) : decode (encode i) = .ok i := by
  cases i
  exacts [nop, clr, gdec, genc, pqenc, nscale, mat3, clamp, luma, q8, q10a2, q16, pk8, pk10, pk16, ldpx, sts, sth10,
    sth16, cllclr, cllacc, cllfin, runGm, runSl]

/-- A word names a command exactly when it is the command's match word (R78). -/
theorem decode_eq_ok_iff_eq_encode {w : Word} {i : Instr} : decode w = .ok i ↔ w = encode i := by
  constructor
  · intro h
    obtain ⟨hrsv, hop⟩ := decode_eq_ok_iff.1 h
    calc w = fieldRsv w ++ fieldOp w := (fieldRsv_append_fieldOp w).symm
      _ = 0#24 ++ fieldOp w := by rw [hrsv]; rfl
      _ = encode i := append_eq_encode_of_decodeOp hop
  · rintro rfl
    exact decode_encode i

/-- The decoder refuses a word that is no match word (R79). -/
theorem exists_decode_eq_error {w : Word} (h : ∀ i, w ≠ encode i) : ∃ e, decode w = .error e := by
  cases hd : decode w with
  | error e => exact ⟨e, rfl⟩
  | ok i => exact absurd (decode_eq_ok_iff_eq_encode.1 hd) (h i)

/-- Settles O1: the decoder inverts the encoder, whose 24 words are the rows of the opcode table. -/
theorem decodesExactlyTheMatchWords : Obligations.DecodesExactlyTheMatchWords := by
  refine ⟨fun w i => ?inverse, fun i => ?rows⟩
  case inverse => rw [decode_eq_ok_iff_eq_encode, Instr.wellFormed_eq_true, eq_self, true_and]
  case rows => cases i <;> decide

end Sys2Proof

namespace Sys2Proof.Machine

/-! ## The step that delivers a `CMD` write (46_control.md R165) -/

/-- With no frame running and no level of `rst` waiting, the host alone can move. -/
theorem step_of_host_alone {s : State} {op : HostOp} {rest : List HostOp} (hh : s.host = op :: rest)
    (he : s.engine = none) (hp : s.rstInput = []) : step s = performHostOp op { s with host := rest } := by
  have halone : s.enabledAgents = [.host] := by simp [State.enabledAgents, State.hostReady, State.busy, hh, he, hp]
  have hhost : agentStep .host s = performHostOp op { s with host := rest } := by simp only [agentStep, hostStep, hh]
  rw [← hhost, step, nextStep, halone]

/-- The step that delivers a waiting `CMD` write is the dispatch of its word. -/
theorem step_of_cmdPending {s : State} {w : Word} {rest : List HostOp} (h : CmdPending s w rest)
    (he : s.engine = none) : step s = writeCmd w { s with host := rest } := by
  obtain ⟨hhost, hrst, hinput⟩ := h
  rw [step_of_host_alone hhost he hinput]
  exact (hostWrite_reg_of_released (by exact hrst) ..).trans (hostWriteReg_cmd ..)

/-- Dispatch of an illegal word: a normal response and error entry (R79). -/
theorem writeCmd_of_decode_error {s : State} {w : Word} {e : DecodeError} (hb : s.busy = false) (herr : s.err = false)
    (hd : decode w = .error e) : writeCmd w s = .next ((s.respond .ok).raise .illcmd w) := by
  simp [writeCmd, hb, herr, hd]

/-- Settles O4: an illegal word does not decode, and its dispatch is error entry with cause `E_ILLCMD`. -/
theorem illegalWordRaisesIllcmd : Obligations.IllegalWordRaisesIllcmd := by
  intro s w rest hpend hidle herr hillegal
  obtain ⟨e, hd⟩ := exists_decode_eq_error hillegal
  have hbusy : s.busy = false := by rw [State.busy, hidle]; rfl
  exact (step_of_cmdPending hpend hidle).trans (writeCmd_of_decode_error hbusy herr hd)

end Sys2Proof.Machine
end

section
/-! PROOFS. The statements of 40_transfer.md on `PQENC` (R95, R96). First `POW32_CR`: its result is the largest pattern
whose rounding boundary the exact power reaches, so it obeys the laws of 00_scope.md R13. Then the range of `pq` for
every power function that obeys them. -/

namespace Sys2Proof.Machine

/-! ## The search for the largest pattern reached -/

/-- When `reached` holds below each number it holds at, the search bit by bit finds the last of its range that it
holds at. -/
theorem largestReached_spec {reached : Nat → Bool}
    (hdown : ∀ {c c' : Nat}, 1 ≤ c → c ≤ c' → reached c' = true → reached c = true) (k r : Nat) :
    r ≤ largestReached reached k r ∧ largestReached reached k r < r + 2 ^ k ∧
    ∀ c, r < c → c < r + 2 ^ k → (reached c = true ↔ c ≤ largestReached reached k r) := by
  induction k generalizing r with
  | zero => exact ⟨le_rfl, Nat.lt_succ_self r, fun c h h' => by omega⟩
  | succ k ih =>
    have hpos := Nat.two_pow_pos k
    rw [largestReached, pow_succ]
    split
    case isTrue hmid =>
      obtain ⟨hlo, hhi, hiff⟩ := ih (r + 2 ^ k)
      refine ⟨by omega, by omega, fun c h h' => ?_⟩
      by_cases hc : c ≤ r + 2 ^ k
      · exact iff_of_true (hdown (by omega) hc hmid) (by omega)
      · exact hiff c (by omega) (by omega)
    case isFalse hmid =>
      obtain ⟨hlo, hhi, hiff⟩ := ih r
      refine ⟨hlo, by omega, fun c h h' => ?_⟩
      by_cases hc : c < r + 2 ^ k
      · exact hiff c h hc
      · exact iff_of_false (fun hr => hmid (hdown (by omega) (by omega) hr)) (by omega)

/-! ## The magnitude of an exact power, rounded -/

theorem powReaches_iff {ux p q c : Nat} : powReaches ux p q c = true ↔ c ≤ 0x7F800000 ∧
    (boundary2 c ^ q * 2 ^ (149 * p) < ux ^ p * 2 ^ (150 * q) ∨
      (ux ^ p * 2 ^ (150 * q) = boundary2 c ^ q * 2 ^ (149 * p) ∧ c % 2 = 0)) := by
  simp [powReaches]

/-- A power that reaches a pattern lies strictly above the boundaries of the smaller ones. -/
theorem powReaches_of_le {ux p q c c' : Nat} (hq : 0 < q) (h1 : 1 ≤ c) (h : c ≤ c')
    (hr : powReaches ux p q c' = true) : powReaches ux p q c = true := by
  rcases Nat.lt_or_eq_of_le h with hlt | rfl
  · rw [powReaches_iff] at hr ⊢
    obtain ⟨hinf, hr⟩ := hr
    have hb : boundary2 c ^ q * 2 ^ (149 * p) < boundary2 c' ^ q * 2 ^ (149 * p) :=
      Nat.mul_lt_mul_of_pos_right (Nat.pow_lt_pow_left (boundary2_strictMono h1 hlt) hq.ne') (Nat.two_pow_pos _)
    exact ⟨by omega, .inl (by omega)⟩
  · exact hr

/-- A larger base reaches every boundary that a smaller one does. -/
theorem powReaches_base_mono {ux ux' p q c : Nat} (h : ux ≤ ux') (hr : powReaches ux p q c = true) :
    powReaches ux' p q c = true := by
  rw [powReaches_iff] at hr ⊢
  have hp : ux ^ p * 2 ^ (150 * q) ≤ ux' ^ p * 2 ^ (150 * q) := Nat.mul_le_mul_right _ (Nat.pow_le_pow_left h p)
  exact ⟨hr.1, by omega⟩

/-- A power of 1.0 is 1.0, so it reaches the boundaries up to 1.0 and no other. -/
theorem powReaches_one_iff {p q c : Nat} (hq : 0 < q) :
    powReaches (2 ^ 149) p q c = true ↔
      c ≤ 0x7F800000 ∧ (boundary2 c < 2 ^ 150 ∨ (boundary2 c = 2 ^ 150 ∧ c % 2 = 0)) := by
  have hcancel : (2 ^ 149) ^ p * 2 ^ (150 * q) = (2 ^ 150) ^ q * 2 ^ (149 * p) := by
    rw [← pow_mul, ← pow_mul, mul_comm]
  rw [powReaches_iff, hcancel, Nat.mul_lt_mul_right (Nat.two_pow_pos _), Nat.pow_lt_pow_iff_left hq.ne',
    Nat.mul_left_inj (Nat.two_pow_pos _).ne', Nat.pow_left_inj hq.ne', eq_comm (a := 2 ^ 150)]

/-- The magnitude that `POW32_CR` packs for a base of `ux` units and the exponent `p / q`. -/
def powMag (ux p q : Nat) : Nat := largestReached (powReaches ux p q) 31 0

section
variable {ux ux' p q c : Nat}

/-- What `powMag` is, said once: a pattern is at most the result exactly when the exact power reaches it. -/
theorem le_powMag_iff (hq : 0 < q) (h1 : 1 ≤ c) (hc : c < 2 ^ 31) :
    c ≤ powMag ux p q ↔ powReaches ux p q c = true :=
  ((largestReached_spec (powReaches_of_le hq) 31 0).2.2 c h1 (by omega)).symm

theorem powMag_le_inf (hq : 0 < q) : powMag ux p q ≤ 0x7F800000 := by
  by_contra hgt
  have hle : 0x7F800001 ≤ powMag ux p q := by omega
  have hreach := (le_powMag_iff hq (by decide) (by decide)).1 hle
  exact absurd (powReaches_iff.1 hreach).1 (by decide)

theorem powMag_mono (hq : 0 < q) (h : ux ≤ ux') : powMag ux p q ≤ powMag ux' p q := by
  have hinf : powMag ux p q ≤ 0x7F800000 := powMag_le_inf hq
  rcases Nat.eq_zero_or_pos (powMag ux p q) with h0 | hpos
  · omega
  · rw [le_powMag_iff hq hpos (by omega)]
    exact powReaches_base_mono h ((le_powMag_iff hq hpos (by omega)).1 le_rfl)

theorem powMag_one (hq : 0 < q) : powMag (2 ^ 149) p q = 0x3F800000 := by
  apply Nat.le_antisymm
  · by_contra hgt
    have hle : 0x3F800001 ≤ powMag (2 ^ 149) p q := by omega
    have hreach := (le_powMag_iff hq (by decide) (by decide)).1 hle
    exact absurd ((powReaches_one_iff hq).1 hreach) (by decide +kernel)
  · rw [le_powMag_iff hq (by decide) (by decide), powReaches_one_iff hq]
    decide +kernel

end

/-! ## `POW32_CR` by the class of its base (00_scope.md R13) -/

/-- A positive finite pattern, as each exponent that `POW32` is called with is. -/
def PosFinite (w : Word) : Prop := 0 < w.toNat ∧ w.toNat < 0x7F800000

theorem posFinite_of_mem_powExponents {y : Word} (h : y ∈ powExponents) : PosFinite y := by
  simp only [powExponents, List.mem_cons, List.not_mem_nil, or_false] at h
  unfold PosFinite
  rcases h with rfl | rfl | rfl | rfl <;> decide

theorem PosFinite.fUnpack_eq {w : Word} (h : PosFinite w) : ∃ n, units w = n + 1 ∧ fUnpack w = .fin false (n + 1) := by
  have hu := Nat.succ_pred_eq_of_pos (magUnits_pos h.1)
  exact ⟨_, hu.symm, hu ▸ fUnpack_of_lt h.2⟩

/-- The numerator of an exponent in lowest terms. -/
def expNum (y : Word) : Nat := units y / (units y).gcd (2 ^ 149)

/-- The denominator of an exponent in lowest terms. -/
def expDen (y : Word) : Nat := 2 ^ 149 / (units y).gcd (2 ^ 149)

theorem expDen_pos (y : Word) : 0 < expDen y :=
  Nat.div_pos (Nat.gcd_le_right _ (Nat.two_pow_pos 149)) (Nat.gcd_pos_of_pos_right _ (Nat.two_pow_pos 149))

theorem fPack_false_toNat {m : Nat} (h : m ≤ 0x7F800000) : (fPack false m).toNat = m := by
  simp only [fPack, Bool.false_eq_true, if_false, Nat.add_zero, BitVec.toNat_ofNat]
  omega

section
variable {x x' y : Word}

theorem pow32cr_fZero (hy : PosFinite y) : pow32cr fZero y = fZero := by
  obtain ⟨n, -, hn⟩ := hy.fUnpack_eq
  simp only [pow32cr, fUnpack_fZero, hn]

theorem pow32cr_fInf (hy : PosFinite y) : pow32cr fInf y = fInf := by
  obtain ⟨n, -, hn⟩ := hy.fUnpack_eq
  simp only [pow32cr, fUnpack_fInf, hn]

theorem pow32cr_of_posFinite (hx : PosFinite x) (hy : PosFinite y) :
    pow32cr x y = fPack false (powMag (units x) (expNum y) (expDen y)) := by
  obtain ⟨m, hm, hxu⟩ := hx.fUnpack_eq
  obtain ⟨n, hn, hyu⟩ := hy.fUnpack_eq
  simp only [pow32cr, hxu, hyu, powMag, expNum, expDen, hm, hn]

/-- A base of `POW32` is `+0`, positive and finite, or `+infinity`. -/
theorem base_cases (h : x ≤ fInf) : x = fZero ∨ PosFinite x ∨ x = fInf := by
  rcases le_fInf_cases h with hlt | rfl
  · rcases Nat.eq_zero_or_pos x.toNat with h0 | hpos
    · exact .inl (BitVec.eq_of_toNat_eq h0)
    · exact .inr (.inl ⟨hpos, hlt⟩)
  · exact .inr (.inr rfl)

theorem pow32cr_toNat (hx : PosFinite x) (hy : PosFinite y) :
    (pow32cr x y).toNat = powMag (units x) (expNum y) (expDen y) := by
  rw [pow32cr_of_posFinite hx hy, fPack_false_toNat (powMag_le_inf (expDen_pos y))]

theorem pow32cr_kONE (hy : PosFinite y) : pow32cr kONE y = kONE := by
  apply BitVec.eq_of_toNat_eq
  rw [pow32cr_toNat (by unfold PosFinite; decide) hy, units_kONE, powMag_one (expDen_pos y), kONE_toNat]

theorem pow32cr_le_fInf (hx : x ≤ fInf) (hy : PosFinite y) : pow32cr x y ≤ fInf := by
  rcases base_cases hx with rfl | hpos | rfl
  · rw [pow32cr_fZero hy]; decide
  · rw [BitVec.le_def, pow32cr_toNat hpos hy]
    exact powMag_le_inf (expDen_pos y)
  · rw [pow32cr_fInf hy]; exact BitVec.le_refl _

theorem pow32cr_mono (h : x ≤ x') (hx' : x' ≤ fInf) (hy : PosFinite y) : pow32cr x y ≤ pow32cr x' y := by
  have hx : x ≤ fInf := BitVec.le_trans h hx'
  rcases le_fInf_cases hx' with hlt | rfl
  · rcases Nat.eq_zero_or_pos x.toNat with h0 | hpos
    · rw [show x = fZero from BitVec.eq_of_toNat_eq h0, pow32cr_fZero hy]
      exact BitVec.le_def.2 (Nat.zero_le _)
    · have hle := BitVec.le_def.1 h
      rw [BitVec.le_def, pow32cr_toNat ⟨hpos, by omega⟩ hy, pow32cr_toNat ⟨by omega, hlt⟩ hy]
      exact powMag_mono (expDen_pos y) (units_mono h)
  · rw [pow32cr_fInf hy]
    exact pow32cr_le_fInf hx hy

end

/-- `POW32_CR` satisfies the laws that R13 puts on a power function. -/
theorem pow32cr_laws : PowLaws pow32cr where
  zero _ hy := pow32cr_fZero (posFinite_of_mem_powExponents hy)
  one _ hy := pow32cr_kONE (posFinite_of_mem_powExponents hy)
  mono _ hy _ _ h h' := pow32cr_mono h h' (posFinite_of_mem_powExponents hy)
  inf _ hy := pow32cr_fInf (posFinite_of_mem_powExponents hy)
  range _ hy _ h := pow32cr_le_fInf h (posFinite_of_mem_powExponents hy)

/-! ## The range of `pq` under the laws (40_transfer.md R95, R97) -/

theorem kK_mem_powExponents : kK ∈ powExponents := by decide

theorem kM2_mem_powExponents : kM2 ∈ powExponents := by decide

/-- The inner clamp makes `pq` a function of the clamped value. -/
theorem pq_congr_clamp01 (c : Config) {v v' : Word} (h : clamp01 v = clamp01 v') : pq c v = pq c v' := by
  rw [pq, pq, pqY, pqY, h]

/-- NaN, zeros and negatives are encoded as `+0` is. -/
theorem pq_of_not_pos (c : Config) {v : Word} (h : isNaN v = true ∨ fKey v ≤ 0) : pq c v = pq c fZero :=
  pq_congr_clamp01 c ((clamp01_of_not_pos h).trans (by decide))

section
variable {c : Config} {x x' y : Word}

/-- A lawful power of a value up to 1.0 is at most 1.0 (P3, P4). -/
theorem pow32_le_one (hp : PowLaws c.params.pow32) (hy : y ∈ powExponents) (hx : x ≤ kONE) : pow32 c x y ≤ kONE :=
  calc pow32 c x y ≤ pow32 c kONE y := hp.mono y hy x kONE hx (by decide)
    _ = kONE := hp.one y hy

theorem pqY_le_one (hp : PowLaws c.params.pow32) (v : Word) : pqY c v ≤ kONE :=
  pow32_le_one hp kK_mem_powExponents (clamp01_le v)

theorem pq_le_one (hp : PowLaws c.params.pow32) (v : Word) : pq c v ≤ kONE :=
  pow32_le_one hp kM2_mem_powExponents (pqT_le_one (pqY_le_one hp v))

/-- Values at or above 1, `+infinity` among them, are encoded as exactly 1.0. -/
theorem pq_of_ge (hp : PowLaws c.params.pow32) {v : Word} (hn : isNaN v = false) (h : fKey kONE ≤ fKey v) :
    pq c v = kONE := by
  have hy : pqY c v = kONE := by
    rw [pqY, clamp01_of_ge hn h]
    exact hp.one kK kK_mem_powExponents
  rw [pq, hy, pqT_one]
  exact hp.one kM2 kM2_mem_powExponents

/-- The least value of `t`, that of a zero inner value, bounds `pq` from below: it is the code of `+0`. -/
theorem pow32_le_pq (hp : PowLaws c.params.pow32) (v : Word) : pow32 c 0x3F560000 kM2 ≤ pq c v := by
  have hy := pqY_le_one hp v
  have ht : 0x3F560000 ≤ pqT (pqY c v) := pqT_zero ▸ pqT_mono (BitVec.le_def.2 (Nat.zero_le _)) hy
  exact hp.mono kM2 kM2_mem_powExponents _ _ ht (BitVec.le_trans (pqT_le_one hy) (by decide))

end

/-! ## Values of patterns up to 1.0 -/

/-- A pattern at most 1.0 denotes a number of [0, 1]. -/
theorem value_bounds_of_le_one {w : Word} (h : w ≤ kONE) :
    isNaN w = false ∧ 0 ≤ fKey w ∧ fKey w ≤ fKey kONE := by
  have hinf : w ≤ fInf := BitVec.le_trans h (by decide)
  have hle := BitVec.le_def.1 h
  rw [fKey_of_le hinf, fKey_of_le (by decide)]
  exact ⟨isNaN_of_le hinf, by omega, by omega⟩

/-! ## `pq` with `POW32_CR` -/

theorem pow32cr_pqT_zero : pow32cr 0x3F560000 kM2 = 0x354436E8 := by decide +kernel

section
variable {c : Config} (hc : c.params.pow32 = pow32cr)
include hc

theorem powLaws_of_eq_pow32cr : PowLaws c.params.pow32 := hc ▸ pow32cr_laws

theorem pq_pow32cr (v : Word) : pq c v = pow32cr (pqT (pow32cr (clamp01 v) kK)) kM2 := by
  rw [pq, pqY, pow32, pow32, hc]

/-- With `POW32_CR` no code is zero: each is at least the code of `+0` (R97). -/
theorem pq_pow32cr_pos (v : Word) : 0 < fKey (pq c v) := by
  have hlaws := powLaws_of_eq_pow32cr hc
  have hmin : 0x354436E8 ≤ pq c v := by
    have hle := pow32_le_pq hlaws v
    rwa [pow32, hc, pow32cr_pqT_zero] at hle
  have hpos : (0x354436E8 : Word).toNat ≤ (pq c v).toNat := BitVec.le_def.1 hmin
  rw [fKey_of_le (BitVec.le_trans (pq_le_one hlaws v) (by decide))]
  exact Int.natCast_pos.2 (Nat.lt_of_lt_of_le (by decide) hpos)

/-- The example of R96: the exact codes of 0.5, of 203/10000, of 0 and of 1. -/
theorem pq_pow32cr_example : pq c 0x3F000000 = 0x3F6D3233 ∧ pq c 0x3CA64C30 = 0x3F14A7F1 ∧
    pq c 0x00000000 = 0x354436E8 ∧ pq c 0x3F800000 = 0x3F800000 := by
  simp only [pq_pow32cr hc]
  decide +kernel

end

/-! ## The command -/

theorem exec_pqenc (s : State) : exec .pqenc s = .next (onColourLanes (pq Config.here) s) := rfl

/-- Settles O11: the command maps `pq` over the colour lanes, and the laws of the power function bound `pq`. -/
theorem pqencEncodesColourLanes : Obligations.PqencEncodesColourLanes := by
  refine ⟨rfl, fun s => ⟨_, exec_pqenc s, rfl, rfl, fun l hl => ?lane⟩, fun c hc v => ?positive,
    fun c hc => pq_pow32cr_example hc⟩
  case lane =>
    have hlaws : PowLaws Config.here.params.pow32 := Config.openParams.ok.pow
    have hpq : l.2 = pq Config.here l.1 := by
      simp only [List.mem_cons, List.not_mem_nil, or_false] at hl
      rcases hl with rfl | rfl | rfl <;> rfl
    rw [hpq]
    refine ⟨?expression, pq_of_not_pos _, pq_of_ge hlaws, value_bounds_of_le_one (pq_le_one hlaws l.1)⟩
    case expression =>
      rintro x y num den u rfl rfl rfl rfl rfl
      rfl
  case positive =>
    obtain ⟨hnan, -, hle⟩ := value_bounds_of_le_one (pq_le_one (powLaws_of_eq_pow32cr hc) v)
    exact ⟨hnan, pq_pow32cr_pos hc v, hle⟩

end Sys2Proof.Machine
end

section
/-! PROOFS. The statements of 41_gamut.md: `NSCALE` (R101), `MAT3` (R103, R104), `CLAMP` (R106) and `LUMA` (R108,
R109). The matrix and the luminance are weighted sums of one shape with positive finite weights, `matRow`; its
rules on non-negative lanes, said once, give both. -/

namespace Sys2Proof.Machine

/-! ## Products and NaN (00_scope.md R11) -/

theorem fUnpack_of_isNaN {w : Word} (h : isNaN w = true) : fUnpack w = .nan := by
  simp only [isNaN, Bool.and_eq_true, beq_iff_eq, bne_iff_ne] at h
  obtain ⟨hexp, hfrac⟩ := h
  rw [fUnpack, if_pos hexp, if_neg hfrac]

theorem fmul_of_isNaN_left {a : Word} (h : isNaN a = true) (b : Word) : fmul a b = fNaN := by
  simp only [fmul, fUnpack_of_isNaN h]

theorem fmul_comm_of_lt {a b : Word} (ha : a.toNat < 0x7F800000) (hb : b.toNat < 0x7F800000) :
    fmul a b = fmul b a := by
  rw [fmul_of_lt ha hb, fmul_of_lt hb ha, Nat.mul_comm]

/-! ## Weighted sums with positive weights (41_gamut.md R103, R108) -/

section
variable {w n x : Word} (hw : PosFinite w)
include hw

theorem PosFinite.mul_le_fInf (hn : n ≤ fInf) : fmul w n ≤ fInf := fmul_le_fInf hw.1 hw.2 hn

theorem PosFinite.mul_fInf : fmul w fInf = fInf := fmul_fInf_right hw.1 (BitVec.le_def.2 hw.2.le)

theorem PosFinite.mul_mono (h : n ≤ x) (hx : x ≤ fInf) : fmul w n ≤ fmul w x := fmul_mono hw.1 hw.2 h hx

end

/-- A row whose coefficients are all positive and finite, as those of `MAT` and of `LW` are. -/
structure MatRow.Positive (m : MatRow) : Prop where
  c0 : PosFinite m.c0
  c1 : PosFinite m.c1
  c2 : PosFinite m.c2

section
variable {m : MatRow} (hm : m.Positive) {n0 n1 n2 x0 x1 x2 : Word}
include hm

/-- Non-negative lanes give a non-negative sum, never a NaN (R104). -/
theorem matRow_le_fInf (h0 : n0 ≤ fInf) (h1 : n1 ≤ fInf) (h2 : n2 ≤ fInf) : matRow m n0 n1 n2 ≤ fInf :=
  fadd_le_fInf (fadd_le_fInf (hm.c0.mul_le_fInf h0) (hm.c1.mul_le_fInf h1)) (hm.c2.mul_le_fInf h2)

/-- An infinite lane makes its product infinite, and the sum with it (R104). -/
theorem matRow_eq_fInf (h0 : n0 ≤ fInf) (h1 : n1 ≤ fInf) (h2 : n2 ≤ fInf)
    (h : n0 = fInf ∨ n1 = fInf ∨ n2 = fInf) : matRow m n0 n1 n2 = fInf := by
  have p0 := hm.c0.mul_le_fInf h0
  have p1 := hm.c1.mul_le_fInf h1
  have p2 := hm.c2.mul_le_fInf h2
  unfold matRow
  rcases h with rfl | rfl | rfl
  · rw [hm.c0.mul_fInf, fadd_fInf_left p1, fadd_fInf_left p2]
  · rw [hm.c1.mul_fInf, fadd_fInf_right p0, fadd_fInf_left p2]
  · rw [hm.c2.mul_fInf, fadd_fInf_right (fadd_le_fInf p0 p1)]

theorem matRow_mono (h0 : n0 ≤ x0) (h1 : n1 ≤ x1) (h2 : n2 ≤ x2) (hx0 : x0 ≤ fInf) (hx1 : x1 ≤ fInf)
    (hx2 : x2 ≤ fInf) : matRow m n0 n1 n2 ≤ matRow m x0 x1 x2 := by
  have p0 := hm.c0.mul_le_fInf hx0
  have p1 := hm.c1.mul_le_fInf hx1
  have first : fadd (fmul m.c0 n0) (fmul m.c1 n1) ≤ fadd (fmul m.c0 x0) (fmul m.c1 x1) :=
    fadd_mono (hm.c0.mul_mono h0 hx0) p0 (hm.c1.mul_mono h1 hx1) p1
  exact fadd_mono first (fadd_le_fInf p0 p1) (hm.c2.mul_mono h2 hx2) (hm.c2.mul_le_fInf hx2)

end

/-! ## `NSCALE` (R101) -/

theorem exec_nscale (s : State) : exec .nscale s = .next (onColourLanes nscale s) := rfl

/-- Settles O14: the command maps `nscale` over the colour lanes, and a product with a NaN is the canonical NaN. -/
theorem nscaleMultipliesColourLanes : Obligations.NscaleMultipliesColourLanes := by
  obtain ⟨hzero, hnegZero, hinf⟩ : nscale 0x00000000 = 0x00000000 ∧ nscale 0x80000000 = 0x80000000 ∧
      nscale 0x7F800000 = 0x7F800000 := by decide +kernel
  exact ⟨rfl, exec_nscale, hzero, hnegZero, hinf, fun v hv => fmul_of_isNaN_left hv kS, by decide +kernel⟩

/-! ## `MAT3` (R103, R104) -/

theorem matR14_rows_positive : matR14.row0.Positive ∧ matR14.row1.Positive ∧ matR14.row2.Positive := by
  refine ⟨⟨?_, ?_, ?_⟩, ⟨?_, ?_, ?_⟩, ⟨?_, ?_, ?_⟩⟩ <;> unfold PosFinite <;> decide

theorem mat3_here (n0 n1 n2 : Word) : mat3 Config.here n0 n1 n2 =
    ⟨matRow matR14.row0 n0 n1 n2, matRow matR14.row1 n0 n1 n2, matRow matR14.row2 n0 n1 n2⟩ := rfl

theorem exec_mat3 (s : State) : exec .mat3 s = .next (applyMatrix Config.here s) := rfl

/-- Settles O15: each row is a sum with positive weights, which stays in `[+0, +infinity]` and keeps an infinity. -/
theorem mat3AppliesTheLiteralMatrix : Obligations.Mat3AppliesTheLiteralMatrix := by
  refine ⟨rfl, exec_mat3, fun n0 n1 n2 h0 h1 h2 => ?range, by decide +kernel⟩
  obtain ⟨row0, row1, row2⟩ := matR14_rows_positive
  rw [mat3_here]
  refine ⟨matRow_le_fInf row0 h0 h1 h2, matRow_le_fInf row1 h0 h1 h2, matRow_le_fInf row2 h0 h1 h2, fun hinf => ?_⟩
  rw [matRow_eq_fInf row0 h0 h1 h2 hinf, matRow_eq_fInf row1 h0 h1 h2 hinf, matRow_eq_fInf row2 h0 h1 h2 hinf]
  rfl

/-! ## `CLAMP` (R106) -/

theorem exec_clamp (s : State) : exec .clamp s = .next { s with v := s.v.map clamp01 } := rfl

@[simp] theorem Lanes.map_clamp01_map_clamp01 (l : Lanes Word) : (l.map clamp01).map clamp01 = l.map clamp01 := by
  simp only [Lanes.map, clamp01_clamp01]

/-- A value of (0, 1), subnormals among them, is its own clamp. -/
theorem clamp01_of_between {v : Word} (hn : isNaN v = false) (h0 : 0 < fKey v) (h1 : fKey v < fKey kONE) :
    clamp01 v = v := by
  have hle := (le_fInf_of_pos hn h0).1
  rw [fKey_of_le hle, fKey_kONE] at h1
  exact clamp01_of_le_one (BitVec.le_def.2 (by rw [kONE_toNat]; omega))

/-- Settles O16: the command maps `clamp01` over all four lanes, and `clamp01` is idempotent. -/
theorem clampClampsAllFourLanes : Obligations.ClampClampsAllFourLanes := by
  refine ⟨rfl, fun s => ⟨_, exec_clamp s, rfl, ?again, fun l hl => ?lane⟩, fun s hv => ?sample⟩
  case again => rw [exec_clamp, Lanes.map_clamp01_map_clamp01]
  case lane =>
    have hclamp : l.2 = clamp01 l.1 := by
      simp only [List.mem_cons, List.not_mem_nil, or_false] at hl
      rcases hl with rfl | rfl | rfl | rfl <;> rfl
    rw [hclamp]
    exact ⟨clamp01_of_not_pos, clamp01_of_ge, clamp01_of_between⟩
  case sample =>
    have hlanes : Lanes.map clamp01 ⟨0x7FC00000, 0x7F800000, 0xBF000000, 0x40000000⟩ =
        ⟨0x00000000, 0x3F800000, 0x00000000, 0x3F800000⟩ := by decide +kernel
    rw [exec_clamp, hv, hlanes]

/-! ## `LUMA` (R108, R109) -/

/-- The weights `LW` of 00_scope.md R14 as a row. -/
def lumaRow : MatRow := ⟨kLW0, kLW1, kLW2⟩

theorem lumaRow_positive : lumaRow.Positive := by
  refine ⟨?_, ?_, ?_⟩ <;> unfold PosFinite <;> decide

theorem lumaDot_eq_matRow (x0 x1 x2 : Word) :
    lumaDot x0 x1 x2 = matRow lumaRow (clamp01 x0) (clamp01 x1) (clamp01 x2) := rfl

/-- The weighted sum of three full lanes, summed left to right in binary32, is the last pattern below 1.0 (R108). -/
theorem matRow_lumaRow_kONE : matRow lumaRow kONE kONE kONE = 0x3F7FFFFF := by decide +kernel

theorem lumaDot_le_one (x0 x1 x2 : Word) : lumaDot x0 x1 x2 ≤ kONE :=
  calc lumaDot x0 x1 x2 ≤ matRow lumaRow kONE kONE kONE :=
        matRow_mono lumaRow_positive (clamp01_le x0) (clamp01_le x1) (clamp01_le x2)
          (by decide) (by decide) (by decide)
    _ = 0x3F7FFFFF := matRow_lumaRow_kONE
    _ ≤ kONE := by decide

theorem fmul_kNITS_le {d : Word} (h : d ≤ kONE) : fmul d kNITS ≤ kNITS :=
  calc fmul d kNITS = fmul kNITS d := fmul_comm_of_lt (lt_inf_of_le_one h) (by decide)
    _ ≤ fmul kNITS kONE := fmul_mono (by decide) (by decide) h (by decide)
    _ = kNITS := by decide +kernel

theorem luma_le (x0 x1 x2 : Word) : luma x0 x1 x2 ≤ 10000 :=
  calc luma x0 x1 x2 ≤ rhaz (fmul (lumaDot x0 x1 x2) kNITS) := min_le_right _ _
    _ ≤ rhaz kNITS := rhaz_mono (fmul_kNITS_le (lumaDot_le_one x0 x1 x2)) (by decide)
    _ = 10000 := by decide +kernel

/-- Three lanes with one clamped value are measured as that value. -/
theorem luma_of_clamp01_eq_same {x0 x1 x2 y : Word} (h0 : clamp01 x0 = y) (h1 : clamp01 x1 = y) (h2 : clamp01 x2 = y) :
    luma x0 x1 x2 = min 65535 (rhaz (fmul (matRow lumaRow y y y) kNITS)) := by
  rw [luma, lumaDot_eq_matRow, h0, h1, h2]

theorem luma_of_clamp01_eq_kONE {x0 x1 x2 : Word} (h0 : clamp01 x0 = kONE) (h1 : clamp01 x1 = kONE)
    (h2 : clamp01 x2 = kONE) : luma x0 x1 x2 = 10000 := by
  rw [luma_of_clamp01_eq_same h0 h1 h2, matRow_lumaRow_kONE]
  decide +kernel

theorem luma_of_not_pos {x0 x1 x2 : Word} (h0 : fKey x0 ≤ 0) (h1 : fKey x1 ≤ 0) (h2 : fKey x2 ≤ 0) :
    luma x0 x1 x2 = 0 := by
  rw [luma_of_clamp01_eq_same (clamp01_of_not_pos (.inr h0)) (clamp01_of_not_pos (.inr h1))
    (clamp01_of_not_pos (.inr h2))]
  decide +kernel

theorem exec_luma (s : State) :
    exec .luma s = .next { s with y := BitVec.ofNat 16 (luma s.v.r s.v.g s.v.b) } := rfl

/-- The measure fits `Y`. -/
theorem ofNat_luma_toNat (x0 x1 x2 : Word) : (BitVec.ofNat 16 (luma x0 x1 x2)).toNat = luma x0 x1 x2 := by
  have hle := luma_le x0 x1 x2
  rw [BitVec.toNat_ofNat]
  omega

/-- Settles O17: the weighted sum of clamped lanes is at most 1.0, so the measure is at most 10000 and fits `Y`. -/
theorem lumaMeasuresTheClampedTriple : Obligations.LumaMeasuresTheClampedTriple := by
  refine ⟨rfl, fun s => ⟨_, exec_luma s, rfl, ofNat_luma_toNat _ _ _, ?bound, ?full, ?dark⟩, by decide +kernel⟩
  case bound =>
    simp only [ofNat_luma_toNat, luma_le]
  case full =>
    intro hr hg hb nr ng nb
    simp only [luma_of_clamp01_eq_kONE (clamp01_of_ge nr hr) (clamp01_of_ge ng hg) (clamp01_of_ge nb hb)]
    rfl
  case dark =>
    intro hr hg hb
    simp only [luma_of_not_pos hr hg hb]
    rfl

end Sys2Proof.Machine
end

section
/-! PROOFS. The statements of 42_quantize_pack.md: `quant` (R112), the quantisers `Q8`, `Q10A2` and `Q16` (R113, R115,
R116) and the packers `PK8`, `PK10` and `PK16` (R118 to R120). The rounded product of a clamped lane with `float(MAX)`
lies in 0 to `MAX` and rises with the clamped lane, which gives the laws of `quant` and with them the thresholds of
the quantisers; a packed field is read back from its own place and is zero in every other. -/

namespace Sys2Proof.Machine

/-! ## `quant` (R112) -/

theorem Depth.scale_posFinite (d : Depth) : PosFinite d.scale := by
  unfold PosFinite
  cases d <;> decide

/-- `float(MAX)` is exactly `MAX`. -/
theorem rhaz_scale (d : Depth) : rhaz d.scale = d.max := by cases d <;> decide +kernel

theorem fmul_clamp01_scale_comm (v : Word) (d : Depth) : fmul (clamp01 v) d.scale = fmul d.scale (clamp01 v) :=
  fmul_comm_of_lt (lt_inf_of_le_one (clamp01_le v)) d.scale_posFinite.2

theorem rhaz_fmul_clamp01_scale_le (v : Word) (d : Depth) : rhaz (fmul (clamp01 v) d.scale) ≤ d.max :=
  calc rhaz (fmul (clamp01 v) d.scale) ≤ rhaz d.scale := rhaz_mono (fmul_clamp01_scale_le v d) d.scale_posFinite.2
    _ = d.max := rhaz_scale d

/-- The outer `min` of R112 never takes effect. -/
theorem quant_eq_rhaz (v : Word) (d : Depth) : quant v d = rhaz (fmul (clamp01 v) d.scale) :=
  min_eq_right (rhaz_fmul_clamp01_scale_le v d)

theorem quant_le_max (v : Word) (d : Depth) : quant v d ≤ d.max := min_le_left _ _

@[simp] theorem quant_clamp01 (v : Word) (d : Depth) : quant (clamp01 v) d = quant v d := by
  rw [quant, quant, clamp01_clamp01]

section
variable {v v' : Word}

theorem quant_of_not_pos (h : isNaN v = true ∨ fKey v ≤ 0) (d : Depth) : quant v d = 0 := by
  rw [quant, clamp01_of_not_pos h]
  cases d <;> decide +kernel

theorem quant_of_ge (hn : isNaN v = false) (h : fKey kONE ≤ fKey v) (d : Depth) : quant v d = d.max := by
  rw [quant, clamp01_of_ge hn h]
  cases d <;> decide +kernel

/-- Product and rounding are monotone, so `quant` rises with the clamped lane. -/
theorem quant_mono_of_clamp01_le (h : clamp01 v ≤ clamp01 v') (d : Depth) : quant v d ≤ quant v' d := by
  have hprod : fmul (clamp01 v) d.scale ≤ fmul (clamp01 v') d.scale := by
    rw [fmul_clamp01_scale_comm, fmul_clamp01_scale_comm]
    exact d.scale_posFinite.mul_mono h (clamp01_le_fInf v')
  have hfin : (fmul (clamp01 v') d.scale).toNat < 0x7F800000 :=
    Nat.lt_of_le_of_lt (BitVec.le_def.1 (fmul_clamp01_scale_le v' d)) d.scale_posFinite.2
  rw [quant_eq_rhaz, quant_eq_rhaz]
  exact rhaz_mono hprod hfin

/-- Monotone on non-negative patterns. -/
theorem quant_mono_of_le (h : v ≤ v') (hv' : v' ≤ fInf) (d : Depth) : quant v d ≤ quant v' d :=
  quant_mono_of_clamp01_le (clamp01_mono h hv') d

/-- Monotone in the value, negatives and both zeros included. -/
theorem quant_mono (hn : isNaN v = false) (hn' : isNaN v' = false) (h : fKey v ≤ fKey v') (d : Depth) :
    quant v d ≤ quant v' d := by
  rcases le_or_gt (fKey v) 0 with hneg | hpos
  · rw [quant_of_not_pos (.inr hneg)]
    exact Nat.zero_le _
  · have hle := (le_fInf_of_pos hn hpos).1
    have hle' := (le_fInf_of_pos hn' (hpos.trans_le h)).1
    rw [fKey_of_le hle, fKey_of_le hle'] at h
    exact quant_mono_of_le (BitVec.le_def.2 (Int.ofNat_le.1 h)) hle' d

end

/-- Settles O18: the product with `float(MAX)` is monotone in the clamped lane, from 0 at `+0` to `MAX` at 1.0. -/
theorem quantIsBoundedAndMonotone : Obligations.QuantIsBoundedAndMonotone := by
  refine ⟨fun v d => ⟨rfl, rhaz_fmul_clamp01_scale_le v d, quant_clamp01 v d⟩,
    fun v v' d hn hn' h => quant_mono hn hn' h d, fun v d h => quant_of_not_pos h d,
    fun v d hn h => quant_of_ge hn h d, by decide +kernel, ⟨rfl, rfl, rfl, rfl⟩, ⟨rfl, rfl, rfl, rfl⟩, fun d => ?_⟩
  exact ⟨quant_of_not_pos (by decide) d, quant_of_ge (by decide) (by decide) d, quant_of_ge (by decide) (by decide) d⟩

/-! ## The quantisers (R113, R115, R116) -/

/-- Every code fits a lane of `Q`. -/
theorem quantLane_toNat (d : Depth) (v : Word) : (quantLane d v).toNat = quant v d := by
  have hmax : d.max < 2 ^ 16 := by cases d <;> decide
  rw [quantLane, BitVec.toNat_ofNat, Nat.mod_eq_of_lt (Nat.lt_of_le_of_lt (quant_le_max v d) hmax)]

theorem quantLane_toNat_le (d : Depth) (v : Word) : (quantLane d v).toNat ≤ d.max :=
  quantLane_toNat d v ▸ quant_le_max v d

theorem quantLane_of_quant {d : Depth} {v : Word} {n : Nat} (h : quant v d = n) : quantLane d v = BitVec.ofNat 16 n :=
  congrArg (BitVec.ofNat 16) h

/-- A pair of a list of (operand, result) pairs holds the result of its operand. -/
theorem snd_eq_of_mem_map {α β : Type} {f : α → β} {xs : List α} {l : α × β} (h : l ∈ xs.map fun x => (x, f x)) :
    l.2 = f l.1 := by
  obtain ⟨x, -, rfl⟩ := List.mem_map.1 h
  rfl

theorem exec_q8 (s : State) : exec .q8 s = .next { s with q := s.v.map (quantLane .d8) } := rfl

/-- Settles O19: each lane is `quant` at 255, whose laws give the corner cases. -/
theorem q8QuantisesAllLanes : Obligations.Q8QuantisesAllLanes := by
  refine ⟨rfl, fun s => ⟨_, exec_q8 s, rfl, fun l hl => ?lane⟩, fun s hv => ?sample⟩
  case lane =>
    have hlane : l.2 = quantLane .d8 l.1 := snd_eq_of_mem_map (xs := [s.v.r, s.v.g, s.v.b, s.v.a]) hl
    obtain ⟨hhalf, htenth⟩ : quantLane .d8 0x3F000000 = 128 ∧ quantLane .d8 0x3DCCCCCD = 26 := by decide +kernel
    rw [hlane]
    exact ⟨quantLane_toNat .d8 _, quantLane_toNat_le .d8 _, fun h => quantLane_of_quant (quant_of_not_pos h _),
      fun hn h => quantLane_of_quant (quant_of_ge hn h _), fun h => h ▸ hhalf, fun h => h ▸ htenth⟩
  case sample =>
    have hlanes : Lanes.map (quantLane .d8) ⟨0x40800000, 0x40000000, 0x3F000000, 0x3F000000⟩ =
        ⟨255, 255, 128, 128⟩ := by decide +kernel
    rw [exec_q8, hv, hlanes]

theorem exec_q10a2 (s : State) : exec .q10a2 s = .next { s with q :=
    ⟨quantLane .d10 s.v.r, quantLane .d10 s.v.g, quantLane .d10 s.v.b, quantLane .d2 s.v.a⟩ } := rfl

/-- Up to the last pattern below 1/6 alpha is quantised to 0 (R115). -/
theorem quant_d2_of_le_sixth {a : Word} (hn : isNaN a = false) (h : fKey a ≤ fKey 0x3E2AAAAA) : quant a .d2 = 0 :=
  Nat.le_zero.1 <| calc quant a .d2 ≤ quant 0x3E2AAAAA .d2 := quant_mono hn (by decide) h .d2
    _ = 0 := by decide +kernel

/-- From the pattern `0x3F555555` on alpha is quantised to 3 (R115). -/
theorem quant_d2_of_ge_fiveSixths {a : Word} (h : 0x3F555555 ≤ a) (ha : a ≤ fInf) : quant a .d2 = 3 :=
  Nat.le_antisymm (quant_le_max a .d2) <| calc
    3 = quant 0x3F555555 .d2 := by decide +kernel
    _ ≤ quant a .d2 := quant_mono_of_le h ha .d2

/-- Settles O20: the colour lanes are `quant` at 1023, alpha is `quant` at 3, and its thresholds follow from the
codes of the boundary patterns by monotonicity. -/
theorem q10a2QuantisesColourAndAlpha : Obligations.Q10a2QuantisesColourAndAlpha := by
  refine ⟨rfl, fun s => ⟨_, exec_q10a2 s, rfl, fun l hl => ?colour, quantLane_toNat .d2 _, quantLane_toNat_le .d2 _,
    ?alpha⟩, fun s hv => ?sample⟩
  case colour =>
    have hlane : l.2 = quantLane .d10 l.1 := snd_eq_of_mem_map (xs := [s.v.r, s.v.g, s.v.b]) hl
    obtain ⟨hdark, hfull⟩ : quantLane .d10 0x354436E8 = 0 ∧ quantLane .d10 0x3F800000 = 1023 := by decide +kernel
    rw [hlane]
    exact ⟨quantLane_toNat .d10 _, quantLane_toNat_le .d10 _, fun h => h ▸ hdark, fun h => h ▸ hfull⟩
  case alpha =>
    obtain ⟨hsixth, hbelowHalf, hhalf⟩ : quantLane .d2 0x3E2AAAAB = 1 ∧ quantLane .d2 0x3EFFFFFF = 1 ∧
        quantLane .d2 0x3F000000 = 2 := by decide +kernel
    exact ⟨fun hn h => quantLane_of_quant (quant_d2_of_le_sixth hn h), fun h => h ▸ hsixth, fun h => h ▸ hbelowHalf,
      fun h => h ▸ hhalf, fun h ha => quantLane_of_quant (quant_d2_of_ge_fiveSixths h ha)⟩
  case sample =>
    obtain ⟨hr, hg, hb, ha⟩ : quantLane .d10 0x3F5CBA0C = 882 ∧ quantLane .d10 0x3F576226 = 861 ∧
        quantLane .d10 0x3F18A72C = 610 ∧ quantLane .d2 0x3F000000 = 2 := by decide +kernel
    rw [exec_q10a2, hv, hr, hg, hb, ha]

theorem exec_q16 (s : State) : exec .q16 s = .next { s with q := s.v.map (quantLane .d16) } := rfl

/-- Settles O21: each lane is `quant` at 65535, which rounds the binary32 product. -/
theorem q16QuantisesAllLanes : Obligations.Q16QuantisesAllLanes := by
  refine ⟨rfl, fun s => ⟨_, exec_q16 s, rfl, fun l hl => ?lane⟩, fun s hv => ?sample, by decide +kernel⟩
  case lane =>
    have hlane : l.2 = quantLane .d16 l.1 := snd_eq_of_mem_map (xs := [s.v.r, s.v.g, s.v.b, s.v.a]) hl
    obtain ⟨hrounded, hhalf, hdark⟩ : quantLane .d16 0x3F707C70 = 61564 ∧ quantLane .d16 0x3F000000 = 32768 ∧
        quantLane .d16 0x354436E8 = 0 := by decide +kernel
    rw [hlane]
    exact ⟨quantLane_toNat .d16 _, quantLane_toNat_le .d16 _, fun h => h ▸ hrounded, fun h => h ▸ hhalf,
      fun h => h ▸ hdark⟩
  case sample =>
    have hlanes : Lanes.map (quantLane .d16) ⟨0x3F5CBA0C, 0x3F576226, 0x3F18A72C, 0x3F000000⟩ =
        ⟨56505, 55137, 39079, 32768⟩ := by decide +kernel
    rw [exec_q16, hv, hlanes]

/-! ## The packers (R118 to R120) -/

/-- A bit of a field's word: the lane's bit, inside the field's place only. -/
theorem getLsbD_packField (h : Half) (bits shift i : Nat) : (packField h bits shift).getLsbD i =
    (decide (i < 64 ∧ shift ≤ i ∧ i < shift + bits) && h.getLsbD (i - shift)) := by
  simp only [packField, BitVec.getLsbD_shiftLeft, BitVec.getLsbD_setWidth, BitVec.getLsbD_extractLsb', Nat.zero_add,
    ← Bool.and_assoc]
  congr 1
  rw [Bool.eq_iff_iff]
  simp only [Bool.and_eq_true, Bool.not_eq_true', decide_eq_true_eq, decide_eq_false_iff_not]
  omega

/-- A field is read back from its own place. -/
theorem extractLsb'_packField_self (h : Half) {bits shift : Nat} (hfit : bits + shift ≤ 64) :
    (packField h bits shift).extractLsb' shift bits = h.extractLsb' 0 bits := by
  ext i hi
  have hplace : shift + i < 64 ∧ shift ≤ shift + i ∧ shift + i < shift + bits := by omega
  rw [BitVec.getElem_extractLsb', getLsbD_packField, BitVec.getElem_extractLsb', decide_eq_true hplace,
    Bool.true_and, Nat.add_sub_cancel_left, Nat.zero_add]

/-- A field is zero in every place that it does not meet. -/
theorem extractLsb'_packField_of_disjoint (h : Half) {bits shift lo n : Nat} (hd : lo + n ≤ shift ∨ shift + bits ≤ lo) :
    (packField h bits shift).extractLsb' lo n = 0 := by
  ext i hi
  have hout : ¬(lo + i < 64 ∧ shift ≤ lo + i ∧ lo + i < shift + bits) := by omega
  rw [BitVec.getElem_extractLsb', getLsbD_packField, decide_eq_false hout, Bool.false_and]
  exact (BitVec.getElem_zero hi).symm

theorem exec_pk8 (s : State) : exec .pk8 s = .next { s with w := pack8 s.q } := rfl

theorem pack8_fields (q : Lanes Half) :
    (pack8 q).extractLsb' 0 8 = q.r.extractLsb' 0 8 ∧ (pack8 q).extractLsb' 8 8 = q.g.extractLsb' 0 8 ∧
    (pack8 q).extractLsb' 16 8 = q.b.extractLsb' 0 8 ∧ (pack8 q).extractLsb' 24 8 = q.a.extractLsb' 0 8 ∧
    (pack8 q).extractLsb' 32 32 = 0 := by
  simp [pack8, BitVec.extractLsb'_or, extractLsb'_packField_self, extractLsb'_packField_of_disjoint]

theorem pack10_fields (q : Lanes Half) :
    (pack10 q).extractLsb' 0 10 = q.r.extractLsb' 0 10 ∧ (pack10 q).extractLsb' 10 10 = q.g.extractLsb' 0 10 ∧
    (pack10 q).extractLsb' 20 10 = q.b.extractLsb' 0 10 ∧ (pack10 q).extractLsb' 30 2 = q.a.extractLsb' 0 2 ∧
    (pack10 q).extractLsb' 32 32 = 0 := by
  simp [pack10, BitVec.extractLsb'_or, extractLsb'_packField_self, extractLsb'_packField_of_disjoint]

theorem pack16_fields (q : Lanes Half) :
    (pack16 q).extractLsb' 0 16 = q.r ∧ (pack16 q).extractLsb' 16 16 = q.g ∧
    (pack16 q).extractLsb' 32 16 = q.b ∧ (pack16 q).extractLsb' 48 16 = q.a := by
  simp [pack16, BitVec.extractLsb'_or, extractLsb'_packField_self, extractLsb'_packField_of_disjoint]

/-- Settles O22: the four fields of `pack8` lie side by side in the lower half. -/
theorem pk8PacksFourBytes : Obligations.Pk8PacksFourBytes := by
  refine ⟨rfl, fun s => ⟨_, exec_pk8 s, rfl, pack8_fields s.q⟩, fun s hq => ?sample⟩
  have hpack : pack8 ⟨255, 255, 128, 128⟩ = 0x8080FFFF := by decide
  rw [exec_pk8, hq, hpack]

/-- Settles O23: the four fields of `pack10` lie side by side in the lower half. -/
theorem pk10PacksTheHdrWord : Obligations.Pk10PacksTheHdrWord := by
  refine ⟨rfl, fun s => ⟨_, exec_pk10 s, rfl, pack10_fields s.q⟩, fun s hq => ?sample⟩
  have hpack : pack10 ⟨882, 861, 610, 2⟩ = 0xA62D7772 := by decide
  rw [exec_pk10, hq, hpack]

theorem exec_pk16 (s : State) : exec .pk16 s = .next { s with w := pack16 s.q } := rfl

/-- Settles O24: the four whole lanes lie side by side in `pack16`. -/
theorem pk16PacksFourChannels : Obligations.Pk16PacksFourChannels := by
  refine ⟨rfl, fun s => ⟨_, exec_pk16 s, rfl, pack16_fields s.q⟩, fun s hq => ?sample⟩
  have hpack : pack16 ⟨56505, 55137, 39079, 32768⟩ = 0x800098A7D761DCB9 := by decide
  rw [exec_pk16, hq, hpack]

end Sys2Proof.Machine
end

section
/-! PROOFS. The statements of 43_memory_ops.md: the index check (R128), `LDPX` (R129) and the stores `STS`, `STH10` and
`STH16` (R130 to R132). Each command is an effect behind the index check, so the error entry is proved once for all
four; a store's effect is one `MemWrite` of `W`, and the effect of `LDPX` is read off byte by byte. -/

namespace Sys2Proof.Machine

/-! ## The index check (R128) -/

section
variable {c : Config} {s : State}

theorem State.indexChecked_of_le (h : c.maxPixels ≤ s.idx.toNat) (effect : State) :
    s.indexChecked c effect = s.raise .idx s.idx :=
  if_pos h

theorem State.indexChecked_of_lt (h : s.idx.toNat < c.maxPixels) (effect : State) : s.indexChecked c effect = effect :=
  if_neg (Nat.not_le.2 h)

end

/-- The four commands that access pixel `IDX`. -/
def scalarMemoryCommands : List Instr := [.ldpx, .sts, .sth10, .sth16]

theorem exec_eq_indexChecked {i : Instr} (hi : i ∈ scalarMemoryCommands) (s : State) :
    ∃ effect, exec i s = .next (s.indexChecked Config.here effect) := by
  simp only [scalarMemoryCommands, List.mem_cons, List.not_mem_nil, or_false] at hi
  rcases hi with rfl | rfl | rfl | rfl <;> exact ⟨_, rfl⟩

/-- At or beyond the capacity each of the four commands is the error entry `E_IDX(IDX)` alone. -/
theorem exec_of_capacity_le_idx {i : Instr} (hi : i ∈ scalarMemoryCommands) {s : State}
    (h : Config.here.maxPixels ≤ s.idx.toNat) :
    exec i s = .next { s with err := true, errcode := 5, errinfo := s.idx } := by
  obtain ⟨effect, heffect⟩ := exec_eq_indexChecked hi s
  rw [heffect, State.indexChecked_of_le h]
  rfl

/-- Settles O25: past the capacity the shared index check raises `E_IDX`; below it the last byte of pixel `IDX` lies
inside each space. -/
theorem indexBeyondCapRaisesIdx : Obligations.IndexBeyondCapRaisesIdx := by
  refine fun s => ⟨fun hge i hi => exec_of_capacity_le_idx hi hge, fun hlt => ?inside⟩
  rw [size_input, size_sdr, size_hdr]
  omega

/-! ## The bytes of a word, stored and loaded (00_scope.md R9) -/

/-- Byte `k` of a word is its `k`-th digit to base 256. -/
theorem ofNat_toNat_div_eq_extractLsb' {n : Nat} (x : BitVec n) (k : Nat) :
    BitVec.ofNat 8 (x.toNat / 256 ^ k) = x.extractLsb' (8 * k) 8 := by
  rw [BitVec.extractLsb', Nat.shiftRight_eq_div_pow, pow_mul]
  norm_num

/-- A store of the low `n` bytes of a word: they stand at its address in order, and the buffer is otherwise as
before. -/
theorem State.memWrite_bytes (s : State) (b : Buffer) (a n : Nat) {m : Nat} (x : BitVec m) :
    (∀ k < n, (s.memWrite b a n x.toNat).byteAt b (a + k) = x.extractLsb' (8 * k) 8) ∧
    (∀ z, ¬(a ≤ z ∧ z < a + n) → (s.memWrite b a n x.toNat).byteAt b z = s.byteAt b z) := by
  refine ⟨fun k hk => ?stored, fun z hz => ?kept⟩
  case stored => rw [State.byteAt_memWrite_add s b a _ hk, ofNat_toNat_div_eq_extractLsb']
  case kept => exact State.byteAt_memWrite_of_outside s _ fun ⟨_, hin⟩ => hz hin

/-- The digits to base 256 of a little-endian read are the bytes read. -/
theorem ofNat_readLittle_div (f : Nat → Byte) {a n k : Nat} (hk : k < n) :
    BitVec.ofNat 8 (readLittle f a n / 256 ^ k) = f (a + k) := by
  induction n generalizing a k with
  | zero => omega
  | succ n ih =>
    have hbyte : (f a).toNat < 256 := (f a).isLt
    cases k with
    | zero =>
      apply BitVec.eq_of_toNat_eq
      rw [readLittle, pow_zero, Nat.div_one, Nat.add_zero a, BitVec.toNat_ofNat]
      omega
    | succ k => calc
        BitVec.ofNat 8 (readLittle f a (n + 1) / 256 ^ (k + 1)) = BitVec.ofNat 8 (readLittle f (a + 1) n / 256 ^ k) := by
          rw [readLittle, pow_succ', ← Nat.div_div_eq_div_mul, Nat.add_mul_div_left _ _ (by decide),
            Nat.div_eq_of_lt hbyte, Nat.zero_add]
        _ = f (a + 1 + k) := ih (by omega)
        _ = f (a + (k + 1)) := by rw [Nat.add_assoc, Nat.add_comm 1 k]

/-- A word read from memory holds the four bytes in order. -/
theorem State.extractLsb'_memRead (s : State) (b : Buffer) (a : Nat) {k : Nat} (hk : k < 4) :
    (BitVec.ofNat 32 (s.memRead b a 4)).extractLsb' (8 * k) 8 = s.byteAt b (a + k) := by
  have hlt : s.memRead b a 4 < 2 ^ 32 := readLittle_lt (s.byteAt b) a 4
  rw [← ofNat_toNat_div_eq_extractLsb', BitVec.toNat_ofNat, Nat.mod_eq_of_lt hlt]
  exact ofNat_readLittle_div (s.byteAt b) hk

/-! ## `LDPX` (R129) -/

/-- The exponent field is bits 30:23. -/
theorem isNonfinite_iff (w : Word) : isNonfinite w = true ↔ w.extractLsb' 23 8 = 255 := by
  rw [isNonfinite, beq_iff_eq, fExp, ← BitVec.toNat_inj, BitVec.extractLsb'_toNat, Nat.shiftRight_eq_div_pow]
  rfl

theorem sampleNonfinite_iff (p : Lanes Word) :
    sampleNonfinite p = true ↔ ∃ x ∈ [p.r, p.g, p.b, p.a], x.extractLsb' 23 8 = 255 := by
  simp [sampleNonfinite, isNonfinite_iff, or_assoc]

/-- Lane by lane a sample is sixteen bytes of `IN`. -/
theorem State.sample_bytes (s : State) (i : Nat) {l : Nat × Word}
    (hl : l ∈ [(0, (s.sample i).r), (4, (s.sample i).g), (8, (s.sample i).b), (12, (s.sample i).a)]) {k : Nat}
    (hk : k < 4) : l.2.extractLsb' (8 * k) 8 = s.byteAt .input (16 * i + l.1 + k) := by
  have hlane : l.2 = BitVec.ofNat 32 (s.memRead .input (16 * i + l.1) 4) := by
    simp only [List.mem_cons, List.not_mem_nil, or_false] at hl
    rcases hl with rfl | rfl | rfl | rfl <;> rfl
  rw [hlane, State.extractLsb'_memRead s .input _ hk]

/-- Below the capacity `LDPX` loads sample `IDX` and notes its non-finite lanes. -/
theorem exec_ldpx_of_lt {s : State} (h : s.idx.toNat < Config.here.maxPixels) :
    exec .ldpx s = .next { s with
      v := s.sample s.idx.toNat, nonfin := s.nonfin || sampleNonfinite (s.sample s.idx.toNat) } :=
  congrArg Host.Outcome.next (State.indexChecked_of_lt h _)

/-- Settles O26: the lanes of `V` are the sample's, byte by byte, and `NONFIN` notes an all-ones exponent field. -/
theorem ldpxLoadsTheSample : Obligations.LdpxLoadsTheSample := by
  refine ⟨rfl, fun s h => exec_of_capacity_le_idx (by decide) h, fun s h => ⟨_, exec_ldpx_of_lt h, rfl,
    fun l hl k hk => s.sample_bytes _ hl hk, ?nonfin⟩⟩
  case nonfin => rw [Bool.or_eq_true, sampleNonfinite_iff]

/-! ## The stores (R130 to R132) -/

/-- Below the capacity `STS` is one `MemWrite`. -/
theorem exec_sts_of_lt {s : State} (h : s.idx.toNat < Config.here.maxPixels) :
    exec .sts s = .next (s.memWrite .sdr (4 * s.idx.toNat) 4 s.w.toNat) :=
  congrArg Host.Outcome.next (State.indexChecked_of_lt h _)

/-- Below the capacity `STH16` is one `MemWrite`. -/
theorem exec_sth16_of_lt {s : State} (h : s.idx.toNat < Config.here.maxPixels) :
    exec .sth16 s = .next (s.memWrite .hdr (8 * s.idx.toNat) 8 s.w.toNat) :=
  congrArg Host.Outcome.next (State.indexChecked_of_lt h _)

/-- Settles O27: the index check, then the byte rule of one store to `SDR`. -/
theorem stsStoresTheSdrPixel : Obligations.StsStoresTheSdrPixel :=
  ⟨rfl, fun _ h => exec_of_capacity_le_idx (by decide) h,
    fun s h => ⟨_, exec_sts_of_lt h, rfl, s.memWrite_bytes .sdr _ 4 s.w⟩⟩

/-- Settles O28: the index check, then the byte rule of one four-byte store to `HDR`. -/
theorem sth10StoresTheHdrWord : Obligations.Sth10StoresTheHdrWord :=
  ⟨rfl, fun _ h => exec_of_capacity_le_idx (by decide) h,
    fun s h => ⟨_, exec_sth10_of_lt h, rfl, s.memWrite_bytes .hdr _ 4 s.w⟩⟩

/-- Settles O29: the index check, then the byte rule of one eight-byte store to `HDR`. -/
theorem sth16StoresTheHdrPixel : Obligations.Sth16StoresTheHdrPixel :=
  ⟨rfl, fun _ h => exec_of_capacity_le_idx (by decide) h,
    fun s h => ⟨_, exec_sth16_of_lt h, rfl, s.memWrite_bytes .hdr _ 8 s.w⟩⟩

end Sys2Proof.Machine
end

section
/-! PROOFS. The statements of 44_cll.md: the rounded division (R139) and the light-level commands `CLLCLR`, `CLLACC` and
`CLLFIN` (R140, R141, R143). Bounds rest on one fact of the invariant: the sum is at most the maximum times the count.
Uniform frames (R144) are an induction over the accumulated measures. -/

namespace Sys2Proof.Machine

/-! ## The rounded division (R139) -/

section
variable {n : Nat} (hn : 1 ≤ n)
include hn

/-- Adding one half is adding `n` to the numerator over the denominator `2 n`. -/
theorem rdiv_eq_floor (s : Nat) : (rdiv s n : ℤ) = ⌊(s : ℚ) / n + 1 / 2⌋ := by
  have hn0 : (n : ℚ) ≠ 0 := by exact_mod_cast Nat.ne_of_gt hn
  have hfrac : (s : ℚ) / n + 1 / 2 = ((2 * s + n : ℕ) : ℚ) / ((2 * n : ℕ) : ℚ) := by
    push_cast
    field_simp
  rw [hfrac, Rat.floor_natCast_div_natCast, rdiv, Int.natCast_div]

/-- The half added to an exact multiple is lost in the floor. -/
theorem rdiv_mul_self (k : Nat) : rdiv (n * k) n = k := by
  rw [rdiv, show 2 * (n * k) + n = n + 2 * n * k by ring, Nat.add_mul_div_left _ _ (by omega),
    Nat.div_eq_of_lt (by omega), Nat.zero_add]

/-- A mean of `n` terms that are at most `m` each is at most `m`. -/
theorem rdiv_le {s m : Nat} (h : s ≤ m * n) : rdiv s n ≤ m := calc
  rdiv s n ≤ rdiv (n * m) n := Nat.div_le_div_right (by rw [Nat.mul_comm n m]; omega)
  _ = m := rdiv_mul_self hn m

end

/-- Settles O31: the floor form, the exact multiples and the bound, each for every count from 1. -/
theorem rdivRoundsHalfUp : Obligations.RdivRoundsHalfUp := by
  refine ⟨fun s n hn => ⟨rfl, rdiv_eq_floor hn s⟩, fun n k hn => rdiv_mul_self hn k, fun s n m hn h => rdiv_le hn h,
    by decide, by decide, by decide, fun n hn => ?zero⟩
  case zero => exact rdiv_mul_self hn 0

/-! ## The commands, one equation per case (R140, R141, R143) -/

theorem exec_cllclr (s : State) : exec .cllclr s = .next s.cllClear := rfl

theorem exec_cllacc_of_full {s : State} (h : s.cllCnt = 0xFFFFFFFF) : exec .cllacc s = .next (s.raise .cll 0x51) :=
  congrArg Host.Outcome.next (if_pos h)

theorem exec_cllacc_of_not_full {s : State} (h : s.cllCnt ≠ 0xFFFFFFFF) :
    exec .cllacc s = .next (s.cllAccumulate s.y) :=
  congrArg Host.Outcome.next (if_neg h)

theorem exec_cllfin_of_empty {s : State} (h : s.cllCnt = 0) : exec .cllfin s = .next (s.raise .cll 0x52) :=
  congrArg Host.Outcome.next (if_pos h)

theorem exec_cllfin_of_not_empty {s : State} (h : s.cllCnt ≠ 0) : exec .cllfin s = .next s.cllPublish :=
  congrArg Host.Outcome.next (if_neg h)

/-- Settles O32: `CLLCLR` is the clearing of the three accumulators. -/
theorem cllclrClearsTheAccumulators : Obligations.CllclrClearsTheAccumulators :=
  ⟨rfl, fun s => ⟨_, exec_cllclr s, rfl, s.cllClear_maxcll, s.cllClear_maxpall⟩⟩

/-! ## The accumulators as numbers (R141) -/

/-- The count is not zero as a number when the register is not zero. -/
theorem State.cllCnt_pos {s : State} (h : s.cllCnt ≠ 0) : 1 ≤ s.cllCnt.toNat :=
  Nat.one_le_iff_ne_zero.2 fun h0 => h (BitVec.eq_of_toNat_eq h0)

theorem State.cllAccumulate_cllMax_toNat (s : State) (y : Half) :
    (s.cllAccumulate y).cllMax.toNat = max s.cllMax.toNat y.toNat := by
  rw [State.cllAccumulate_cllMax, apply_ite BitVec.toNat, max_def_lt]
  simp only [BitVec.lt_def]

section
variable {s : State} (h : s.cllCnt ≠ 0xFFFFFFFF)
include h

/-- Below the last count one more measure can be counted (R35). -/
theorem State.cllCnt_toNat_add_one_lt : s.cllCnt.toNat + 1 < 2 ^ 32 := by
  have hne : s.cllCnt.toNat ≠ 0xFFFFFFFF := fun hc => h (BitVec.eq_of_toNat_eq hc)
  omega

theorem State.cllAccumulate_cllCnt_toNat (y : Half) : (s.cllAccumulate y).cllCnt.toNat = s.cllCnt.toNat + 1 :=
  BitVec.toNat_add_of_lt (s.cllCnt_toNat_add_one_lt h)

/-- Fewer than `2 ^ 32 - 1` terms of 16 bits leave room for one more in 48 bits (R35). -/
theorem State.cllAccumulate_cllSum_toNat (hsum : s.cllSum.toNat ≤ s.cllMax.toNat * s.cllCnt.toNat) (y : Half) :
    (s.cllAccumulate y).cllSum.toNat = s.cllSum.toNat + y.toNat := by
  have hterm : (y.setWidth 48).toNat = y.toNat := BitVec.toNat_setWidth_of_le (by decide)
  have hcount := s.cllCnt_toNat_add_one_lt h
  have hbound : s.cllSum.toNat ≤ 0xFFFF * s.cllCnt.toNat :=
    hsum.trans (Nat.mul_le_mul_right _ (Nat.le_pred_of_lt s.cllMax.isLt))
  rw [State.cllAccumulate_cllSum, BitVec.toNat_add_of_lt (by omega), hterm]

end

/-- Settles O33: the error entry at the last count; below it each accumulator takes in `Y` as a number. -/
theorem cllaccAccumulatesY : Obligations.CllaccAccumulatesY := by
  refine ⟨rfl, fun s hfull => exec_cllacc_of_full hfull, fun s h => ⟨_, exec_cllacc_of_not_full h, rfl,
    s.cllAccumulate_cllMax_toNat s.y, State.cllAccumulate_cllCnt_toNat h s.y, rfl, fun hinv => ?noWrap⟩⟩
  case noWrap => exact State.cllAccumulate_cllSum_toNat h hinv.sum s.y

/-! ## The published levels (R143) -/

section
variable {s : State} (h : s.cllCnt ≠ 0) (hsum : s.cllSum.toNat ≤ s.cllMax.toNat * s.cllCnt.toNat)
include h hsum

/-- The mean is at most the maximum, so it fits the 16 bits of `MAXPALL`. -/
theorem State.cllPublish_maxpall_toNat :
    s.cllPublish.maxpall.toNat = rdiv s.cllSum.toNat s.cllCnt.toNat := by
  have hle : rdiv s.cllSum.toNat s.cllCnt.toNat ≤ s.cllMax.toNat := rdiv_le (State.cllCnt_pos h) hsum
  rw [State.cllPublish_maxpall, BitVec.toNat_ofNat, Nat.mod_eq_of_lt (hle.trans_lt s.cllMax.isLt)]

theorem State.cllPublish_maxpall_le_maxcll : s.cllPublish.maxpall.toNat ≤ s.cllPublish.maxcll.toNat := by
  rw [State.cllPublish_maxpall_toNat h hsum, State.cllPublish_maxcll]
  exact rdiv_le (State.cllCnt_pos h) hsum

end

/-- Settles O34: the error entry at count 0; otherwise the two levels, bounded through the invariant's sum. -/
theorem cllfinPublishesMaxAndMean : Obligations.CllfinPublishesMaxAndMean := by
  refine ⟨rfl, fun s hempty => exec_cllfin_of_empty hempty, fun s h => ⟨_, exec_cllfin_of_not_empty h, rfl, rfl,
    fun hinv => ⟨?fits, ?bounded⟩⟩⟩
  case fits => exact State.cllPublish_maxpall_toNat h hinv.sum
  case bounded => exact State.cllPublish_maxpall_le_maxcll h hinv.sum

/-! ## Uniform frames (R144) -/

theorem execAll_cons_of_next {i : Instr} {s t : State} (h : exec i s = .next t) (rest : List Instr) :
    execAll (i :: rest) s = execAll rest t := by
  rw [execAll, h]

/-- Commands that answer a next state are followed by the rest from there. -/
theorem execAll_append_of_next {first : List Instr} {s t : State} (h : execAll first s = .next t) (rest : List Instr) :
    execAll (first ++ rest) s = execAll rest t := by
  induction first generalizing s with
  | nil => cases h; rfl
  | cons i first ih =>
    rw [execAll] at h
    split at h
    case h_1 u hu => rw [List.cons_append, execAll_cons_of_next hu, ih h]
    case h_2 => cases h
    case h_3 => cases h

/-- `Y` holds `k`, and the accumulators have taken in `k` exactly `m` times since they were cleared. -/
structure State.Uniform (k : Half) (m : Nat) (s : State) : Prop where
  measure : s.y = k
  count : s.cllCnt.toNat = m
  sum : s.cllSum.toNat = m * k.toNat
  maximum : s.cllMax = if m = 0 then 0 else k

theorem State.uniform_cllClear (s : State) : s.cllClear.Uniform s.y 0 :=
  ⟨rfl, rfl, (Nat.zero_mul _).symm, rfl⟩

namespace State.Uniform
variable {k : Half} {m : Nat} {s : State}

/-- The sum is at most the maximum times the count, as the invariant has it. -/
theorem sum_le (hs : s.Uniform k m) : s.cllSum.toNat ≤ s.cllMax.toNat * s.cllCnt.toNat := by
  rw [hs.sum, hs.maximum, hs.count]
  split
  case isTrue hm => simp [hm]
  case isFalse => exact (Nat.mul_comm _ _).le

theorem not_full (hs : s.Uniform k m) (hm : m + 1 < 2 ^ 32) : s.cllCnt ≠ 0xFFFFFFFF := by
  intro hfull
  have hlast : m = 2 ^ 32 - 1 := by rw [← hs.count, hfull]; rfl
  omega

theorem not_empty (hs : s.Uniform k m) (hm : 1 ≤ m) : s.cllCnt ≠ 0 := by
  intro hempty
  have hzero : m = 0 := by rw [← hs.count, hempty]; rfl
  omega

theorem cllAccumulate (hs : s.Uniform k m) (hm : m + 1 < 2 ^ 32) : (s.cllAccumulate k).Uniform k (m + 1) where
  measure := hs.measure
  count := by rw [State.cllAccumulate_cllCnt_toNat (hs.not_full hm), hs.count]
  sum := by rw [State.cllAccumulate_cllSum_toNat (hs.not_full hm) hs.sum_le, hs.sum, Nat.succ_mul]
  maximum := by
    apply BitVec.eq_of_toNat_eq
    rw [State.cllAccumulate_cllMax_toNat, hs.maximum, if_neg (Nat.succ_ne_zero m)]
    split
    case isTrue => exact Nat.zero_max _
    case isFalse => exact Nat.max_self _

/-- `n` times `CLLACC` takes in `k` another `n` times, below the last count. -/
theorem execAll_replicate (hs : s.Uniform k m) {n : Nat} (hn : m + n < 2 ^ 32) :
    ∃ t, execAll (List.replicate n .cllacc) s = .next t ∧ t.Uniform k (m + n) := by
  induction n generalizing m s with
  | zero => exact ⟨s, rfl, hs⟩
  | succ n ih =>
    have hm : m + 1 < 2 ^ 32 := by omega
    obtain ⟨t, hrun, ht⟩ := ih (hs.cllAccumulate hm) (by omega)
    have hstep := exec_cllacc_of_not_full (hs.not_full hm)
    rw [hs.measure] at hstep
    refine ⟨t, ?_, by rwa [Nat.add_assoc, Nat.add_comm 1 n] at ht⟩
    rw [List.replicate_succ, execAll_cons_of_next hstep, hrun]

/-- Of a uniform frame that is not empty, maximum and mean are its one measure. -/
theorem cllPublish_levels (hs : s.Uniform k m) (hm : 1 ≤ m) : s.cllPublish.maxcll = k ∧ s.cllPublish.maxpall = k := by
  constructor
  · rw [State.cllPublish_maxcll, hs.maximum, if_neg (Nat.ne_of_gt hm)]
  · rw [State.cllPublish_maxpall, hs.sum, hs.count, rdiv_mul_self hm, BitVec.ofNat_toNat, BitVec.setWidth_eq]

end State.Uniform

/-- Settles O35: cleared accumulators hold no measure, `n` times `CLLACC` takes in `n` equal ones, and what `CLLFIN`
publishes of them is that measure. -/
theorem uniformLuminanceGivesEqualLevels : Obligations.UniformLuminanceGivesEqualLevels := by
  intro s n hpos hlt
  obtain ⟨t, hrun, ht⟩ := s.uniform_cllClear.execAll_replicate (n := n) (by omega)
  rw [Nat.zero_add] at ht
  refine ⟨t.cllPublish, ?run, ht.cllPublish_levels hpos⟩
  rw [execAll_cons_of_next (exec_cllclr s), execAll_append_of_next hrun,
    execAll_cons_of_next (exec_cllfin_of_not_empty (ht.not_empty hpos)), execAll]

end Sys2Proof.Machine
end

section
/-! PROOFS. The statements of 45_frame.md on acceptance (R149): the checks of a frame command in their order. -/

namespace Sys2Proof.Machine

/-! ## The checks of a frame command, one equation per outcome (R149) -/

theorem exec_runGm (s : State) : exec .runGm s = .next (startFrame Config.here .gm 0x80 s) := rfl

theorem exec_runSl (s : State) : exec .runSl s = .next (startFrame Config.here .sl 0x81 s) := rfl

section
variable {c : Config} {m : EngMode} {w : Word} {s : State}

theorem startFrame_of_empty (h : s.width = 0 ∨ s.height = 0) : startFrame c m w s = s.raise .dim w :=
  if_pos h

section
variable (hw : s.width ≠ 0) (hh : s.height ≠ 0)
include hw hh

theorem startFrame_of_wrong_size (hn : s.frameSize ≠ s.inCount.toNat) :
    startFrame c m w s = s.raise .size (BitVec.ofNat 32 (min s.frameSize 0xFFFFFFFF)) :=
  (if_neg (not_or.2 ⟨hw, hh⟩)).trans (if_pos hn)

/-- The declared count is the frame's size here, so the information word is `IN_COUNT`, and nothing of `N` is cut. -/
theorem startFrame_of_beyond_capacity (hn : s.frameSize = s.inCount.toNat) (hc : c.maxPixels < s.frameSize) :
    startFrame c m w s = s.raise .cap s.inCount := by
  have hinfo : BitVec.ofNat 32 s.frameSize = s.inCount := by rw [hn, BitVec.ofNat_toNat, BitVec.setWidth_eq]
  rw [startFrame, if_neg (not_or.2 ⟨hw, hh⟩), if_neg (not_not.2 hn), if_pos hc, hinfo]

theorem startFrame_of_accepted (hn : s.frameSize = s.inCount.toNat) (hc : s.frameSize ≤ c.maxPixels) :
    startFrame c m w s = acceptFrame m s := by
  rw [startFrame, if_neg (not_or.2 ⟨hw, hh⟩), if_neg (not_not.2 hn), if_neg (Nat.not_lt.2 hc)]

end
end

/-- Acceptance as one record update: only the single-layer mode clears the accumulators (R149, step 4). -/
theorem acceptFrame_eq (m : EngMode) (s : State) :
    acceptFrame m s =
      { s with done := false, pixdone := 0, engine := some ⟨m, s.frameSize, []⟩
               cllMax := if m = .sl then 0 else s.cllMax
               cllSum := if m = .sl then 0 else s.cllSum
               cllCnt := if m = .sl then 0 else s.cllCnt } := by
  cases m <;> rfl

/-- Settles O37: both commands are `startFrame` with their mode and word, whose four outcomes exclude each other. -/
theorem frameChecksInOrder : Obligations.FrameChecksInOrder := by
  intro s p hp
  refine ⟨?word, ?command, fun c => ⟨startFrame_of_empty, startFrame_of_wrong_size,
    startFrame_of_beyond_capacity, fun hw hh hn hc => ?accepted⟩⟩
  case accepted => exact (startFrame_of_accepted hw hh hn hc).trans (acceptFrame_eq p.2.1 s)
  all_goals
    simp only [List.mem_cons, List.not_mem_nil, or_false] at hp
    obtain rfl | rfl := hp
  case word.inl | word.inr => rfl
  case command.inl => exact exec_runGm s
  case command.inr => exact exec_runSl s

end Sys2Proof.Machine
end

section
/-! PROOFS. The statements of 46_control.md: the drop rule while `ERR = 1` (R166), `NOP` (R167), `CLR` (R168). First
the outcomes of a `CMD` write while no frame runs (R165, steps 2 and 4); the statements follow from them. -/

namespace Sys2Proof.Machine

/-! ## Dispatch while no frame runs (R165) -/

/-- `BUSY` is the existence of the engine state (10_state.md R42). -/
theorem State.busy_of_idle {s : State} (h : s.engine = none) : s.busy = false := by
  rw [State.busy, h]
  rfl

theorem exec_nop (s : State) : exec .nop s = .next s := rfl

section
variable {s : State} (hb : s.busy = false)
include hb

/-- Step 2: while `ERR = 1` every word but `CLR`'s is dropped, match word or not (R166). -/
theorem writeCmd_of_err (herr : s.err = true) {w : Word} (hw : w ≠ encode .clr) :
    writeCmd w s = .next (s.respond .ok) := by
  simp [writeCmd, hb, herr, hw]

/-- Step 4: without an error the word's command executes. -/
theorem writeCmd_encode_of_no_err (herr : s.err = false) (i : Instr) :
    writeCmd (encode i) s = exec i (s.respond .ok) := by
  simp [writeCmd, hb, herr]

/-- Step 2 executes `CLR` as step 4 does, so it executes whether or not `ERR` is set (R168). -/
theorem writeCmd_clr : writeCmd (encode .clr) s = .next (s.respond .ok).clearStatus := by
  cases herr : s.err with
  | true => simp [writeCmd, hb, herr, exec_clr]
  | false => exact (writeCmd_encode_of_no_err hb herr .clr).trans (exec_clr _)

/-- Dropped while `ERR = 1` and executed otherwise, `NOP` changes the response alone (R167). -/
theorem writeCmd_nop : writeCmd (encode .nop) s = .next (s.respond .ok) := by
  cases herr : s.err with
  | true => exact writeCmd_of_err hb herr (by decide)
  | false => exact (writeCmd_encode_of_no_err hb herr .nop).trans (exec_nop _)

/-- While no frame runs every register but `CMD` takes its write (10_state.md R41). -/
theorem hostWriteReg_of_not_busy {r : Reg} (hc : r ≠ .cmd) (x : Word) :
    hostWriteReg (regOffset r) 4 x s = .next ((writeReg s r x).respond .ok) := by
  by_cases hi : r = .irqEn
  · rw [hi, hostWriteReg_irqEn]
    rfl
  · rw [hostWriteReg_regOffset s hc hi, hb]
    rfl

end

/-! ## The drop rule, `NOP` and `CLR` -/

/-- Settles O5: `ERR` enters the dispatch of a `CMD` write alone; the other accesses have the rules they have in every
state that is not busy. -/
theorem errDropsAllCommandsButClr : Obligations.ErrDropsAllCommandsButClr := by
  refine ⟨fun s w rest hpend hidle herr hw => ?dropped, fun s r x _ hidle hr hc => ?register,
    fun s b off n x _ hidle hr hok => ?buffer⟩
  case dropped =>
    have hbusy : State.busy { s with host := rest } = false := State.busy_of_idle hidle
    exact (step_of_cmdPending hpend hidle).trans (writeCmd_of_err hbusy herr hw)
  case register =>
    refine ⟨?_, congrArg State.response (hostRead_regOffset hr r)⟩
    rw [hostWrite_reg_of_released hr, hostWriteReg_of_not_busy (State.busy_of_idle hidle) hc]
  case buffer =>
    have hbusy := State.busy_of_idle hidle
    exact ⟨hostWrite_buf_of_ok hr hbusy hok x, congrArg State.response (hostRead_buf_of_ok hr hbusy hok)⟩

/-- Settles O8: one rule of dispatch per clause. -/
theorem nopDoesNothing : Obligations.NopDoesNothing :=
  ⟨rfl, exec_nop, fun _ hb => writeCmd_of_busy hb _, fun _ hb => writeCmd_nop hb⟩

/-- Settles O9: `CLR` is `clearStatus` with or without `ERR`; it clears both flags that `irq` follows. -/
theorem clrClearsStatusAndError : Obligations.ClrClearsStatusAndError := by
  refine ⟨rfl, exec_clr, fun s hb => ⟨_, writeCmd_clr hb, ?irq, rfl⟩, fun s hb => writeCmd_of_busy hb _⟩
  case irq => exact State.irq_of_flags_clear (State.clearStatus_done _) (State.clearStatus_err _)

end Sys2Proof.Machine
end

section
/-! PROOFS. The statements on the invariant (10_state.md section 3; 45_frame.md R151): it holds after reset, every step
answers a next state, and that state has it. The invariant is cut in two: `Legal`, which every operation keeps in every
state, and `EngineInv`, which only acceptance and the engine's own steps touch. What a host access can do is said once,
`HostEffect`, for every later proof about steps. -/

namespace Sys2Proof.Machine

/-! ## The two parts of the invariant -/

/-- The part of `Inv` that speaks of no engine. -/
structure Legal (c : Config) (s : State) : Prop where
  bufWf : ∀ b : Buffer, (s.buffer b).wf
  bufWithin : ∀ b : Buffer, (s.buffer b).within (c.size b)
  errClear : s.err = false → s.errcode = 0 ∧ s.errinfo = 0
  errCode : s.err = true → 1 ≤ s.errcode.toNat ∧ s.errcode.toNat ≤ 6
  sum : s.cllSum.toNat ≤ s.cllMax.toNat * s.cllCnt.toNat
  mean : s.maxpall.toNat ≤ s.maxcll.toNat

section
variable {c : Config} {s t : State}

theorem Inv.legal (h : Inv c s) : Legal c s := ⟨h.bufWf, h.bufWithin, h.errClear, h.errCode, h.sum, h.mean⟩

theorem Legal.inv_of_engineInv (h : Legal c s) (hrun : ∀ e, s.engine = some e → EngineInv c s e) : Inv c s :=
  ⟨h.bufWf, h.bufWithin, h.errClear, h.errCode, h.sum, h.mean, hrun⟩

theorem Legal.inv_of_idle (h : Legal c s) (he : s.engine = none) : Inv c s :=
  h.inv_of_engineInv fun e h' => by rw [he] at h'; cases h'

/-- Legality speaks of the buffers, the error record and the light level alone. -/
theorem Legal.of_frame (h : Legal c s) (ht : t = { s with
    done := t.done, nonfin := t.nonfin, irqEn := t.irqEn, width := t.width, height := t.height, inCount := t.inCount,
    pixdone := t.pixdone, idx := t.idx, v := t.v, q := t.q, y := t.y, w := t.w, engine := t.engine, rst := t.rst,
    resets := t.resets, choice := t.choice, host := t.host, rstInput := t.rstInput, response := t.response }) :
    Legal c t := by
  rw [ht]
  exact ⟨h.bufWf, h.bufWithin, h.errClear, h.errCode, h.sum, h.mean⟩

/-- The invariant speaks of none of the fields that a bus response, a free choice or a delivered operation changes. -/
theorem Inv.of_frame (h : Inv c s) (ht : t = { s with
    irqEn := t.irqEn, choice := t.choice, host := t.host, rstInput := t.rstInput, response := t.response }) :
    Inv c t := by
  refine (h.legal.of_frame (by rw [ht])).inv_of_engineInv fun e he => ?_
  rw [ht] at he ⊢
  exact { h.running e he with }

/-! ## Legality under the updates of the state -/

theorem Legal.memWrite (h : Legal c s) {b : Buffer} {a n : Nat} (hfit : a + n ≤ c.size b) (v : Nat) :
    Legal c (s.memWrite b a n v) where
  bufWf b' := by
    rw [State.memWrite_buffer]
    split
    · exact Memory.store_wf (h.bufWf b) a n v
    · exact h.bufWf b'
  bufWithin b' := by
    rw [State.memWrite_buffer]
    split
    next hb => exact hb ▸ Memory.store_within (h.bufWithin b) hfit v
    next => exact h.bufWithin b'
  errClear := by simpa using h.errClear
  errCode := by simpa using h.errCode
  sum := by simpa using h.sum
  mean := by simpa using h.mean

/-- The codes of the cause table (60_exceptions.md R176). -/
theorem Cause.code_bounds (e : Cause) : 1 ≤ e.code.toNat ∧ e.code.toNat ≤ 6 := by
  cases e <;> decide

theorem Legal.raise (h : Legal c s) (e : Cause) (info : Word) : Legal c (s.raise e info) where
  bufWf := by simpa using h.bufWf
  bufWithin := by simpa using h.bufWithin
  errClear := nofun
  errCode _ := e.code_bounds
  sum := h.sum
  mean := h.mean

theorem Legal.clearStatus (h : Legal c s) : Legal c s.clearStatus where
  bufWf := by simpa using h.bufWf
  bufWithin := by simpa using h.bufWithin
  errClear _ := ⟨rfl, rfl⟩
  errCode := nofun
  sum := h.sum
  mean := h.mean

theorem Legal.cllClear (h : Legal c s) : Legal c s.cllClear where
  bufWf := by simpa using h.bufWf
  bufWithin := by simpa using h.bufWithin
  errClear := h.errClear
  errCode := h.errCode
  sum := Nat.zero_le _
  mean := h.mean

/-- One measure more: the new maximum bounds it and all before it. -/
theorem Legal.cllAccumulate (h : Legal c s) (hcnt : s.cllCnt ≠ 0xFFFFFFFF) (y : Half) : Legal c (s.cllAccumulate y) where
  bufWf := by simpa using h.bufWf
  bufWithin := by simpa using h.bufWithin
  errClear := h.errClear
  errCode := h.errCode
  sum := by
    rw [State.cllAccumulate_cllSum_toNat hcnt h.sum, State.cllAccumulate_cllMax_toNat,
      State.cllAccumulate_cllCnt_toNat hcnt, Nat.mul_succ]
    have hold : s.cllSum.toNat ≤ max s.cllMax.toNat y.toNat * s.cllCnt.toNat :=
      h.sum.trans (Nat.mul_le_mul_right _ (le_max_left _ _))
    exact Nat.add_le_add hold (le_max_right _ _)
  mean := h.mean

theorem Legal.cllPublish (h : Legal c s) (hcnt : s.cllCnt ≠ 0) : Legal c s.cllPublish where
  bufWf := by simpa using h.bufWf
  bufWithin := by simpa using h.bufWithin
  errClear := h.errClear
  errCode := h.errCode
  sum := h.sum
  mean := State.cllPublish_maxpall_le_maxcll hcnt h.sum

theorem Legal.acceptFrame (h : Legal c s) (m : EngMode) : Legal c (acceptFrame m s) := by
  have hstart : Legal c { s with done := false, pixdone := 0, engine := some ⟨m, s.frameSize, []⟩ } := h.of_frame rfl
  cases m with
  | gm => exact hstart
  | sl => exact hstart.cllClear

theorem Legal.startFrame (h : Legal c s) (m : EngMode) (w : Word) : Legal c (startFrame c m w s) := by
  rcases startFrame_cases c m w s with ⟨-, he⟩ | ⟨-, -, he⟩ | ⟨-, -, -, he⟩ | ⟨-, -, -, he⟩ <;> rw [he]
  · exact h.raise _ _
  · exact h.raise _ _
  · exact h.raise _ _
  · exact h.acceptFrame m

/-- The index check guards an effect that is legal below the capacity. -/
theorem Legal.indexChecked (h : Legal c s) {effect : State} (heff : s.idx.toNat < c.maxPixels → Legal c effect) :
    Legal c (s.indexChecked c effect) := by
  rcases s.indexChecked_cases c effect with ⟨-, he⟩ | ⟨hlt, he⟩ <;> rw [he]
  · exact h.raise _ _
  · exact heff hlt

/-- The writes of pixel `i` lie inside `SDR` and `HDR` (45_frame.md R153). -/
theorem Legal.writePixel (h : Legal c s) {m : EngMode} {i : Nat} (hi : i < c.maxPixels)
    (hcnt : m = .sl → s.cllCnt ≠ 0xFFFFFFFF) (p : Lanes Word) : Legal c (writePixel c m i p s) := by
  have hsdr : Legal c ((s.noteSample p).memWrite .sdr (4 * i) 4 (sdrPx p).toNat) :=
    Legal.memWrite (h.of_frame rfl) (by rw [size_sdr]; omega) _
  cases m with
  | gm => exact hsdr.memWrite (by rw [size_hdr]; omega) _
  | sl =>
    have hhdr := hsdr.memWrite (b := .hdr) (a := 8 * i) (n := 8) (by rw [size_hdr]; omega) (hdr16Px c p).toNat
    exact hhdr.cllAccumulate (by simpa using hcnt rfl) _

theorem legal_afterReset (c : Config) (s : State) (level : Bool) (resets : Nat) :
    Legal c (s.afterReset level resets) where
  bufWf b := by cases b <;> exact List.Pairwise.nil
  bufWithin b := by cases b <;> exact fun _ hp => nomatch hp
  errClear _ := ⟨rfl, rfl⟩
  errCode := nofun
  sum := Nat.le_refl 0
  mean := Nat.le_refl 0

end

/-- Settles O57: the reset state has empty buffers, no error, no measure and no engine. -/
theorem invariantHoldsAfterReset : Obligations.InvariantHoldsAfterReset :=
  (legal_afterReset Config.here State.reset false 0).inv_of_idle rfl

/-! ## Commands -/

/-- Every command answers a next state. -/
theorem exec_answers (i : Instr) (s : State) : ∃ t, exec i s = .next t := by
  cases i <;> exact ⟨_, rfl⟩

section
variable {s t : State} {i : Instr}

/-- Every command keeps legality. -/
theorem Legal.exec (h : Legal Config.here s) (hrun : exec i s = .next t) : Legal Config.here t := by
  cases i
  case nop | gdec | genc | pqenc | nscale | mat3 | clamp | luma | q8 | q10a2 | q16 | pk8 | pk10 | pk16 =>
    cases hrun
    exact h.of_frame rfl
  case clr => cases hrun; exact h.clearStatus
  case ldpx => cases hrun; exact h.indexChecked fun _ => h.of_frame rfl
  case sts => cases hrun; exact h.indexChecked fun hlt => h.memWrite (by rw [size_sdr]; omega) _
  case sth10 => cases hrun; exact h.indexChecked fun hlt => h.memWrite (by rw [size_hdr]; omega) _
  case sth16 => cases hrun; exact h.indexChecked fun hlt => h.memWrite (by rw [size_hdr]; omega) _
  case cllclr => cases hrun; exact h.cllClear
  case cllacc =>
    by_cases hfull : s.cllCnt = 0xFFFFFFFF
    · rw [exec_cllacc_of_full hfull] at hrun; cases hrun; exact h.raise _ _
    · rw [exec_cllacc_of_not_full hfull] at hrun; cases hrun; exact h.cllAccumulate hfull _
  case cllfin =>
    by_cases hempty : s.cllCnt = 0
    · rw [exec_cllfin_of_empty hempty] at hrun; cases hrun; exact h.raise _ _
    · rw [exec_cllfin_of_not_empty hempty] at hrun; cases hrun; exact h.cllPublish hempty
  case runGm => cases hrun; exact h.startFrame _ _
  case runSl => cases hrun; exact h.startFrame _ _

/-- The conditions under which a frame is accepted (45_frame.md R149). -/
structure State.Acceptable (c : Config) (s : State) : Prop where
  width : s.width ≠ 0
  height : s.height ≠ 0
  count : s.frameSize = s.inCount.toNat
  fits : s.frameSize ≤ c.maxPixels

theorem State.Acceptable.pos {c : Config} (h : s.Acceptable c) : 0 < s.frameSize :=
  Nat.mul_pos (Nat.pos_of_ne_zero fun h0 => h.width (BitVec.eq_of_toNat_eq h0))
    (Nat.pos_of_ne_zero fun h0 => h.height (BitVec.eq_of_toNat_eq h0))

/-- A frame command is an error entry or the acceptance of an acceptable frame. -/
theorem startFrame_raises_or_accepts (c : Config) (m : EngMode) (w : Word) (s : State) :
    (∃ e info, startFrame c m w s = s.raise e info) ∨ (s.Acceptable c ∧ startFrame c m w s = acceptFrame m s) := by
  rcases startFrame_cases c m w s with ⟨-, he⟩ | ⟨-, -, he⟩ | ⟨-, -, -, he⟩ | ⟨hne, hn, hfit, he⟩
  · exact .inl ⟨_, _, he⟩
  · exact .inl ⟨_, _, he⟩
  · exact .inl ⟨_, _, he⟩
  · obtain ⟨hw, hh⟩ := not_or.1 hne
    exact .inr ⟨⟨hw, hh, hn, hfit⟩, he⟩

/-- No command touches the engine but an accepted frame command. -/
theorem exec_engine_cases (hrun : exec i s = .next t) :
    t.engine = s.engine ∨ (i ≠ .clr ∧ ∃ m, s.Acceptable Config.here ∧ t = acceptFrame m s) := by
  have hstart (m : EngMode) (w : Word) : (startFrame Config.here m w s).engine = s.engine ∨
      (s.Acceptable Config.here ∧ startFrame Config.here m w s = acceptFrame m s) := by
    rcases startFrame_raises_or_accepts Config.here m w s with ⟨e, info, he⟩ | h
    · exact .inl (by rw [he, State.raise_engine])
    · exact .inr h
  have hchecked (effect : State) (heff : effect.engine = s.engine) :
      (s.indexChecked Config.here effect).engine = s.engine := by
    rcases s.indexChecked_cases Config.here effect with ⟨-, he⟩ | ⟨-, he⟩ <;> rw [he]
    · exact s.raise_engine _ _
    · exact heff
  cases i
  case runGm => cases hrun; exact (hstart _ _).imp id fun h => ⟨nofun, _, h⟩
  case runSl => cases hrun; exact (hstart _ _).imp id fun h => ⟨nofun, _, h⟩
  case ldpx => cases hrun; exact .inl (hchecked _ rfl)
  case sts | sth10 | sth16 => cases hrun; exact .inl (hchecked _ (State.memWrite_engine ..))
  case cllacc =>
    cases hrun
    exact .inl (by rw [apply_ite State.engine, State.raise_engine, State.cllAccumulate_engine, ite_self])
  case cllfin =>
    cases hrun
    exact .inl (by rw [apply_ite State.engine, State.raise_engine, State.cllPublish_engine, ite_self])
  all_goals cases hrun; exact .inl rfl

theorem acceptFrame_engine (m : EngMode) (s : State) : (acceptFrame m s).engine = some ⟨m, s.frameSize, []⟩ := by
  cases m <;> rfl

/-- An accepted frame starts with a legal engine (45_frame.md R149, step 4). -/
theorem State.Acceptable.engineInv {c : Config} (h : s.Acceptable c) (herr : s.err = false) (hr : s.rst = false)
    (m : EngMode) : EngineInv c (acceptFrame m s) ⟨m, s.frameSize, []⟩ where
  noErr := (acceptFrame_err m s).trans herr
  noRst := by cases m <;> exact hr
  notDone := acceptFrame_done m s
  size := by cases m <;> rfl
  count := by cases m <;> exact h.count
  pos := h.pos
  fits := h.fits
  sorted := List.Pairwise.nil
  below := nofun
  progress := by cases m <;> rfl
  accumulated hm := by
    cases m with
    | gm => cases hm
    | sl => rfl

/-- A command that dispatch lets through keeps the invariant (46_control.md R165). -/
theorem Inv.exec (h : Inv Config.here s) (he : s.engine = none) (hr : s.rst = false)
    (herr : s.err = true → i = .clr) (hrun : exec i s = .next t) : Inv Config.here t := by
  have hlegal : Legal Config.here t := h.legal.exec hrun
  rcases exec_engine_cases hrun with hkeep | ⟨hclr, m, hacc, rfl⟩
  · exact hlegal.inv_of_idle (hkeep.trans he)
  · have hnoErr : s.err = false := Bool.eq_false_iff.2 fun h' => hclr (herr h')
    refine hlegal.inv_of_engineInv fun e h' => ?_
    rw [acceptFrame_engine] at h'
    cases h'
    exact hacc.engineInv hnoErr hr m

end

/-! ## What a host access can do -/

/-- The outcomes of a host operation (10_state.md R40, R41; 20_memory.md R62, R63; 46_control.md R165): it is answered
with no effect on the block but `IRQ_EN`'s, or, out of reset with no frame running, it writes a register, writes a
buffer, raises `E_ILLCMD`, or executes the command whose word it delivers. -/
inductive HostEffect (op : HostOp) (s : State) : State → Prop
  | answered (x : BitVec 2) (ops : List HostOp) (r : Option Response) :
      HostEffect op s { s with irqEn := x, host := ops, response := r }
  | register (released : s.rst = false) (idle : s.engine = none) (r : Reg) (x : Word) :
      HostEffect op s ((writeReg s r x).respond .ok)
  | stored (released : s.rst = false) (idle : s.engine = none) {b : Buffer} {off n : Nat}
      (fits : off + n ≤ Config.here.size b) (v : Nat) : HostEffect op s ((s.memWrite b off n v).respond .ok)
  | illegal (released : s.rst = false) (idle : s.engine = none) (noErr : s.err = false) (w : Word) :
      HostEffect op s ((s.respond .ok).raise .illcmd w)
  | command (released : s.rst = false) (idle : s.engine = none) {i : Instr} {t : State}
      (delivers : DeliversCmd op (encode i)) (allowed : s.err = true → i = .clr)
      (run : exec i (s.respond .ok) = .next t) : HostEffect op s t

theorem State.engine_of_not_busy {s : State} (h : ¬s.busy = true) : s.engine = none := by
  simpa [State.busy] using h

section
variable {op : HostOp} {s : State}

theorem HostEffect.responded (r : Response) : HostEffect op s (s.respond r) := .answered s.irqEn s.host (some r)

theorem hostRead_effect (win : Window) (off n : Nat) : HostEffect op s (hostRead win off n s) := by
  unfold hostRead
  split
  · exact .responded _
  · split
    all_goals split <;> exact .responded _

theorem writeCmd_effect (hr : s.rst = false) {w : Word} (hd : DeliversCmd op w) :
    ∃ t, writeCmd w s = .next t ∧ HostEffect op s t := by
  unfold writeCmd
  split
  case isTrue => exact ⟨_, rfl, .responded _⟩
  case isFalse hb =>
    have he := State.engine_of_not_busy hb
    split
    case isTrue herr =>
      split
      case isTrue hw => exact ⟨_, exec_clr _, .command hr he (hw ▸ hd) (fun _ => rfl) (exec_clr _)⟩
      case isFalse => exact ⟨_, rfl, .responded _⟩
    case isFalse herr =>
      split
      case h_1 => exact ⟨_, rfl, .illegal hr he (Bool.eq_false_iff.2 herr) w⟩
      case h_2 i hi =>
        obtain ⟨t, ht⟩ := exec_answers i (s.respond .ok)
        exact ⟨t, ht, .command hr he (decode_eq_ok_iff_eq_encode.1 hi ▸ hd) (fun h => absurd h herr) ht⟩

theorem regOffset_of_regAt {off : Nat} {r : Reg} (h : regAt off = some r) : regOffset r = off := by
  simpa using List.find?_some h

theorem hostWriteReg_effect (hr : s.rst = false) {off n : Nat} {w : Word} (hd : off = 4 → n = 4 → DeliversCmd op w) :
    ∃ t, hostWriteReg off n w s = .next t ∧ HostEffect op s t := by
  unfold hostWriteReg
  split
  case isTrue => exact ⟨_, rfl, .responded _⟩
  case isFalse hok =>
    split
    case h_1 hcmd =>
      have hn : n = 4 := by
        by_contra hn
        exact hok (by rw [regAccessOk_eq_false (.inl hn)]; rfl)
      exact writeCmd_effect hr (hd (regOffset_of_regAt hcmd).symm hn)
    case h_2 => exact ⟨_, rfl, .answered _ _ _⟩
    case h_3 r _ _ _ =>
      split
      case isTrue => exact ⟨_, rfl, .responded _⟩
      case isFalse hb => exact ⟨_, rfl, .register hr (State.engine_of_not_busy hb) r w⟩
    case h_4 => split <;> exact ⟨_, rfl, .responded _⟩

theorem hostWrite_effect {win : Window} {off n : Nat} {w : Word}
    (hd : win = .reg → off = 4 → n = 4 → DeliversCmd op w) :
    ∃ t, hostWrite win off n w s = .next t ∧ HostEffect op s t := by
  unfold hostWrite
  split
  case isTrue => exact ⟨_, rfl, .responded _⟩
  case isFalse hrst =>
    have hr : s.rst = false := Bool.eq_false_iff.2 hrst
    split
    case h_1 => exact hostWriteReg_effect hr (hd rfl)
    case h_2 b =>
      split
      case isTrue hok =>
        obtain ⟨hb, hok⟩ := Bool.and_eq_true_iff.1 hok
        obtain ⟨-, -, hfit⟩ := (bufAccessOk_iff ..).1 hok
        have hbusy : ¬s.busy = true := by simpa using hb
        exact ⟨_, rfl, .stored hr (State.engine_of_not_busy hbusy) hfit _⟩
      case isFalse => exact ⟨_, rfl, .responded _⟩

/-- A routed address is the offset above its window's base (20_memory.md R59). -/
theorem addr_of_route {c : Config} {addr off : Nat} {win : Window} (h : route c addr = some (win, off)) :
    addr = c.params.windowBase win + off ∧ off < c.params.windowSize win := by
  unfold route at h
  split at h
  case h_1 w hw =>
    cases h
    have hin := List.find?_some hw
    simp only [Bool.and_eq_true, decide_eq_true_eq] at hin
    omega
  case h_2 => cases h

section
variable {addr : Nat}

theorem performHostOp_readAt_of_some {p : Window × Nat} (h : route Config.here addr = some p) (n : Nat) (s : State) :
    performHostOp (.readAt addr n) s = .next (hostRead p.1 p.2 n s) := by
  simp only [performHostOp, h]

theorem performHostOp_readAt_of_none (h : route Config.here addr = none) (n : Nat) (s : State) :
    performHostOp (.readAt addr n) s = .next { s with response := none } := by
  simp only [performHostOp, h]

theorem performHostOp_writeAt_of_some {p : Window × Nat} (h : route Config.here addr = some p) (n : Nat) (w : Word)
    (s : State) : performHostOp (.writeAt addr n w) s = hostWrite p.1 p.2 n w s := by
  simp only [performHostOp, h]

theorem performHostOp_writeAt_of_none (h : route Config.here addr = none) (n : Nat) (w : Word) (s : State) :
    performHostOp (.writeAt addr n w) s = .next { s with response := none } := by
  simp only [performHostOp, h]

end

theorem pollStatus_effect : HostEffect op s (pollStatus s) := by
  rcases pollStatus_cases s with ⟨-, he⟩ | ⟨-, -, he⟩ | ⟨-, -, -, he⟩ <;> rw [he] <;> exact .answered _ _ _

/-- Every host operation answers a next state, and has one of the effects. -/
theorem performHostOp_effect (op : HostOp) (s : State) :
    ∃ t, performHostOp op s = .next t ∧ HostEffect op s t := by
  cases op with
  | read win off n => exact ⟨_, rfl, hostRead_effect win off n⟩
  | write win off n w => exact hostWrite_effect fun hw ho hn => .inl (by rw [hw, ho, hn])
  | readAt addr n =>
    cases hroute : route Config.here addr with
    | none => exact ⟨_, performHostOp_readAt_of_none hroute n s, .answered _ _ _⟩
    | some p => exact ⟨_, performHostOp_readAt_of_some hroute n s, hostRead_effect _ _ n⟩
  | writeAt addr n w =>
    cases hroute : route Config.here addr with
    | none => exact ⟨_, performHostOp_writeAt_of_none hroute n w s, .answered _ _ _⟩
    | some p =>
      rw [performHostOp_writeAt_of_some hroute]
      refine hostWrite_effect fun hw ho hn => .inr ?_
      rw [(addr_of_route hroute).1, hw, ho, hn]
      rfl
  | waitDone => exact ⟨_, rfl, pollStatus_effect⟩

/-- No register write touches what the invariant speaks of while no frame runs. -/
theorem Legal.writeReg {c : Config} (h : Legal c s) (r : Reg) (x : Word) : Legal c (writeReg s r x) := by
  cases r <;> exact h.of_frame rfl

@[simp] theorem writeReg_engine (s : State) (r : Reg) (x : Word) : (writeReg s r x).engine = s.engine := by
  cases r <;> rfl

theorem HostEffect.inv {t : State} (h : Inv Config.here s) (heff : HostEffect op s t) : Inv Config.here t := by
  cases heff with
  | answered x ops r => exact h.of_frame rfl
  | register _ he r x =>
    have hlegal : Legal Config.here ((Machine.writeReg s r x).respond .ok) := (h.legal.writeReg r x).of_frame rfl
    exact hlegal.inv_of_idle ((writeReg_engine s r x).trans he)
  | stored _ he hfit v =>
    have hlegal := (h.legal.memWrite hfit v).of_frame (t := (s.memWrite _ _ _ v).respond .ok) rfl
    exact hlegal.inv_of_idle ((s.memWrite_engine ..).trans he)
  | illegal _ he _ w =>
    have hresp : Legal Config.here (s.respond .ok) := h.legal.of_frame rfl
    exact (hresp.raise .illcmd w).inv_of_idle he
  | command hr he _ hclr hrun => exact Inv.exec (s := s.respond .ok) (h.of_frame rfl) he hr hclr hrun

end

/-! ## The engine's steps -/

/-- The engine with one more pixel done. -/
def Engine.mark (e : Engine) (i : Nat) : Engine := { e with doneSet := insertPixel i e.doneSet }

/-- A pixel step leaves one pixel less to do. -/
theorem Engine.mark_left {e : Engine} {i : Nat} (h : i ∉ e.doneSet) :
    (e.mark i).n - (e.mark i).doneSet.length = e.n - e.doneSet.length - 1 := by
  simp only [Engine.mark, insertPixel_length h, Nat.sub_add_eq]

section
variable {c : Config} {s t : State} {e : Engine}

/-- The pixels done are different and below `N`, so there are at most `N` of them. -/
theorem EngineInv.length_le (h : EngineInv c s e) : e.doneSet.length ≤ e.n := by
  have hnodup : e.doneSet.Nodup := h.sorted.imp Nat.ne_of_lt
  have hsub : e.doneSet ⊆ List.range e.n := fun i hi => List.mem_range.2 (h.below i hi)
  simpa using (hnodup.subperm hsub).length_le

theorem EngineInv.length_lt (h : EngineInv c s e) {i : Nat} (hi : i < e.n) (hdone : i ∉ e.doneSet) :
    e.doneSet.length < e.n := by
  have hnodup : (i :: e.doneSet).Nodup := List.nodup_cons.2 ⟨hdone, h.sorted.imp Nat.ne_of_lt⟩
  have hsub : i :: e.doneSet ⊆ List.range e.n :=
    List.cons_subset.2 ⟨List.mem_range.2 hi, fun j hj => List.mem_range.2 (h.below j hj)⟩
  simpa using (hnodup.subperm hsub).length_le

/-- With every pixel done, `DONESET` lists the frame. -/
theorem EngineInv.doneSet_eq_range (h : EngineInv c s e) (hall : ∀ i < e.n, i ∈ e.doneSet) :
    e.doneSet = List.range e.n :=
  sorted_ext h.sorted List.pairwise_lt_range fun i => ⟨fun hi => List.mem_range.2 (h.below i hi),
    fun hi => hall i (List.mem_range.1 hi)⟩

/-- While a pixel remains the count is not full (45_frame.md R154). -/
theorem EngineInv.cllCnt_not_full (h : EngineInv c s e) {i : Nat} (hi : i < e.n) (hdone : i ∉ e.doneSet)
    (hm : e.mode = .sl) : s.cllCnt ≠ 0xFFFFFFFF := by
  have hcnt : s.cllCnt.toNat = e.doneSet.length := h.accumulated hm
  have hlt := h.length_lt hi hdone
  have hcap := h.fits.trans (maxPixels_le c)
  have hfull : (0xFFFFFFFF : Word).toNat = 0xFFFFFFFF := rfl
  rw [← BitVec.toNat_inj.ne, hfull]
  omega

/-- After the last pixel the count is the frame's size, which is not zero (45_frame.md R158). -/
theorem EngineInv.cllCnt_ne_zero (h : EngineInv c s e) (hall : ∀ i < e.n, i ∈ e.doneSet) (hm : e.mode = .sl) :
    s.cllCnt ≠ 0 := by
  have hcnt : s.cllCnt.toNat = e.doneSet.length := h.accumulated hm
  have hpos := h.pos
  have hempty : (0 : Word).toNat = 0 := rfl
  rw [h.doneSet_eq_range hall, List.length_range] at hcnt
  rw [← BitVec.toNat_inj.ne, hempty]
  omega

/-- A pixel's writes leave everything alone but `NONFIN`, the output buffers and the accumulators. -/
theorem writePixel_frame (c : Config) (m : EngMode) (i : Nat) (p : Lanes Word) (s : State) :
    writePixel c m i p s = { s with
      nonfin := (writePixel c m i p s).nonfin, sdrBuf := (writePixel c m i p s).sdrBuf,
      hdrBuf := (writePixel c m i p s).hdrBuf, cllMax := (writePixel c m i p s).cllMax,
      cllSum := (writePixel c m i p s).cllSum, cllCnt := (writePixel c m i p s).cllCnt } := by
  cases m with
  | gm => rw [writePixel_gm]
  | sl => rw [writePixel_sl]

theorem writePixel_cllCnt (c : Config) (m : EngMode) (i : Nat) (p : Lanes Word) (s : State) :
    (writePixel c m i p s).cllCnt = if m = .sl then s.cllCnt + 1 else s.cllCnt := by
  cases m with
  | gm => rw [writePixel_gm, if_neg nofun]
  | sl => rw [writePixel_sl, if_pos rfl]

/-- The pixel step of a remaining pixel keeps the engine legal (45_frame.md R153). -/
theorem EngineInv.of_pixelStep (h : EngineInv c s e) {i : Nat} (hi : i < e.n) (hdone : i ∉ e.doneSet)
    (hmove : pixelStep c i e s = .next t) : EngineInv c t (e.mark i) := by
  have hlt := h.length_lt hi hdone
  have hcap := h.fits.trans_lt (maxPixels_lt c)
  have hsucc (x : Word) (hx : x.toNat = e.doneSet.length) : (x + 1).toNat = (insertPixel i e.doneSet).length := by
    rw [BitVec.toNat_add_of_lt (by simp; omega), hx, insertPixel_length hdone]
    rfl
  obtain ⟨-, rfl⟩ := pixelStep_next hmove
  have hframe := writePixel_frame c e.mode i (s.sample i) s
  have hcnt := writePixel_cllCnt c e.mode i (s.sample i) s
  generalize Machine.writePixel c e.mode i (s.sample i) s = u at hframe hcnt
  rw [hframe]
  exact
    { noErr := h.noErr, noRst := h.noRst, notDone := h.notDone, size := h.size, count := h.count, pos := h.pos
      fits := h.fits
      sorted := insertPixel_sorted h.sorted
      below := fun j hj => (mem_insertPixel.1 hj).elim (· ▸ hi) (h.below j)
      progress := hsucc _ h.progress
      accumulated := fun (hm : e.mode = .sl) => by
        rw [if_pos hm] at hcnt
        exact hcnt ▸ hsucc _ (h.accumulated hm) }

/-- Under the invariant the pixel step of a remaining pixel answers, and keeps the invariant. -/
theorem Inv.pixelStep_answers (h : Inv c s) (he : s.engine = some e) {i : Nat} (hi : i < e.n) (hdone : i ∉ e.doneSet) :
    ∃ t, pixelStep c i e s = .next t ∧ Inv c t ∧ t.engine = some (e.mark i) := by
  have hrun := h.running e he
  have hmove := pixelStep_of_lt (hi.trans_le hrun.fits) e s
  have hwrite := h.legal.writePixel (hi.trans_le hrun.fits) (hrun.cllCnt_not_full hi hdone) (s.sample i)
  refine ⟨_, hmove, (hwrite.of_frame rfl).inv_of_engineInv fun e' he' => ?_, rfl⟩
  cases he'
  exact hrun.of_pixelStep hi hdone hmove

/-- Under the invariant the completion step answers, ends the frame and keeps the invariant. -/
theorem Inv.completionStep_answers (h : Inv c s) (he : s.engine = some e) (hall : ∀ i < e.n, i ∈ e.doneSet) :
    ∃ t, completionStep e s = .next t ∧ Inv c t ∧ t.engine = none ∧ t.done = true := by
  have hrun := h.running e he
  unfold completionStep
  split
  case h_1 => exact ⟨_, rfl, (h.legal.of_frame rfl).inv_of_idle rfl, rfl, rfl⟩
  case h_2 hm =>
    have hcnt := hrun.cllCnt_ne_zero hall hm
    rw [if_neg hcnt]
    exact ⟨_, rfl, ((h.legal.cllPublish hcnt).of_frame rfl).inv_of_idle rfl, rfl, rfl⟩

theorem Inv.tick (h : Inv c s) : Inv c s.tick := h.of_frame rfl

theorem Engine.all_done_of_remaining_nil (h : e.remaining = []) : ∀ i < e.n, i ∈ e.doneSet := by
  intro i hi
  by_contra hdone
  have hmem : i ∈ e.remaining := Engine.mem_remaining.2 ⟨hi, hdone⟩
  rw [h] at hmem
  cases hmem

/-- What an engine step does under the invariant: one more pixel is done, or the frame ends. -/
theorem Inv.engineStep_answers (h : Inv c s) (he : s.engine = some e) :
    ∃ t, engineStep c e s = .next t ∧ Inv c t ∧
      ((∃ i, i < e.n ∧ i ∉ e.doneSet ∧ t.engine = some (e.mark i) ∧
        pixelStep c i e s.tick = .next t) ∨
       (e.doneSet.length = e.n ∧ t.engine = none ∧ t.done = true ∧ completionStep e s = .next t)) := by
  rcases engineStep_cases c e s with ⟨hnil, heq⟩ | ⟨i, hi, heq⟩
  · have hall := Engine.all_done_of_remaining_nil hnil
    obtain ⟨t, hmove, hinv, hidle, hd⟩ := h.completionStep_answers he hall
    have hlen : e.doneSet.length = e.n := by
      rw [(h.running e he).doneSet_eq_range hall, List.length_range]
    exact ⟨t, heq.trans hmove, hinv, .inr ⟨hlen, hidle, hd, hmove⟩⟩
  · obtain ⟨hlt, hdone⟩ := Engine.mem_remaining.1 hi
    obtain ⟨t, hmove, hinv, hrun⟩ := h.tick.pixelStep_answers he hlt hdone
    exact ⟨t, heq.trans hmove, hinv, .inl ⟨i, hlt, hdone, hrun, hmove⟩⟩

end

/-! ## Steps -/

theorem Inv.after_driveReset {c : Config} {s : State} (h : Inv c s) (level : Bool) : Inv c (driveReset level s) := by
  unfold driveReset
  split
  · exact (legal_afterReset c s _ _).inv_of_idle rfl
  · split
    · exact (legal_afterReset c s _ _).inv_of_idle rfl
    · exact h

theorem agentStep_engine_of_running {s : State} {e : Engine} (he : s.engine = some e) :
    agentStep .engine s = engineStep Config.here e s := by
  simp only [agentStep, he]

theorem agentStep_engine_of_idle {s : State} (he : s.engine = none) : agentStep .engine s = .next s := by
  simp only [agentStep, he]

/-- Whichever agent moves, its move answers a next state with the invariant. -/
theorem Inv.agentStep_answers {s : State} (h : Inv Config.here s) (a : Agent) :
    ∃ t, agentStep a s = .next t ∧ Inv Config.here t := by
  cases a with
  | host =>
    change ∃ t, hostStep s = .next t ∧ Inv Config.here t
    unfold hostStep
    split
    case h_1 => exact ⟨s, rfl, h⟩
    case h_2 op rest _ =>
      obtain ⟨t, ht, heff⟩ := performHostOp_effect op { s with host := rest }
      exact ⟨t, ht, heff.inv (h.of_frame rfl)⟩
  | engine =>
    cases he : s.engine with
    | none => exact ⟨s, agentStep_engine_of_idle he, h⟩
    | some e =>
      obtain ⟨t, ht, hinv, -⟩ := h.engineStep_answers he
      exact ⟨t, (agentStep_engine_of_running he).trans ht, hinv⟩
  | platform =>
    refine ⟨_, rfl, ?_⟩
    unfold platformStep
    split
    case h_1 => exact h
    case h_2 level rest _ => exact Inv.after_driveReset (h.of_frame rfl) level

/-- A step answers a next state, and keeps the invariant. -/
theorem Inv.step_answers {s : State} (h : Inv Config.here s) : ∃ t, step s = .next t ∧ Inv Config.here t := by
  rcases step_cases s with ⟨-, hs⟩ | ⟨a, -, hs | hs⟩ <;> rw [hs]
  · exact ⟨s, rfl, h⟩
  · exact h.agentStep_answers a
  · exact h.tick.agentStep_answers a

/-- Settles O58: a step is one agent's move, and each agent's move keeps the invariant. -/
theorem everyStepKeepsTheInvariant : Obligations.EveryStepKeepsTheInvariant := by
  intro s t h hst
  obtain ⟨t', ht', hinv⟩ := h.step_answers
  rw [hst] at ht'
  cases ht'
  exact hinv

/-- Settles O59: each agent's move answers; the two faults need an engine that the invariant excludes. -/
theorem noStepStopsUnderTheInvariant : Obligations.NoStepStopsUnderTheInvariant := by
  intro s h
  obtain ⟨t, ht, -⟩ := h.step_answers
  exact ⟨t, ht⟩

end Sys2Proof.Machine
end

section
/-! PROOFS. The statements of 45_frame.md on the engine: an accepted frame starts it (R149), each of its steps is a
move of R151, two pixel steps commute and so no result depends on their order (R152). Commutation makes the moves
locally confluent; the Church-Rosser theorem then joins any two runs, and a state without an engine has no move. -/

namespace Sys2Proof.Machine

/-! ## Acceptance (R149) -/

section
variable {s : State} (h : s.Acceptable Config.here)
include h

theorem exec_runGm_of_acceptable : exec .runGm s = .next (acceptFrame .gm s) :=
  congrArg Host.Outcome.next (startFrame_of_accepted h.width h.height h.count h.fits)

theorem exec_runSl_of_acceptable : exec .runSl s = .next (acceptFrame .sl s) :=
  congrArg Host.Outcome.next (startFrame_of_accepted h.width h.height h.count h.fits)

end

/-- Settles O36: the registers make the frame acceptable, and acceptance is one record update. -/
theorem acceptedFrameStartsTheEngine : Obligations.AcceptedFrameStartsTheEngine := by
  intro s p hp hw hh hn hfit
  have hacc : s.Acceptable Config.here := ⟨hw, hh, hn, hn.trans_le hfit⟩
  simp only [List.mem_cons, List.not_mem_nil, or_false] at hp
  obtain rfl | rfl := hp
  · exact ⟨_, exec_runGm_of_acceptable hacc, rfl, rfl, nofun, fun _ => ⟨rfl, rfl, rfl⟩, rfl⟩
  · exact ⟨_, exec_runSl_of_acceptable hacc, rfl, rfl, fun _ => ⟨rfl, rfl, rfl⟩, nofun, rfl⟩

/-- Settles O38: the engine completes when no pixel remains, and otherwise takes one that does. -/
theorem engineStepIsAnAllowedMove : Obligations.EngineStepIsAnAllowedMove := by
  intro s t e he hstep
  rcases engineStep_cases Config.here e s with ⟨hnil, heq⟩ | ⟨i, hi, heq⟩
  · exact .inl (.complete he (Engine.all_done_of_remaining_nil hnil) (heq.symm.trans hstep))
  · obtain ⟨hlt, hdone⟩ := Engine.mem_remaining.1 hi
    exact .inr (.pixel (s := s.tick) he hlt hdone (heq.symm.trans hstep))

/-! ## One pixel step as a function (R153) -/

/-- The state with the engine's progress set. -/
def State.progress (s : State) (pixdone : Word) (engine : Option Engine) : State :=
  { s with pixdone := pixdone, engine := engine }

/-- The state after the pixel step of pixel `i`. -/
def pixelNext (c : Config) (e : Engine) (i : Nat) (s : State) : State :=
  (writePixel c e.mode i (s.sample i) s).progress (s.pixdone + 1) (some (e.mark i))

theorem writePixel_pixdone (c : Config) (m : EngMode) (i : Nat) (p : Lanes Word) (s : State) :
    (writePixel c m i p s).pixdone = s.pixdone := by
  rw [writePixel_frame]

theorem pixelStep_eq_pixelNext {c : Config} {i : Nat} (hi : i < c.maxPixels) (e : Engine) (s : State) :
    pixelStep c i e s = .next (pixelNext c e i s) := by
  rw [pixelStep_of_lt hi, writePixel_pixdone]
  rfl

/-- The engine reads `IN` and never writes it (20_memory.md R52). -/
theorem writePixel_byteAt_input (c : Config) (m : EngMode) (i : Nat) (p : Lanes Word) (s : State) (z : Nat) :
    (writePixel c m i p s).byteAt .input z = s.byteAt .input z := by
  rw [writePixel_frame]
  rfl

@[simp] theorem pixelNext_sample (c : Config) (e : Engine) (i j : Nat) (s : State) :
    (pixelNext c e i s).sample j = s.sample j :=
  State.sample_congr fun z _ _ => writePixel_byteAt_input c e.mode i (s.sample i) s z

/-- A pixel's writes and the engine's progress do not touch each other. -/
theorem writePixel_progress (c : Config) (m : EngMode) (i : Nat) (p : Lanes Word) (s : State) (x : Word)
    (r : Option Engine) : writePixel c m i p (s.progress x r) = (writePixel c m i p s).progress x r := by
  cases m with
  | gm => rw [writePixel_gm, writePixel_gm]; rfl
  | sl => rw [writePixel_sl, writePixel_sl]; rfl

/-- Two pixel steps are both pixels' writes, with both pixels done. -/
theorem pixelNext_pixelNext (c : Config) (e : Engine) (i j : Nat) (s : State) :
    pixelNext c (e.mark i) j (pixelNext c e i s) =
      (writePixel c e.mode j (s.sample j) (writePixel c e.mode i (s.sample i) s)).progress (s.pixdone + 1 + 1)
        (some ((e.mark i).mark j)) := by
  rw [pixelNext, pixelNext_sample, pixelNext, writePixel_progress]
  rfl

/-! ## Commutation (R152) -/

theorem Engine.mark_comm {e : Engine} (h : e.doneSet.Pairwise (· < ·)) (i j : Nat) :
    (e.mark i).mark j = (e.mark j).mark i := by
  have hset : insertPixel j (insertPixel i e.doneSet) = insertPixel i (insertPixel j e.doneSet) :=
    sorted_ext (insertPixel_sorted (insertPixel_sorted h)) (insertPixel_sorted (insertPixel_sorted h)) fun k => by
      simp only [mem_insertPixel, or_left_comm]
  simp only [Engine.mark, hset]

/-- The maximum of three measures does not depend on the order they come in. -/
theorem runningMax_comm (x y z : Half) :
    (if (if x < y then y else x) < z then z else if x < y then y else x) =
      if (if x < z then z else x) < y then y else if x < z then z else x := by
  split_ifs <;> bv_omega

section
variable {c : Config} {e : Engine} {i j : Nat} {s t t' : State}

/-- The writes of two pixels commute: their bytes are disjoint, and maximum, sum and count are commutative. -/
theorem writePixel_comm (hwf : ∀ b, (s.buffer b).wf) (hij : i ≠ j) (c : Config) (m : EngMode) (p p' : Lanes Word) :
    writePixel c m j p' (writePixel c m i p s) = writePixel c m i p (writePixel c m j p' s) := by
  have hsdr : s.sdrBuf.wf := hwf .sdr
  have hhdr : s.hdrBuf.wf := hwf .hdr
  have hnonfin := Bool.or_right_comm s.nonfin (sampleNonfinite p) (sampleNonfinite p')
  have hstoreSdr := Memory.store_comm hsdr (a := 4 * i) (n := 4) (a' := 4 * j) (n' := 4) (by omega)
    (sdrPx p).toNat (sdrPx p').toNat
  cases m with
  | gm =>
    have hstoreHdr := Memory.store_comm hhdr (a := 4 * i) (n := 4) (a' := 4 * j) (n' := 4) (by omega)
      (hdr10Px c p).toNat (hdr10Px c p').toNat
    simp only [writePixel_gm, hnonfin, hstoreSdr, hstoreHdr]
  | sl =>
    have hstoreHdr := Memory.store_comm hhdr (a := 8 * i) (n := 8) (a' := 8 * j) (n' := 8) (by omega)
      (hdr16Px c p).toNat (hdr16Px c p').toNat
    have hmax := runningMax_comm s.cllMax (BitVec.ofNat 16 (yPx c p)) (BitVec.ofNat 16 (yPx c p'))
    have hsum := add_right_comm s.cllSum ((BitVec.ofNat 16 (yPx c p)).setWidth 48)
      ((BitVec.ofNat 16 (yPx c p')).setWidth 48)
    simp only [writePixel_sl, hnonfin, hstoreSdr, hstoreHdr, hmax, hsum]

theorem pixelNext_comm (h : Inv c s) (he : s.engine = some e) (hij : i ≠ j) :
    pixelNext c (e.mark i) j (pixelNext c e i s) = pixelNext c (e.mark j) i (pixelNext c e j s) := by
  rw [pixelNext_pixelNext, pixelNext_pixelNext, writePixel_comm h.bufWf hij, Engine.mark_comm (h.running e he).sorted]

/-- Settles O39: both orders mark both pixels and perform both pixels' writes, which commute. -/
theorem pixelStepsCommute : Obligations.PixelStepsCommute := by
  intro c s e i j h he hi hj hij _ _
  have hi' : i < c.maxPixels := hi.trans_le (h.running e he).fits
  have hj' : j < c.maxPixels := hj.trans_le (h.running e he).fits
  refine ⟨_, _, _, _, _, pixelStep_eq_pixelNext hi' e s, pixelStep_eq_pixelNext hj' e s, rfl, rfl,
    pixelStep_eq_pixelNext hj' (e.mark i) _, ?_⟩
  rw [pixelNext_comm h he hij]
  exact pixelStep_eq_pixelNext hi' (e.mark j) _

/-! ## Moves and runs under the invariant (R151) -/

/-- The moves of a running engine: the pixel step of a remaining pixel, or completion when none remains. -/
theorem engineMove_iff (he : s.engine = some e) : EngineMove c s t ↔
    (∃ i, i < e.n ∧ i ∉ e.doneSet ∧ pixelStep c i e s = .next t) ∨
    ((∀ i < e.n, i ∈ e.doneSet) ∧ completionStep e s = .next t) := by
  constructor
  · intro h
    cases h with
    | pixel he' hi hdone hstep =>
      cases he.symm.trans he'
      exact .inl ⟨_, hi, hdone, hstep⟩
    | complete he' hall hstep =>
      cases he.symm.trans he'
      exact .inr ⟨hall, hstep⟩
  · rintro (⟨i, hi, hdone, hstep⟩ | ⟨hall, hstep⟩)
    · exact .pixel he hi hdone hstep
    · exact .complete he hall hstep

theorem EngineMove.exists_engine (h : EngineMove c s t) : ∃ e, s.engine = some e := by
  cases h with
  | pixel he | complete he => exact ⟨_, he⟩

/-- A move of the engine keeps the invariant. -/
theorem Inv.engineMove (h : Inv c s) (hmove : EngineMove c s t) : Inv c t := by
  obtain ⟨e, he⟩ := hmove.exists_engine
  rcases (engineMove_iff he).1 hmove with ⟨i, hi, hdone, hstep⟩ | ⟨hall, hstep⟩
  · obtain ⟨t', ht', hinv, -⟩ := h.pixelStep_answers he hi hdone
    cases hstep.symm.trans ht'
    exact hinv
  · obtain ⟨t', ht', hinv, -⟩ := h.completionStep_answers he hall
    cases hstep.symm.trans ht'
    exact hinv

/-- Two moves from one state lead to one state, or are two pixel steps that meet again after the other's step. -/
theorem Inv.engineMove_diamond (h : Inv c s) (hm : EngineMove c s t) (hm' : EngineMove c s t') :
    t = t' ∨ ∃ u, EngineMove c t u ∧ EngineMove c t' u := by
  obtain ⟨e, he⟩ := hm.exists_engine
  rcases (engineMove_iff he).1 hm with ⟨i, hi, hdone, hstep⟩ | ⟨hall, hstep⟩ <;>
    rcases (engineMove_iff he).1 hm' with ⟨j, hj, hdone', hstep'⟩ | ⟨hall', hstep'⟩
  case inl.inl =>
    by_cases hij : i = j
    · subst hij
      exact .inl (Host.Outcome.next.inj (hstep.symm.trans hstep'))
    · have hi' : i < c.maxPixels := hi.trans_le (h.running e he).fits
      have hj' : j < c.maxPixels := hj.trans_le (h.running e he).fits
      cases hstep.symm.trans (pixelStep_eq_pixelNext hi' e s)
      cases hstep'.symm.trans (pixelStep_eq_pixelNext hj' e s)
      refine .inr ⟨_, .pixel (e := e.mark i) rfl hj ?_ (pixelStep_eq_pixelNext hj' _ _),
        .pixel (e := e.mark j) rfl hi ?_ ?_⟩
      · exact fun hmem => (mem_insertPixel.1 hmem).elim (Ne.symm hij) hdone'
      · exact fun hmem => (mem_insertPixel.1 hmem).elim hij hdone
      · rw [pixelNext_comm h he hij]
        exact pixelStep_eq_pixelNext hi' _ _
  case inl.inr => exact absurd (hall' i hi) hdone
  case inr.inl => exact absurd (hall j hj) hdone'
  case inr.inr => exact .inl (Host.Outcome.next.inj (hstep.symm.trans hstep'))

/-- A run of the engine keeps the invariant. -/
theorem Inv.engineRun (h : Inv c s) (hrun : EngineRun c s t) : Inv c t := by
  induction hrun with
  | refl => exact h
  | tail _ hmove ih => exact ih.engineMove hmove

/-- Without an engine there is no move, so a run stays where it is. -/
theorem EngineRun.eq_of_idle (hrun : EngineRun c s t) (he : s.engine = none) : s = t := by
  rcases Relation.ReflTransGen.cases_head hrun with heq | ⟨u, hmove, -⟩
  · exact heq
  · obtain ⟨e, he'⟩ := hmove.exists_engine
    rw [he] at he'
    cases he'

/-- A move from a state with the invariant. -/
def LegalMove (c : Config) (s t : State) : Prop := Inv c s ∧ EngineMove c s t

/-- From a state with the invariant every move of a run is legal. -/
theorem Inv.engineRun_iff (h : Inv c s) : EngineRun c s t ↔ Relation.ReflTransGen (LegalMove c) s t := by
  constructor
  · intro hrun
    induction hrun with
    | refl => exact .refl
    | tail hpre hmove ih => exact ih.tail ⟨h.engineRun hpre, hmove⟩
  · exact Relation.ReflTransGen.mono (fun _ _ (hmove : LegalMove c _ _) => hmove.2) s t

theorem LegalMove.diamond (hm : LegalMove c s t) (hm' : LegalMove c s t') :
    ∃ u, Relation.ReflGen (LegalMove c) t u ∧ Relation.ReflTransGen (LegalMove c) t' u := by
  obtain ⟨h, hmove⟩ := hm
  obtain ⟨-, hmove'⟩ := hm'
  rcases h.engineMove_diamond hmove hmove' with rfl | ⟨u, hu, hu'⟩
  · exact ⟨t, .refl, .refl⟩
  · exact ⟨u, .single ⟨h.engineMove hmove, hu⟩, .single ⟨h.engineMove hmove', hu'⟩⟩

/-- Any two runs from a state with the invariant meet again. -/
theorem Inv.engineRun_confluent (h : Inv c s) (hrun : EngineRun c s t) (hrun' : EngineRun c s t') :
    ∃ u, EngineRun c t u ∧ EngineRun c t' u := by
  obtain ⟨u, hu, hu'⟩ := Relation.church_rosser (fun _ _ _ => LegalMove.diamond) (h.engineRun_iff.1 hrun)
    (h.engineRun_iff.1 hrun')
  exact ⟨u, (h.engineRun hrun).engineRun_iff.2 hu, (h.engineRun hrun').engineRun_iff.2 hu'⟩

end

/-- Settles O40: two completed runs meet again, and a completed run has nowhere else to go. -/
theorem frameResultIsOrderIndependent : Obligations.FrameResultIsOrderIndependent := by
  intro c s u u' h hrun hrun' he he'
  obtain ⟨t, ht, ht'⟩ := h.engineRun_confluent hrun hrun'
  exact (ht.eq_of_idle he).trans (ht'.eq_of_idle he').symm

end Sys2Proof.Machine
end

section
/-! PROOFS. The statements of 45_frame.md on whole frames (R155, R156). `Progress` says what the block holds while some
pixels of a frame are done; acceptance establishes it with none done, each pixel step adds its pixel, and a completed
run ends with the completion step of a state in which all are done. -/

namespace Sys2Proof.Machine

/-! ## Every frame can be completed (R151) -/

/-- From a running frame the engine can complete: there is a run for the pixels that remain, in any order. -/
theorem Inv.exists_completion {c : Config} {s : State} {e : Engine} (h : Inv c s) (he : s.engine = some e) :
    ∃ u, EngineRun c s u ∧ u.engine = none := by
  induction hk : e.n - e.doneSet.length generalizing s e with
  | zero =>
    have hall : ∀ i < e.n, i ∈ e.doneSet := fun i hi => by
      by_contra hdone
      have hlt := (h.running e he).length_lt hi hdone
      omega
    obtain ⟨u, hstep, -, hidle, -⟩ := h.completionStep_answers he hall
    exact ⟨u, .single (.complete he hall hstep), hidle⟩
  | succ k ih =>
    obtain ⟨i, hi, hdone⟩ : ∃ i, i < e.n ∧ i ∉ e.doneSet := by
      by_contra hnone
      push Not at hnone
      rw [(h.running e he).doneSet_eq_range hnone, List.length_range] at hk
      omega
    obtain ⟨t, hstep, hinv, het⟩ := h.pixelStep_answers he hi hdone
    obtain ⟨u, hrun, hidle⟩ := ih hinv het (by rw [Engine.mark_left hdone]; omega)
    exact ⟨u, .head (.pixel he hi hdone hstep) hrun, hidle⟩

/-! ## The bytes that a pixel step writes (R153) -/

/-- The bytes of one pixel in `HDR`: 4 for a gain-map frame, 8 for a single-layer one. -/
def EngMode.hdrBytes : EngMode → Nat
  | .gm => 4
  | .sl => 8

/-- The number that a frame command stores for a sample in `HDR`. -/
def hdrPx (c : Config) (m : EngMode) (p : Lanes Word) : Nat :=
  match m with
  | .gm => (hdr10Px c p).toNat
  | .sl => (hdr16Px c p).toNat

theorem hdrPx_lt (c : Config) (m : EngMode) (p : Lanes Word) : hdrPx c m p < 256 ^ m.hdrBytes := by
  cases m with
  | gm => exact (hdr10Px c p).isLt
  | sl => exact (hdr16Px c p).isLt

section
variable (c : Config) (m : EngMode) (i : Nat) (p : Lanes Word) (s : State)

theorem writePixel_byteAt_sdr (z : Nat) : (writePixel c m i p s).byteAt .sdr z =
    (s.memWrite .sdr (4 * i) 4 (sdrPx p).toNat).byteAt .sdr z := by
  cases m with
  | gm => rw [writePixel_gm]; rfl
  | sl => rw [writePixel_sl]; rfl

theorem writePixel_byteAt_hdr (z : Nat) : (writePixel c m i p s).byteAt .hdr z =
    (s.memWrite .hdr (m.hdrBytes * i) m.hdrBytes (hdrPx c m p)).byteAt .hdr z := by
  cases m with
  | gm => rw [writePixel_gm]; rfl
  | sl => rw [writePixel_sl]; rfl

theorem writePixel_nonfin : (writePixel c m i p s).nonfin = (s.nonfin || sampleNonfinite p) := by
  cases m with
  | gm => rw [writePixel_gm]
  | sl => rw [writePixel_sl]

/-- A gain-map pixel leaves the accumulators alone. -/
theorem writePixel_gm_accumulators : (writePixel c .gm i p s).cllMax = s.cllMax ∧
    (writePixel c .gm i p s).cllSum = s.cllSum ∧ (writePixel c .gm i p s).cllCnt = s.cllCnt := by
  rw [writePixel_gm]
  exact ⟨rfl, rfl, rfl⟩

/-- A single-layer pixel accumulates its measure (R154). -/
theorem writePixel_sl_accumulators :
    (writePixel c .sl i p s).cllMax = (s.cllAccumulate (BitVec.ofNat 16 (yPx c p))).cllMax ∧
    (writePixel c .sl i p s).cllSum = (s.cllAccumulate (BitVec.ofNat 16 (yPx c p))).cllSum := by
  rw [writePixel_sl]
  exact ⟨rfl, rfl⟩

/-- The measure fits the 16 bits of an accumulated value. -/
theorem ofNat_yPx_toNat : (BitVec.ofNat 16 (yPx c p)).toNat = yPx c p := ofNat_luma_toNat _ _ _

end

/-- Of pixels `n` bytes apart, a write of pixel `i` is read back and leaves every other pixel alone. -/
theorem State.memRead_memWrite_pixel (s : State) (b : Buffer) {n i : Nat} (j : Nat) {v : Nat} (hv : v < 256 ^ n) :
    (s.memWrite b (n * i) n v).memRead b (n * j) n = if j = i then v else s.memRead b (n * j) n := by
  split
  case isTrue hj => rw [hj, State.memRead_memWrite_self, Nat.mod_eq_of_lt hv]
  case isFalse hj =>
    refine State.memRead_memWrite_other s v (.inr ?_)
    rcases Nat.lt_or_gt_of_ne hj with hlt | hlt
    · exact .inl (Nat.mul_succ n j ▸ Nat.mul_le_mul_left n hlt)
    · exact .inr (Nat.mul_succ n i ▸ Nat.mul_le_mul_left n hlt)

/-- A write of pixel `i` stays below the pixels from `k` on. -/
theorem State.byteAt_memWrite_pixel_above (s : State) (b : Buffer) {n i k : Nat} (hi : i < k) (v : Nat) {x : Nat}
    (hx : n * k ≤ x) : (s.memWrite b (n * i) n v).byteAt b x = s.byteAt b x := by
  have htop : n * i + n ≤ n * k := Nat.mul_succ n i ▸ Nat.mul_le_mul_left n hi
  exact s.byteAt_memWrite_of_outside v (by omega)

theorem State.progress_byteAt (s : State) (x : Word) (r : Option Engine) (b : Buffer) (z : Nat) :
    (s.progress x r).byteAt b z = s.byteAt b z := by
  cases b <;> rfl

@[simp] theorem State.progress_nonfin (s : State) (x : Word) (r : Option Engine) : (s.progress x r).nonfin = s.nonfin :=
  rfl
@[simp] theorem State.progress_cllMax (s : State) (x : Word) (r : Option Engine) : (s.progress x r).cllMax = s.cllMax :=
  rfl
@[simp] theorem State.progress_cllSum (s : State) (x : Word) (r : Option Engine) : (s.progress x r).cllSum = s.cllSum :=
  rfl
@[simp] theorem State.progress_cllCnt (s : State) (x : Word) (r : Option Engine) : (s.progress x r).cllCnt = s.cllCnt :=
  rfl

theorem pixelNext_byteAt_sdr (c : Config) (e : Engine) (i : Nat) (s : State) (z : Nat) :
    (pixelNext c e i s).byteAt .sdr z = (s.memWrite .sdr (4 * i) 4 (sdrPx (s.sample i)).toNat).byteAt .sdr z :=
  (State.progress_byteAt ..).trans (writePixel_byteAt_sdr ..)

theorem pixelNext_byteAt_hdr (c : Config) (e : Engine) (i : Nat) (s : State) (z : Nat) :
    (pixelNext c e i s).byteAt .hdr z =
      (s.memWrite .hdr (e.mode.hdrBytes * i) e.mode.hdrBytes (hdrPx c e.mode (s.sample i))).byteAt .hdr z :=
  (State.progress_byteAt ..).trans (writePixel_byteAt_hdr ..)

theorem pixelNext_memRead_sdr (c : Config) (e : Engine) (i j : Nat) (s : State) :
    (pixelNext c e i s).memRead .sdr (4 * j) 4 =
      if j = i then (sdrPx (s.sample i)).toNat else s.memRead .sdr (4 * j) 4 :=
  (State.memRead_congr fun z _ _ => pixelNext_byteAt_sdr c e i s z).trans
    (s.memRead_memWrite_pixel .sdr j (sdrPx (s.sample i)).isLt)

theorem pixelNext_memRead_hdr (c : Config) (e : Engine) (i j : Nat) (s : State) :
    (pixelNext c e i s).memRead .hdr (e.mode.hdrBytes * j) e.mode.hdrBytes =
      if j = i then hdrPx c e.mode (s.sample i) else s.memRead .hdr (e.mode.hdrBytes * j) e.mode.hdrBytes :=
  (State.memRead_congr fun z _ _ => pixelNext_byteAt_hdr c e i s z).trans
    (s.memRead_memWrite_pixel .hdr j (hdrPx_lt c e.mode (s.sample i)))

theorem pixelNext_nonfin (c : Config) (e : Engine) (i : Nat) (s : State) :
    (pixelNext c e i s).nonfin = (s.nonfin || sampleNonfinite (s.sample i)) := by
  rw [pixelNext, State.progress_nonfin, writePixel_nonfin]

theorem pixelNext_gm_accumulators {e : Engine} (he : e.mode = .gm) (c : Config) (i : Nat) (s : State) :
    (pixelNext c e i s).cllMax = s.cllMax ∧ (pixelNext c e i s).cllSum = s.cllSum ∧
    (pixelNext c e i s).cllCnt = s.cllCnt := by
  rw [pixelNext, he, State.progress_cllMax, State.progress_cllSum, State.progress_cllCnt]
  exact writePixel_gm_accumulators c i (s.sample i) s

theorem pixelNext_sl_accumulators {e : Engine} (he : e.mode = .sl) (c : Config) (i : Nat) (s : State) :
    (pixelNext c e i s).cllMax = (s.cllAccumulate (BitVec.ofNat 16 (yPx c (s.sample i)))).cllMax ∧
    (pixelNext c e i s).cllSum = (s.cllAccumulate (BitVec.ofNat 16 (yPx c (s.sample i)))).cllSum := by
  rw [pixelNext, he, State.progress_cllMax, State.progress_cllSum]
  exact writePixel_sl_accumulators c i (s.sample i) s

/-! ## The state of a frame in progress -/

/-- Between `s` and `u` only what a frame command's pixels may write has changed. -/
def State.FrameOf (s u : State) : Prop :=
  u = { s with done := u.done, nonfin := u.nonfin, pixdone := u.pixdone, sdrBuf := u.sdrBuf, hdrBuf := u.hdrBuf,
               engine := u.engine, cllMax := u.cllMax, cllSum := u.cllSum, cllCnt := u.cllCnt }

theorem State.FrameOf.trans {s u v : State} (h : s.FrameOf u) (h' : u.FrameOf v) : s.FrameOf v := by
  unfold State.FrameOf at *
  rw [h] at h'
  exact h'

theorem State.frameOf_acceptFrame (m : EngMode) (s : State) : s.FrameOf (acceptFrame m s) := by
  cases m <;> rfl

theorem State.frameOf_pixelNext (c : Config) (e : Engine) (i : Nat) (s : State) : s.FrameOf (pixelNext c e i s) := by
  unfold State.FrameOf pixelNext
  rw [writePixel_frame]
  rfl

theorem State.FrameOf.byteAt_input {s u : State} (h : s.FrameOf u) (z : Nat) : u.byteAt .input z = s.byteAt .input z := by
  unfold State.FrameOf at h
  rw [h]
  rfl

theorem State.FrameOf.sample {s u : State} (h : s.FrameOf u) (i : Nat) : u.sample i = s.sample i :=
  State.sample_congr fun z _ _ => h.byteAt_input z

/-- The accumulators of a single-layer frame that was accepted in `s`, with the pixels of `d` done (R154). -/
structure Measured (c : Config) (s : State) (d : List Nat) (u : State) : Prop where
  sum : u.cllSum.toNat = ∑ i ∈ d.toFinset, yPx c (s.sample i)
  bound : ∀ i ∈ d, yPx c (s.sample i) ≤ u.cllMax.toNat
  attained : (d = [] ∧ u.cllMax = 0) ∨ ∃ i ∈ d, yPx c (s.sample i) = u.cllMax.toNat

/-- What holds while a frame that was accepted in `s` runs, with the pixels of `d` done. -/
structure Progress (c : Config) (m : EngMode) (s : State) (d : List Nat) (u : State) : Prop where
  engine : u.engine = some ⟨m, s.frameSize, d⟩
  frame : s.FrameOf u
  sdr : ∀ i ∈ d, u.memRead .sdr (4 * i) 4 = (sdrPx (s.sample i)).toNat
  hdr : ∀ i ∈ d, u.memRead .hdr (m.hdrBytes * i) m.hdrBytes = hdrPx c m (s.sample i)
  sdrAbove : ∀ x, 4 * s.frameSize ≤ x → u.byteAt .sdr x = s.byteAt .sdr x
  hdrAbove : ∀ x, m.hdrBytes * s.frameSize ≤ x → u.byteAt .hdr x = s.byteAt .hdr x
  nonfin : u.nonfin = true ↔ s.nonfin = true ∨ ∃ i ∈ d, sampleNonfinite (s.sample i) = true
  accumulators : m = .gm → u.cllMax = s.cllMax ∧ u.cllSum = s.cllSum ∧ u.cllCnt = s.cllCnt
  measured : m = .sl → Measured c s d u

/-- Acceptance: no pixel done, no byte written, and in single-layer mode no measure taken. -/
theorem progress_acceptFrame (c : Config) (m : EngMode) (s : State) : Progress c m s [] (acceptFrame m s) where
  engine := acceptFrame_engine m s
  frame := s.frameOf_acceptFrame m
  sdr := nofun
  hdr := nofun
  sdrAbove _ _ := by cases m <;> rfl
  hdrAbove _ _ := by cases m <;> rfl
  nonfin := by cases m <;> simp [acceptFrame]
  accumulators hm := by subst hm; exact ⟨rfl, rfl, rfl⟩
  measured hm := by subst hm; exact ⟨rfl, nofun, .inl ⟨rfl, rfl⟩⟩

section
variable {c : Config} {m : EngMode} {s u v : State} {d : List Nat} {i : Nat}

theorem exists_mem_insertPixel {P : Nat → Prop} : (∃ j ∈ insertPixel i d, P j) ↔ P i ∨ ∃ j ∈ d, P j := by
  simp only [mem_insertPixel, or_and_right, exists_or, exists_eq_left]

theorem forall_mem_insertPixel {P : Nat → Prop} : (∀ j ∈ insertPixel i d, P j) ↔ P i ∧ ∀ j ∈ d, P j := by
  simp only [mem_insertPixel, or_imp, forall_and, forall_eq]

theorem toFinset_insertPixel (i : Nat) (d : List Nat) : (insertPixel i d).toFinset = insert i d.toFinset := by
  ext j
  simp only [List.mem_toFinset, mem_insertPixel, Finset.mem_insert]

/-- One more measure: the sum, the maximum and who attains it (R154). -/
theorem Measured.accumulate (h : Measured c s d u) (hdone : i ∉ d) (hfull : u.cllCnt ≠ 0xFFFFFFFF)
    (hsum : u.cllSum.toNat ≤ u.cllMax.toNat * u.cllCnt.toNat)
    (hmax : v.cllMax = (u.cllAccumulate (BitVec.ofNat 16 (yPx c (s.sample i)))).cllMax)
    (hnew : v.cllSum = (u.cllAccumulate (BitVec.ofNat 16 (yPx c (s.sample i)))).cllSum) :
    Measured c s (insertPixel i d) v := by
  have hv : v.cllMax.toNat = max u.cllMax.toNat (yPx c (s.sample i)) := by
    rw [hmax, State.cllAccumulate_cllMax_toNat, ofNat_yPx_toNat]
  refine ⟨?_, forall_mem_insertPixel.2 ⟨?_, fun j hj => ?_⟩, .inr (exists_mem_insertPixel.2 ?_)⟩
  · rw [hnew, State.cllAccumulate_cllSum_toNat hfull hsum, ofNat_yPx_toNat, h.sum, toFinset_insertPixel,
      Finset.sum_insert (by simpa using hdone), Nat.add_comm]
  · exact hv ▸ le_max_right _ _
  · exact (h.bound j hj).trans (hv ▸ le_max_left _ _)
  · rw [hv]
    rcases le_total (yPx c (s.sample i)) u.cllMax.toNat with hle | hle
    · rw [max_eq_left hle]
      rcases h.attained with ⟨-, h0⟩ | hex
      · rw [h0] at hle ⊢
        exact .inl (Nat.le_zero.1 hle)
      · exact .inr hex
    · exact .inl (max_eq_right hle).symm

/-- Pixel `i` is now stored, and those of `d` still are. -/
theorem forall_stored_insertPixel {f g : Nat → Nat} {a : Nat} (ha : a = g i) (hd : ∀ j ∈ d, f j = g j) :
    ∀ j ∈ insertPixel i d, (if j = i then a else f j) = g j := by
  refine forall_mem_insertPixel.2 ⟨(if_pos rfl).trans ha, fun j hj => ?_⟩
  split
  case isTrue hji => rw [hji, ha]
  case isFalse => exact hd j hj

/-- A pixel step adds its pixel to those done (R153). -/
theorem Progress.pixelNext (h : Progress c m s d u) (hinv : Inv c u) (hi : i < s.frameSize) (hdone : i ∉ d) :
    Progress c m s (insertPixel i d) (pixelNext c ⟨m, s.frameSize, d⟩ i u) where
  engine := rfl
  frame := h.frame.trans (State.frameOf_pixelNext ..)
  sdr := by
    simp only [pixelNext_memRead_sdr]
    exact forall_stored_insertPixel (by rw [h.frame.sample]) h.sdr
  hdr := by
    have hread (j : Nat) := pixelNext_memRead_hdr c ⟨m, s.frameSize, d⟩ i j u
    simp only [hread]
    exact forall_stored_insertPixel (by rw [h.frame.sample]) h.hdr
  sdrAbove x hx := by
    rw [pixelNext_byteAt_sdr, State.byteAt_memWrite_pixel_above u .sdr hi _ hx, h.sdrAbove x hx]
  hdrAbove x hx := by
    rw [pixelNext_byteAt_hdr, State.byteAt_memWrite_pixel_above u .hdr hi _ hx, h.hdrAbove x hx]
  nonfin := by
    rw [pixelNext_nonfin, Bool.or_eq_true, h.nonfin, h.frame.sample, exists_mem_insertPixel, or_assoc,
      or_comm (b := sampleNonfinite (s.sample i) = true)]
  accumulators hm := by
    obtain ⟨hmax, hsum, hcnt⟩ := h.accumulators hm
    obtain ⟨hmax', hsum', hcnt'⟩ := pixelNext_gm_accumulators (e := ⟨m, s.frameSize, d⟩) hm c i u
    exact ⟨hmax'.trans hmax, hsum'.trans hsum, hcnt'.trans hcnt⟩
  measured hm := by
    obtain ⟨hmax, hsum⟩ := pixelNext_sl_accumulators (e := ⟨m, s.frameSize, d⟩) hm c i u
    rw [h.frame.sample] at hmax hsum
    exact (h.measured hm).accumulate hdone ((hinv.running _ h.engine).cllCnt_not_full hi hdone hm) hinv.sum hmax hsum

/-! ## Completed runs -/

/-- A run from a frame's acceptance is in the frame's progress, or has made its completion step after the last pixel. -/
theorem EngineRun.progress_or_completed (hrun : EngineRun c (acceptFrame m s) u) (hinv : Inv c (acceptFrame m s)) :
    (∃ d, Progress c m s d u) ∨
    ∃ v, Inv c v ∧ Progress c m s (List.range s.frameSize) v ∧
      completionStep ⟨m, s.frameSize, List.range s.frameSize⟩ v = .next u := by
  induction hrun with
  | refl => exact .inl ⟨[], progress_acceptFrame c m s⟩
  | @tail v u hpre hmove ih =>
    have hv : Inv c v := hinv.engineRun hpre
    rcases ih with ⟨d, hprog⟩ | ⟨w, hw, hprog, hstep⟩
    · have hrun := hv.running _ hprog.engine
      rcases (engineMove_iff hprog.engine).1 hmove with ⟨i, hi, hdone, hstep⟩ | ⟨hall, hstep⟩
      · cases hstep.symm.trans (pixelStep_eq_pixelNext (hi.trans_le hrun.fits) _ v)
        exact .inl ⟨_, hprog.pixelNext hv hi hdone⟩
      · obtain rfl : d = List.range s.frameSize := hrun.doneSet_eq_range hall
        exact .inr ⟨v, hv, hprog, hstep⟩
    · obtain ⟨e, he⟩ := hmove.exists_engine
      rcases completionStep_next hstep with ⟨-, rfl⟩ | ⟨-, -, rfl⟩ <;> cases he

/-- A run that ends the frame ends with its completion step. -/
theorem EngineRun.completed (hrun : EngineRun c (acceptFrame m s) u) (hinv : Inv c (acceptFrame m s))
    (hidle : u.engine = none) :
    ∃ v, Inv c v ∧ Progress c m s (List.range s.frameSize) v ∧
      completionStep ⟨m, s.frameSize, List.range s.frameSize⟩ v = .next u := by
  rcases hrun.progress_or_completed hinv with ⟨d, hprog⟩ | h
  · have he := hprog.engine
    rw [hidle] at he
    cases he
  · exact h

/-- The pixels done and the count of a frame whose pixels are all done. -/
theorem Progress.pixdone_toNat (h : Progress c m s (List.range s.frameSize) v) (hinv : Inv c v) :
    v.pixdone.toNat = s.frameSize :=
  (hinv.running _ h.engine).progress.trans List.length_range

theorem Progress.cllCnt_toNat (h : Progress c .sl s (List.range s.frameSize) v) (hinv : Inv c v) :
    v.cllCnt.toNat = s.frameSize :=
  ((hinv.running _ h.engine).accumulated rfl).trans List.length_range

end

/-- A frame command without an error has accepted its frame (R149). -/
theorem startFrame_accepts_of_no_err {c : Config} {m : EngMode} {w : Word} {s : State}
    (h : (startFrame c m w s).err = false) : s.Acceptable c ∧ startFrame c m w s = acceptFrame m s := by
  rcases startFrame_raises_or_accepts c m w s with ⟨e, info, he⟩ | hacc
  · rw [he] at h
    cases h
  · exact hacc

/-- The accepted state of a frame that was started with the invariant. -/
theorem Inv.accepted {c : Config} {s : State} (h : Inv c s) (hacc : s.Acceptable c) (herr : s.err = false)
    (hr : s.rst = false) (m : EngMode) : Inv c (acceptFrame m s) :=
  (h.legal.acceptFrame m).inv_of_engineInv fun e he => by
    rw [acceptFrame_engine] at he
    cases he
    exact hacc.engineInv herr hr m

/-- The engine can complete an accepted frame, and every completion is the completion step after the last pixel. -/
theorem Inv.frame_completes {c : Config} {s : State} (h : Inv c s) (hacc : s.Acceptable c) (herr : s.err = false)
    (hr : s.rst = false) (m : EngMode) :
    (∃ u, EngineRun c (acceptFrame m s) u ∧ u.engine = none) ∧
    ∀ u, EngineRun c (acceptFrame m s) u → u.engine = none →
      ∃ v, Inv c v ∧ Progress c m s (List.range s.frameSize) v ∧
        completionStep ⟨m, s.frameSize, List.range s.frameSize⟩ v = .next u :=
  have hinv := h.accepted hacc herr hr m
  ⟨hinv.exists_completion (acceptFrame_engine m s), fun _ hrun hu => hrun.completed hinv hu⟩

/-- Settles O42: every completion is the completion step after all pixels, which sets `DONE` and ends the engine. -/
theorem runGmConvertsTheFrame : Obligations.RunGmConvertsTheFrame := by
  intro s t h hidle herr hr hexec hok
  rw [exec_runGm] at hexec
  cases hexec
  obtain ⟨hacc, heq⟩ := startFrame_accepts_of_no_err hok
  obtain ⟨hexists, hall⟩ := h.frame_completes hacc herr hr .gm
  rw [heq]
  refine ⟨hexists, fun u hrun hu => ?_⟩
  obtain ⟨v, hv, hprog, hstep⟩ := hall u hrun hu
  obtain ⟨-, rfl⟩ | ⟨hm, -⟩ := completionStep_next hstep
  case inr => cases hm
  refine ⟨fun i hi => ⟨hprog.sdr i (List.mem_range.2 hi), hprog.hdr i (List.mem_range.2 hi)⟩,
    fun x hx => ⟨hprog.sdrAbove x hx, hprog.hdrAbove x hx⟩, hprog.pixdone_toNat hv, rfl, ?nonfin, ?frame⟩
  case nonfin => simpa only [List.mem_range] using hprog.nonfin
  case frame =>
    obtain ⟨hmax, hsum, hcnt⟩ := hprog.accumulators rfl
    have hframe : s.FrameOf v := hprog.frame
    rw [State.FrameOf, hmax, hsum, hcnt] at hframe
    rw [hframe]
    simp only [hidle]

/-- Settles O43: every completion is the completion step after all pixels, which publishes the maximum and the mean of
the frame's measures. -/
theorem runSlConvertsTheFrameAndMeasuresIt : Obligations.RunSlConvertsTheFrameAndMeasuresIt := by
  intro s t h hidle herr hr hexec hok
  rw [exec_runSl] at hexec
  cases hexec
  obtain ⟨hacc, heq⟩ := startFrame_accepts_of_no_err hok
  obtain ⟨hexists, hall⟩ := h.frame_completes hacc herr hr .sl
  rw [heq]
  refine ⟨hexists, fun u hrun hu => ?_⟩
  obtain ⟨v, hv, hprog, hstep⟩ := hall u hrun hu
  obtain ⟨hm, -⟩ | ⟨-, hcnt, rfl⟩ := completionStep_next hstep
  case inl => cases hm
  obtain ⟨hsum, hbound, hattained⟩ := hprog.measured rfl
  have hcount := hprog.cllCnt_toNat hv
  have hex : ∃ i < s.frameSize, yPx Config.here (s.sample i) = v.cllMax.toNat := by
    rcases hattained with ⟨hnil, -⟩ | ⟨i, hi, hy⟩
    · exact absurd (List.range_eq_nil.1 hnil) hacc.pos.ne'
    · exact ⟨i, List.mem_range.1 hi, hy⟩
  refine ⟨fun i hi => ⟨hprog.sdr i (List.mem_range.2 hi), hprog.hdr i (List.mem_range.2 hi)⟩,
    hprog.sdrAbove, hprog.hdrAbove, hprog.pixdone_toNat hv, rfl, ?nonfin, hcount, ?sum,
    fun i hi => hbound i (List.mem_range.2 hi), hex, rfl, ?mean, State.cllPublish_maxpall_le_maxcll hcnt hv.sum,
    ?limit, ?frame⟩
  case nonfin => simpa only [State.cllPublish_nonfin, List.mem_range] using hprog.nonfin
  case sum => rwa [List.toFinset_range] at hsum
  case mean => exact hcount ▸ State.cllPublish_maxpall_toNat hcnt hv.sum
  case limit =>
    obtain ⟨i, -, hy⟩ := hex
    exact hy ▸ luma_le _ _ _
  case frame =>
    have hframe : s.FrameOf v := hprog.frame
    rw [State.FrameOf] at hframe
    rw [hframe, State.cllPublish]
    simp only [hidle]

end Sys2Proof.Machine
end

section
/-! PROOFS. The statements on steps: a step is one agent's move (StepIsOneAgentsMove), and a frame ends (45_frame.md
R151; 70_reset_and_hazards.md R207). While a frame runs, a step does a pixel, ends the frame, or lets another agent
move and brings the schedule one choice nearer to the engine's turn. -/

namespace Sys2Proof.Machine

/-! ## The moves of the agents -/

section
variable {s : State}

theorem step_of_alone {a : Agent} (h : s.enabledAgents = [a]) : step s = agentStep a s := by
  rw [step, nextStep, h]

theorem step_of_none_enabled (h : s.enabledAgents = []) : step s = .next s := by
  rw [step, nextStep, h]

theorem agentStep_host {op : HostOp} {rest : List HostOp} (hh : s.host = op :: rest) :
    agentStep .host s = performHostOp op { s with host := rest } := by
  simp only [agentStep, hostStep, hh]

theorem agentStep_platform {level : Bool} {rest : List Bool} (hp : s.rstInput = level :: rest) :
    agentStep .platform s = .next (driveReset level { s with rstInput := rest }) := by
  simp only [agentStep, platformStep, hp]

/-- The engine cannot move without a frame, nor in reset (70_reset_and_hazards.md R195). -/
theorem State.engine_disabled (h : s.engine = none ∨ s.rst = true) : (s.busy && !s.rst) = false := by
  rcases h with h | h <;> simp [State.busy, h]

section
variable (hidle : s.engine = none ∨ s.rst = true)
include hidle

theorem step_host_alone {op : HostOp} {rest : List HostOp} (hp : s.rstInput = []) (hh : s.host = op :: rest) :
    step s = performHostOp op { s with host := rest } := by
  have halone : s.enabledAgents = [.host] := by
    simp [State.enabledAgents, State.engine_disabled hidle, State.hostReady, hh, hp]
  exact (step_of_alone halone).trans (agentStep_host hh)

theorem step_platform_alone {level : Bool} {rest : List Bool} (hh : s.host = []) (hp : s.rstInput = level :: rest) :
    step s = .next (driveReset level { s with rstInput := rest }) := by
  have halone : s.enabledAgents = [.platform] := by
    simp [State.enabledAgents, State.engine_disabled hidle, State.hostReady, hh, hp]
  exact (step_of_alone halone).trans (agentStep_platform hp)

theorem step_waits (hh : s.host = []) (hp : s.rstInput = []) : step s = .next s :=
  step_of_none_enabled (by simp [State.enabledAgents, State.engine_disabled hidle, State.hostReady, hh, hp])

end

theorem step_engine_alone {e : Engine} (hh : s.host = []) (hp : s.rstInput = []) (hr : s.rst = false)
    (he : s.engine = some e) : step s = engineStep Config.here e s := by
  have halone : s.enabledAgents = [.engine] := by
    simp [State.enabledAgents, State.hostReady, State.busy, hh, hp, hr, he]
  exact (step_of_alone halone).trans (agentStep_engine_of_running he)

/-- With no agent able to move nothing is pending. -/
theorem State.enabledAgents_eq_nil (h : s.enabledAgents = []) :
    s.host = [] ∧ s.rstInput = [] ∧ (s.engine = none ∨ s.rst = true) := by
  have hnot (a : Agent) : ¬a ∈ s.enabledAgents := by rw [h]; exact List.not_mem_nil
  have hhost := hnot .host
  have hengine := hnot .engine
  have hplatform := hnot .platform
  simp only [State.mem_enabledAgents, State.hostReady, State.busy] at hhost hengine hplatform
  refine ⟨by simpa using hhost, by simpa using hplatform, ?_⟩
  cases he : s.engine with
  | none => exact .inl rfl
  | some e => exact .inr (by simpa [he] using hengine)

/-- What an agent that can move does, on the state or on it with one more free choice made. -/
theorem agentStep_of_enabled {a : Agent} (ha : a ∈ s.enabledAgents) {u : State} (hu : u = s ∨ u = s.tick) :
    (∃ op rest, s.host = op :: rest ∧ agentStep a u = performHostOp op { u with host := rest }) ∨
    (∃ e, s.engine = some e ∧ s.rst = false ∧ agentStep a u = engineStep Config.here e u) ∨
    (∃ level rest, s.rstInput = level :: rest ∧
      agentStep a u = .next (driveReset level { u with rstInput := rest })) := by
  have hhost : u.host = s.host := by rcases hu with rfl | rfl <;> rfl
  have hengine : u.engine = s.engine := by rcases hu with rfl | rfl <;> rfl
  have hinput : u.rstInput = s.rstInput := by rcases hu with rfl | rfl <;> rfl
  rcases State.mem_enabledAgents.1 ha with ⟨rfl, hready⟩ | ⟨rfl, hbusy, hr⟩ | ⟨rfl, hne⟩
  · obtain ⟨op, rest, hh⟩ : ∃ op rest, s.host = op :: rest :=
      List.exists_cons_of_ne_nil (by simpa [State.hostReady] using hready)
    exact .inl ⟨op, rest, hh, agentStep_host (hhost.trans hh)⟩
  · obtain ⟨e, he⟩ : ∃ e, s.engine = some e := Option.isSome_iff_exists.1 hbusy
    exact .inr (.inl ⟨e, he, hr, agentStep_engine_of_running (hengine.trans he)⟩)
  · obtain ⟨level, rest, hp⟩ := List.exists_cons_of_ne_nil hne
    exact .inr (.inr ⟨level, rest, hp, agentStep_platform (hinput.trans hp)⟩)

/-- A step changes nothing, or is the move of an agent that can move, with at most one more free choice made. -/
theorem step_moves (s : State) :
    (s.enabledAgents = [] ∧ step s = .next s) ∨
    ∃ u, (u = s ∨ u = s.tick) ∧
      ((∃ op rest, s.host = op :: rest ∧ step s = performHostOp op { u with host := rest }) ∨
       (∃ e, s.engine = some e ∧ s.rst = false ∧ step s = engineStep Config.here e u) ∨
       (∃ level rest, s.rstInput = level :: rest ∧
         step s = .next (driveReset level { u with rstInput := rest }))) := by
  rcases step_cases s with hnone | ⟨a, ha, hs | hs⟩
  · exact .inl hnone
  · exact .inr ⟨s, .inl rfl, hs ▸ agentStep_of_enabled ha (.inl rfl)⟩
  · exact .inr ⟨s.tick, .inr rfl, hs ▸ agentStep_of_enabled ha (.inr rfl)⟩

/-! ## One round of `WAIT DONE` (30_encoding.md R82) -/

theorem pollStatus_in_reset (hr : s.rst = true) :
    pollStatus s = { s with response := some .busError, host := .waitDone :: s.host } := by
  rcases pollStatus_cases s with ⟨-, heq⟩ | ⟨hr', -⟩ | ⟨hr', -⟩
  · exact heq
  all_goals rw [hr] at hr'; cases hr'

/-- A `STATUS` value that shows a flag ends the loop. -/
theorem pollStatus_of_flag (hr : s.rst = false) (hflag : s.done = true ∨ s.err = true) :
    pollStatus s = { s with response := some (.data s.statusWord) } := by
  rcases pollStatus_cases s with ⟨hr', -⟩ | ⟨-, -, heq⟩ | ⟨-, hd, he, -⟩
  · rw [hr] at hr'; cases hr'
  · exact heq
  · rw [hd, he] at hflag; simp at hflag

theorem pollStatus_of_no_flag (hr : s.rst = false) (hd : s.done = false) (he : s.err = false) :
    pollStatus s = { s with response := some (.data s.statusWord), host := .waitDone :: s.host } := by
  rcases pollStatus_cases s with ⟨hr', -⟩ | ⟨-, hflag, -⟩ | ⟨-, -, -, heq⟩
  · rw [hr] at hr'; cases hr'
  · rw [hd, he] at hflag; simp at hflag
  · exact heq

/-- A round that reads again leaves the host's operations as they were. -/
theorem respond_and_poll_again {rest : List HostOp} (hh : s.host = .waitDone :: rest) (r : Option Response) :
    { s with host := .waitDone :: rest, response := r } = { s with response := r } :=
  congrArg (fun ops => { s with host := ops, response := r }) hh.symm

/-! ## A step is one agent's move -/

/-- An address in no window is routed nowhere (20_memory.md R59). -/
theorem route_of_outside {c : Config} {addr : Nat}
    (h : ∀ win : Window, addr < c.params.windowBase win ∨ c.params.windowBase win + c.params.windowSize win ≤ addr) :
    route c addr = none := by
  cases hroute : route c addr with
  | none => rfl
  | some p =>
    obtain ⟨heq, hlt⟩ := addr_of_route (win := p.1) (off := p.2) hroute
    have := h p.1
    omega

end

/-- Settles O60: each clause is the move of the only agent that can move, and in general a step is the move of one that
can. -/
theorem stepIsOneAgentsMove : Obligations.StepIsOneAgentsMove := by
  refine ⟨fun s rest hp hidle => ?host, fun s e hh hp hr he => step_engine_alone hh hp hr he,
    fun s level rest hh hidle hp => step_platform_alone hidle hh hp, fun s hh hp hidle => step_waits hidle hh hp,
    fun s hsome => ?some⟩
  case host =>
    have hstep {op : HostOp} (hh : s.host = op :: rest) := step_host_alone hidle hp hh
    refine ⟨fun win off n hh => hstep hh, fun win off n x hh => hstep hh, fun win off n hoff hh => ?_,
      fun win off n x hoff hh => ?_, fun addr n x hout hh => ?_, fun hh => ⟨fun hr => ?_, fun hr hflag => ?_,
        fun hr hd he => ?_⟩⟩
    · rw [hstep hh, performHostOp_readAt_of_some (addressesRouteToTheirWindow win off hoff).1]
    · rw [hstep hh, performHostOp_writeAt_of_some (addressesRouteToTheirWindow win off hoff).1]
    · have hroute := route_of_outside hout
      rcases hh with hh | hh
      · rw [hstep hh, performHostOp_readAt_of_none hroute]
      · rw [hstep hh, performHostOp_writeAt_of_none hroute]
    · rw [hstep hh, ← respond_and_poll_again hh]
      exact congrArg Host.Outcome.next (pollStatus_in_reset hr)
    · rw [hstep hh]
      exact congrArg Host.Outcome.next (pollStatus_of_flag hr hflag)
    · rw [hstep hh, ← respond_and_poll_again hh]
      exact congrArg Host.Outcome.next (pollStatus_of_no_flag hr hd he)
  case some => exact (step_moves s).resolve_left fun ⟨hnone, _⟩ => hsome (State.enabledAgents_eq_nil hnone)

/-! ## Runs of the machine -/

/-- The machine comes from `s` to `t` in some number of steps. -/
def Reaches (s t : State) : Prop := ∃ k, Host.Core.run core k s = .next t

theorem Reaches.refl (s : State) : Reaches s s := ⟨0, rfl⟩

theorem Reaches.head {s t u : State} (hstep : step s = .next t) (h : Reaches t u) : Reaches s u := by
  obtain ⟨k, hk⟩ := h
  exact ⟨k + 1, (run_of_step core hstep k).trans hk⟩

theorem Reaches.tail {s t u : State} (h : Reaches s t) (hstep : step t = .next u) : Reaches s u := by
  obtain ⟨k, hk⟩ := h
  exact ⟨k + 1, run_then_step core hk hstep⟩

theorem Reaches.trans {s t u : State} (h : Reaches s t) (h' : Reaches t u) : Reaches s u := by
  obtain ⟨k, hk⟩ := h
  induction k generalizing s with
  | zero => cases hk; exact h'
  | succ k ih =>
    cases hs : step s with
    | next s' => exact .head hs (ih ((run_of_step core hs k).symm.trans hk))
    | fault r => simp [Host.Core.run, core, hs] at hk
    | refused r => simp [Host.Core.run, core, hs] at hk

/-! ## A step while a frame runs -/

/-- What the steps of a running frame keep: no level of `rst` becomes pending, and a host that polls in `WAIT DONE`
polls on. -/
structure Waits (s t : State) : Prop where
  noReset : s.rstInput = [] → t.rstInput = []
  polling : ∀ rest, s.host = .waitDone :: rest → t.host = s.host

theorem Waits.trans {s t u : State} (h : Waits s t) (h' : Waits t u) : Waits s u where
  noReset hs := h'.noReset (h.noReset hs)
  polling rest hh := (h'.polling rest ((h.polling rest hh).trans hh)).trans (h.polling rest hh)

/-- The engine has had its turn: one more pixel is done, or the frame has ended, with `DONE` set if no reset was
pending. -/
inductive Turn (s : State) (e : Engine) (t : State) : Prop
  | pixel {i : Nat} (lt : i < e.n) (todo : i ∉ e.doneSet) (engine : t.engine = some (e.mark i))
  | ended (idle : t.engine = none) (completed : s.rstInput = [] → t.done = true ∧ t.rst = false)

theorem Turn.of_waits {s t u : State} {e : Engine} (hw : Waits s t) (h : Turn t e u) : Turn s e u := by
  cases h with
  | pixel hi hdone he => exact .pixel hi hdone he
  | ended hidle hd => exact .ended hidle fun hs => hd (hw.noReset hs)

section
variable {s t : State} {e : Engine}

/-- The engine's step touches neither the pending accesses nor `rst`. -/
theorem engineStep_frame {c : Config} (h : engineStep c e s = .next t) :
    t.host = s.host ∧ t.rstInput = s.rstInput ∧ t.rst = s.rst := by
  rcases engineStep_cases c e s with ⟨-, heq⟩ | ⟨i, -, heq⟩ <;> rw [heq] at h
  · rcases completionStep_next h with ⟨-, rfl⟩ | ⟨-, -, rfl⟩ <;> exact ⟨rfl, rfl, rfl⟩
  · obtain ⟨-, rfl⟩ := pixelStep_next h
    rw [writePixel_frame]
    exact ⟨rfl, rfl, rfl⟩

/-- The engine's own step is its turn. -/
theorem Inv.engineStep_turn (h : Inv Config.here s) (he : s.engine = some e) :
    ∃ t, engineStep Config.here e s = .next t ∧ Inv Config.here t ∧ Waits s t ∧ Turn s e t := by
  obtain ⟨t, hstep, hinv, hturn⟩ := h.engineStep_answers he
  obtain ⟨hhost, hinput, hrst⟩ := engineStep_frame hstep
  refine ⟨t, hstep, hinv, ⟨hinput.trans, fun _ _ => hhost⟩, ?_⟩
  rcases hturn with ⟨i, hi, hdone, het, -⟩ | ⟨-, hidle, hd, -⟩
  · exact .pixel hi hdone het
  · exact .ended hidle fun _ => ⟨hd, hrst.trans (h.running e he).noRst⟩

/-- A host access while a frame runs leaves the engine and the choices alone, and `WAIT DONE` reads again
(10_state.md R41; 20_memory.md R63). -/
theorem Inv.hostOp_while_running (h : Inv Config.here s) (he : s.engine = some e) (op : HostOp) :
    ∃ t, performHostOp op s = .next t ∧ t.engine = some e ∧ t.choice = s.choice ∧ t.rstInput = s.rstInput ∧
      (op = .waitDone → t.host = .waitDone :: s.host) := by
  obtain ⟨t, hop, heff⟩ := performHostOp_effect op s
  have hbusy {p : Prop} (hidle : s.engine = none) : p := by rw [he] at hidle; cases hidle
  refine ⟨t, hop, ?_⟩
  cases heff with
  | answered x ops r =>
    refine ⟨he, rfl, rfl, ?_⟩
    rintro rfl
    have hrun := h.running e he
    have heq := Host.Outcome.next.inj hop
    rw [pollStatus_of_no_flag hrun.noRst hrun.notDone hrun.noErr] at heq
    exact (congrArg State.host heq).symm
  | register _ hidle | stored _ hidle | illegal _ hidle | command _ hidle => exact hbusy hidle

/-- Out of reset, `rst` is asserted or driven to the level it has (70_reset_and_hazards.md R195). -/
theorem driveReset_of_released (hr : s.rst = false) (level : Bool) :
    driveReset level s = s.afterReset true s.resets ∨ driveReset level s = s := by
  cases level with
  | true => exact .inl rfl
  | false => exact .inr (by simp [driveReset, hr])

/-- A step of a running frame is the engine's turn, or it waits: another agent moves, at a choice at which the
schedule does not let the engine move. -/
theorem Inv.step_while_running (h : Inv Config.here s) (he : s.engine = some e) :
    ∃ t, step s = .next t ∧ Inv Config.here t ∧ Waits s t ∧
      (Turn s e t ∨ (t.engine = some e ∧ t.choice = s.choice + 1 ∧
        Config.schedule.pick s.choice s.enabledAgents ≠ .engine)) := by
  have hrun := h.running e he
  rcases step_while_engine he hrun.noRst with ⟨u, hu, hstep⟩ | ⟨hpick, a, ha, hne, hstep⟩ <;> rw [hstep]
  · rcases hu with rfl | rfl
    · obtain ⟨t, ht, hinv, hw, hturn⟩ := h.engineStep_turn he
      exact ⟨t, ht, hinv, hw, .inl hturn⟩
    · obtain ⟨t, ht, hinv, ⟨hinput, hpoll⟩, hturn⟩ := h.tick.engineStep_turn he
      exact ⟨t, ht, hinv, ⟨hinput, hpoll⟩, .inl (.of_waits (t := s.tick) ⟨id, fun _ _ => rfl⟩ hturn)⟩
  · obtain ⟨t, ht, hinv⟩ := h.tick.agentStep_answers a
    refine ⟨t, ht, hinv, ?_⟩
    rcases State.mem_enabledAgents.1 ha with ⟨rfl, hready⟩ | ⟨rfl, -⟩ | ⟨rfl, hpending⟩
    · obtain ⟨op, rest, hh⟩ : ∃ op rest, s.host = op :: rest :=
        List.exists_cons_of_ne_nil (by simpa [State.hostReady] using hready)
      have hinv' : Inv Config.here { s.tick with host := rest } := h.of_frame rfl
      obtain ⟨t', ht', het, hchoice, hinput, hpoll⟩ := hinv'.hostOp_while_running he op
      cases ht.symm.trans ((agentStep_host (s := s.tick) hh).trans ht')
      refine ⟨⟨hinput.trans, fun rest' hh' => ?_⟩, .inr ⟨het, hchoice, hpick⟩⟩
      cases hh.symm.trans hh'
      exact (hpoll rfl).trans hh'.symm
    · exact absurd rfl hne
    · obtain ⟨level, rest, hp⟩ := List.exists_cons_of_ne_nil hpending
      cases ht.symm.trans (agentStep_platform (s := s.tick) hp)
      have hw {v : State} (hhost : v.host = s.host) : Waits s v :=
        ⟨fun hs => absurd hs hpending, fun _ _ => hhost⟩
      rcases driveReset_of_released (s := { s.tick with rstInput := rest }) hrun.noRst level with heq | heq <;> rw [heq]
      · exact ⟨hw rfl, .inl (.ended rfl fun hs => absurd hs hpending)⟩
      · exact ⟨hw rfl, .inr ⟨he, rfl, hpick⟩⟩

/-! ## A frame ends (R151) -/

/-- By weak fairness the engine gets its turn, whatever the other agents have pending. -/
theorem Inv.engine_gets_turn (h : Inv Config.here s) (he : s.engine = some e) :
    ∃ t, Reaches s t ∧ Inv Config.here t ∧ Waits s t ∧ Turn s e t := by
  obtain ⟨j, hj, hfair⟩ := Config.schedule.fair s.choice
  induction hk : j - s.choice generalizing s with
  | zero =>
    obtain ⟨t, hstep, hinv, hw, hturn | ⟨-, -, hpick⟩⟩ := h.step_while_running he
    · exact ⟨t, .head hstep (.refl t), hinv, hw, hturn⟩
    · obtain rfl : j = s.choice := by omega
      exact absurd (hfair _ (State.mem_enabledAgents.2 (.inr (.inl ⟨rfl, by rw [State.busy, he]; rfl,
        (h.running e he).noRst⟩)))) hpick
  | succ k ih =>
    obtain ⟨t, hstep, hinv, hw, hturn | ⟨het, hchoice, -⟩⟩ := h.step_while_running he
    · exact ⟨t, .head hstep (.refl t), hinv, hw, hturn⟩
    · obtain ⟨u, hrun, hu, hw', hturn⟩ := ih hinv het (by omega) (by omega)
      exact ⟨u, .head hstep hrun, hu, hw.trans hw', .of_waits hw hturn⟩

/-- A frame ends: the engine gets a turn for each remaining pixel and one more. -/
theorem Inv.frame_ends (h : Inv Config.here s) (he : s.engine = some e) :
    ∃ t, Reaches s t ∧ Waits s t ∧ t.engine = none ∧ (s.rstInput = [] → t.done = true ∧ t.rst = false) := by
  induction hk : e.n - e.doneSet.length generalizing s e with
  | zero =>
    obtain ⟨t, hrun, hinv, hw, hturn⟩ := h.engine_gets_turn he
    cases hturn with
    | pixel hi hdone =>
      have hlt := (h.running e he).length_lt hi hdone
      omega
    | ended hidle hd => exact ⟨t, hrun, hw, hidle, hd⟩
  | succ k ih =>
    obtain ⟨t, hrun, hinv, hw, hturn⟩ := h.engine_gets_turn he
    cases hturn with
    | pixel hi hdone het =>
      obtain ⟨u, hrun', hw', hidle, hd⟩ := ih hinv het (by rw [Engine.mark_left hdone]; omega)
      exact ⟨u, hrun.trans hrun', hw.trans hw', hidle, fun hs => hd (hw.noReset hs)⟩
    | ended hidle hd => exact ⟨t, hrun, hw, hidle, hd⟩

/-- Alone, the engine ends the frame in one step for each remaining pixel and one more. -/
theorem Inv.frame_ends_alone (h : Inv Config.here s) (he : s.engine = some e) (hh : s.host = [])
    (hp : s.rstInput = []) :
    ∃ t, Host.Core.run core (e.n - e.doneSet.length + 1) s = .next t ∧ t.engine = none ∧ t.done = true := by
  induction hk : e.n - e.doneSet.length generalizing s e with
  | zero =>
    have hrun := h.running e he
    obtain ⟨t, hstep, -, hturn⟩ := h.engineStep_answers he
    have hs : core.step s = .next t := (step_engine_alone hh hp hrun.noRst he).trans hstep
    rcases hturn with ⟨i, hi, hdone, -⟩ | ⟨-, hidle, hd, -⟩
    · have hlt := hrun.length_lt hi hdone
      omega
    · exact ⟨t, run_of_step core hs 0, hidle, hd⟩
  | succ k ih =>
    have hrun := h.running e he
    obtain ⟨t, hstep, hinv, hturn⟩ := h.engineStep_answers he
    obtain ⟨hhost, hinput, -⟩ := engineStep_frame hstep
    have hs : core.step s = .next t := (step_engine_alone hh hp hrun.noRst he).trans hstep
    rcases hturn with ⟨i, hi, hdone, het, -⟩ | ⟨hlen, -⟩
    · obtain ⟨u, hu, hidle, hd⟩ := ih hinv het (hhost.trans hh) (hinput.trans hp)
        (by rw [Engine.mark_left hdone]; omega)
      exact ⟨u, (run_of_step core hs _).trans hu, hidle, hd⟩
    · omega

end

/-- Settles O41: the engine alone takes the remaining pixels and completes; under a fair schedule it gets each of these
turns; and a host polling in `WAIT DONE` then reads a `STATUS` that shows `DONE`. -/
theorem busyEndsWithinRemainingSteps : Obligations.BusyEndsWithinRemainingSteps := by
  refine ⟨fun s e h he hh hp => h.frame_ends_alone he hh hp, fun s e h he => ?pending,
    fun s e rest h he hp hh => ?polling⟩
  case pending =>
    obtain ⟨t, ⟨k, hk⟩, -, hidle, hd⟩ := h.frame_ends he
    exact ⟨k, t, hk, hidle, fun hp => (hd hp).1⟩
  case polling =>
    obtain ⟨t, hrun, hw, hidle, hd⟩ := h.frame_ends he
    obtain ⟨hdone, hrst⟩ := hd hp
    have hhost : t.host = .waitDone :: rest := (hw.polling rest hh).trans hh
    have hpoll := pollStatus_of_flag (s := { t with host := rest }) hrst (.inl hdone)
    have hstep := step_host_alone (.inl hidle) (hw.noReset hp) hhost
    obtain ⟨k, hk⟩ := hrun.tail (hstep.trans (congrArg Host.Outcome.next hpoll))
    exact ⟨k, _, hk, hidle, hdone, rfl, rfl⟩

end Sys2Proof.Machine
end

section
/-! PROOFS. The statements of 30_encoding.md and 46_control.md on dispatch (R78, R165) and of 60_exceptions.md on errors
(R176, R180, R182): an error entry is the whole effect of its command, and the first error stays recorded until `CLR`
or reset. -/

namespace Sys2Proof.Machine

/-! ## Dispatch -/

/-- Settles O2: the decoder evaluated on the nine words. -/
theorem wordsWrittenOutDecode : Obligations.WordsWrittenOutDecode :=
  ⟨rfl, rfl, rfl, rfl, rfl, rfl, rfl, rfl, rfl⟩

/-- Settles O3: the step is the dispatch of the word, and dispatch without an error executes what the word decodes
to. -/
theorem stepRunsTheDecodedCommand : Obligations.StepRunsTheDecodedCommand := by
  intro s w i rest hpend hidle herr _ hdecode
  rw [step_of_cmdPending hpend hidle, decode_eq_ok_iff_eq_encode.1 hdecode]
  exact writeCmd_encode_of_no_err (s := { s with host := rest }) (State.busy_of_idle hidle) herr i

/-! ## Error entry (60_exceptions.md R176, R180) -/

/-- A row of the cause table: the command `i`, in `s`, raises `e` with the word `info`. -/
inductive RaisedBy (i : Instr) (s : State) : Cause → Word → Prop
  | dim (cmd : i ∈ [Instr.runGm, .runSl]) (empty : s.width = 0 ∨ s.height = 0) : RaisedBy i s .dim (encode i)
  | size (cmd : i ∈ [Instr.runGm, .runSl]) (width : s.width ≠ 0) (height : s.height ≠ 0)
      (count : s.frameSize ≠ s.inCount.toNat) : RaisedBy i s .size (BitVec.ofNat 32 (min s.frameSize 0xFFFFFFFF))
  | cap (cmd : i ∈ [Instr.runGm, .runSl]) (width : s.width ≠ 0) (height : s.height ≠ 0)
      (count : s.frameSize = s.inCount.toNat) (beyond : Config.here.maxPixels < s.frameSize) :
      RaisedBy i s .cap s.inCount
  | idx (cmd : i ∈ scalarMemoryCommands) (beyond : Config.here.maxPixels ≤ s.idx.toNat) : RaisedBy i s .idx s.idx
  | full (cmd : i = .cllacc) (full : s.cllCnt = 0xFFFFFFFF) : RaisedBy i s .cll 0x51
  | empty (cmd : i = .cllfin) (empty : s.cllCnt = 0) : RaisedBy i s .cll 0x52

section
variable {i : Instr} {s t : State}

theorem startFrame_raised_or_err {m : EngMode} (hi : i ∈ [Instr.runGm, .runSl]) :
    (∃ e info, RaisedBy i s e info ∧ startFrame Config.here m (encode i) s = s.raise e info) ∨
    (startFrame Config.here m (encode i) s).err = s.err := by
  by_cases hempty : s.width = 0 ∨ s.height = 0
  · exact .inl ⟨_, _, .dim hi hempty, startFrame_of_empty hempty⟩
  obtain ⟨hw, hh⟩ := not_or.1 hempty
  by_cases hn : s.frameSize = s.inCount.toNat
  · by_cases hc : Config.here.maxPixels < s.frameSize
    · exact .inl ⟨_, _, .cap hi hw hh hn hc, startFrame_of_beyond_capacity hw hh hn hc⟩
    · right
      rw [startFrame_of_accepted hw hh hn (Nat.le_of_not_lt hc), acceptFrame_err]
  · exact .inl ⟨_, _, .size hi hw hh hn, startFrame_of_wrong_size hw hh hn⟩

theorem indexChecked_raised_or_err (hi : i ∈ scalarMemoryCommands) {effect : State} (heff : effect.err = s.err) :
    (∃ e info, RaisedBy i s e info ∧ s.indexChecked Config.here effect = s.raise e info) ∨
    (s.indexChecked Config.here effect).err = s.err := by
  rcases s.indexChecked_cases Config.here effect with ⟨hge, heq⟩ | ⟨-, heq⟩
  · exact .inl ⟨_, _, .idx hi hge, heq⟩
  · exact .inr (by rw [heq, heff])

/-- A command is the error entry of a row of the table, or leaves `ERR` as it was; `CLR` alone clears it. -/
theorem exec_raised_or_err (hrun : exec i s = .next t) :
    (∃ e info, RaisedBy i s e info ∧ t = s.raise e info) ∨ t.err = s.err ∨ (i = .clr ∧ t = s.clearStatus) := by
  have weaken {u : State} (h : (∃ e info, RaisedBy i s e info ∧ u = s.raise e info) ∨ u.err = s.err) :
      (∃ e info, RaisedBy i s e info ∧ u = s.raise e info) ∨ u.err = s.err ∨ (i = .clr ∧ u = s.clearStatus) :=
    h.imp id .inl
  cases i
  case clr => cases hrun; exact .inr (.inr ⟨rfl, rfl⟩)
  case runGm => cases hrun; exact weaken (startFrame_raised_or_err (by decide))
  case runSl => cases hrun; exact weaken (startFrame_raised_or_err (by decide))
  case ldpx => cases hrun; exact weaken (indexChecked_raised_or_err (by decide) rfl)
  case sts | sth10 | sth16 =>
    cases hrun
    exact weaken (indexChecked_raised_or_err (by decide) (State.memWrite_err ..))
  case cllacc =>
    by_cases hfull : s.cllCnt = 0xFFFFFFFF
    · rw [exec_cllacc_of_full hfull] at hrun
      cases hrun
      exact .inl ⟨_, _, .full rfl hfull, rfl⟩
    · rw [exec_cllacc_of_not_full hfull] at hrun
      cases hrun
      exact .inr (.inl rfl)
  case cllfin =>
    by_cases hempty : s.cllCnt = 0
    · rw [exec_cllfin_of_empty hempty] at hrun
      cases hrun
      exact .inl ⟨_, _, .empty rfl hempty, rfl⟩
    · rw [exec_cllfin_of_not_empty hempty] at hrun
      cases hrun
      exact .inr (.inl rfl)
  all_goals cases hrun; exact .inr (.inl rfl)

end

/-- Settles O6: a command that sets `ERR` is the error entry of its row of the cause table, and nothing else. -/
theorem errorsArePrecise : Obligations.ErrorsArePrecise := by
  intro i s t herr hrun hset
  rcases exec_raised_or_err hrun with ⟨e, info, hrow, rfl⟩ | hkeep | ⟨-, rfl⟩
  case inr.inl => rw [hkeep, herr] at hset; cases hset
  case inr.inr => cases hset
  refine ⟨rfl, ?_⟩
  have hmin : (BitVec.ofNat 32 (min s.frameSize 0xFFFFFFFF)).toNat = min s.frameSize 0xFFFFFFFF :=
    Nat.mod_eq_of_lt (by omega)
  cases hrow with
  | dim hi hempty => exact .inl ⟨hi, rfl, rfl, hempty⟩
  | size hi hw hh hn => exact .inr (.inl ⟨hi, rfl, hmin, hw, hh, hn⟩)
  | cap hi hw hh hn hc => exact .inr (.inr (.inl ⟨hi, rfl, hn.symm, hw, hh, hn, hc⟩))
  | idx hi hge => exact .inr (.inr (.inr (.inl ⟨hi, rfl, rfl, hge⟩)))
  | full hi hfull => exact .inr (.inr (.inr (.inr (.inl ⟨hi, rfl, rfl, hfull⟩))))
  | empty hi hempty => exact .inr (.inr (.inr (.inr (.inr ⟨hi, rfl, rfl, hempty⟩))))

/-! ## The recorded error (60_exceptions.md R182, R183) -/

/-- The error record: `ERR`, `ERRCODE`, `ERRINFO`. -/
def State.errorRecord (s : State) : Bool × BitVec 4 × Word := (s.err, s.errcode, s.errinfo)

section
variable {s t : State}

theorem writeReg_errorRecord (s : State) (r : Reg) (x : Word) : (writeReg s r x).errorRecord = s.errorRecord := by
  cases r <;> rfl

theorem engineStep_errorRecord {c : Config} {e : Engine} (h : engineStep c e s = .next t) :
    t.errorRecord = s.errorRecord := by
  rcases engineStep_cases c e s with ⟨-, heq⟩ | ⟨i, -, heq⟩ <;> rw [heq] at h
  · rcases completionStep_next h with ⟨-, rfl⟩ | ⟨-, -, rfl⟩ <;> rfl
  · obtain ⟨-, rfl⟩ := pixelStep_next h
    rw [writePixel_frame]
    rfl

/-- While `ERR = 1` a host operation keeps the record, or delivers `CLR`'s word, out of reset and with no frame. -/
theorem HostEffect.errorRecord {op : HostOp} (heff : HostEffect op s t) (herr : s.err = true) :
    t.errorRecord = s.errorRecord ∨
    (s.rst = false ∧ s.engine = none ∧ DeliversCmd op (encode .clr) ∧ t = (s.respond .ok).clearStatus) := by
  cases heff with
  | answered => exact .inl rfl
  | register _ _ r x => exact .inl (writeReg_errorRecord s r x)
  | @stored _ _ b =>
    cases b <;> exact .inl rfl
  | illegal _ _ hno => rw [herr] at hno; cases hno
  | command hr he hd hclr hrun =>
    obtain rfl := hclr herr
    cases hrun
    exact .inr ⟨hr, he, hd, rfl⟩

/-- What driving `rst` does to the record: asserting or releasing it clears it. -/
theorem driveReset_errorRecord (level : Bool) (s : State) :
    (driveReset level s).errorRecord = s.errorRecord ∨
    ((driveReset level s).errorRecord = (false, 0, 0) ∧ (driveReset level s).rst = level ∧
      (driveReset level s).rstInput = s.rstInput ∧ (level = true ∨ s.rst = true)) := by
  unfold driveReset
  split
  case isTrue h => exact .inr ⟨rfl, h.symm, rfl, .inl h⟩
  case isFalse h =>
    split
    case isTrue hr => exact .inr ⟨rfl, (Bool.eq_false_iff.2 h).symm, rfl, .inr hr⟩
    case isFalse => exact .inl rfl

theorem State.errorRecord_eq_iff {r : Bool × BitVec 4 × Word} :
    t.errorRecord = r ↔ t.err = r.1 ∧ t.errcode = r.2.1 ∧ t.errinfo = r.2.2 := by
  simp [State.errorRecord, Prod.ext_iff]

end

/-- Settles O7: of the moves of the three agents only `CLR`'s delivery and a driven reset touch the record. -/
theorem firstErrorStaysRecorded : Obligations.FirstErrorStaysRecorded := by
  intro s t hstep herr
  have keep (h : t.errorRecord = s.errorRecord) : t.err = true ∧ t.errcode = s.errcode ∧ t.errinfo = s.errinfo := by
    obtain ⟨hset, hcode, hinfo⟩ := State.errorRecord_eq_iff.1 h
    exact ⟨hset.trans herr, hcode, hinfo⟩
  rcases step_moves s with ⟨-, hs⟩ | ⟨u, hu, hmove⟩
  · cases hstep.symm.trans hs
    exact .inl (keep rfl)
  have hrecord : u.errorRecord = s.errorRecord := by rcases hu with rfl | rfl <;> rfl
  have hsame : u.rst = s.rst ∧ u.engine = s.engine := by rcases hu with rfl | rfl <;> exact ⟨rfl, rfl⟩
  obtain ⟨hrst, hengine⟩ := hsame
  rcases hmove with ⟨op, rest, hh, hs⟩ | ⟨e, -, -, hs⟩ | ⟨level, rest, hp, hs⟩
  · obtain ⟨t', ht', heff⟩ := performHostOp_effect op { u with host := rest }
    cases hstep.symm.trans (hs.trans ht')
    have herr' : u.err = true := (congrArg Prod.fst hrecord).trans herr
    rcases heff.errorRecord herr' with hkeep | ⟨hr, he, hd, rfl⟩
    · exact .inl (keep (hkeep.trans hrecord))
    · exact .inr ⟨rfl, rfl, rfl, .inl ⟨hrst.symm.trans hr, State.busy_of_idle (hengine.symm.trans he), op, rest, hh,
        rfl, hd⟩⟩
  · exact .inl (keep ((engineStep_errorRecord (hs.symm.trans hstep)).trans hrecord))
  · cases hstep.symm.trans hs
    rcases driveReset_errorRecord level { u with rstInput := rest } with hkeep | ⟨hclear, hlevel, hinput, hcause⟩
    · exact .inl (keep (hkeep.trans hrecord))
    · obtain ⟨hset, hcode, hinfo⟩ := State.errorRecord_eq_iff.1 hclear
      exact .inr ⟨hset, hcode, hinfo, .inr ⟨level, rest, hp, hinput, hlevel, hcause.imp id hrst.symm.trans⟩⟩

end Sys2Proof.Machine
end

section
/-! PROOFS. The statements of 40_transfer.md on `GDEC`, `GENC` (R91 to R94) and on `pq` (R97), of 00_scope.md on
`POW32_CR` (R13) and on rounding (R11). All but the last rest on the laws of a power function. -/

namespace Sys2Proof.Machine

/-! ## Guarded powers (R91, R92) -/

/-- The common form of `gdec` and `genc`: the power of a positive lane, `+0` of any other. -/
def guardedPow (c : Config) (y v : Word) : Word := if fgt v fZero then pow32 c v y else fZero

theorem gdec_eq_guardedPow (c : Config) : gdec c = guardedPow c kG22 := rfl

theorem genc_eq_guardedPow (c : Config) : genc c = guardedPow c kGINV := rfl

section
variable {c : Config} {y v : Word}

theorem guardedPow_of_not_pos (h : isNaN v = true ∨ fKey v ≤ 0) : guardedPow c y v = fZero := by
  refine if_neg fun hpos => ?_
  obtain ⟨hn, hk⟩ := fgt_zero_iff.1 hpos
  rcases h with h | h
  · rw [hn] at h; cases h
  · omega

theorem guardedPow_of_pos (hn : isNaN v = false) (hk : 0 < fKey v) : guardedPow c y v = pow32 c v y :=
  if_pos (fgt_zero_iff.2 ⟨hn, hk⟩)

variable (hp : PowLaws c.params.pow32) (hy : y ∈ powExponents)
include hp hy

theorem guardedPow_one : guardedPow c y kONE = kONE :=
  (guardedPow_of_pos (by decide) (by decide)).trans (hp.one y hy)

theorem guardedPow_inf : guardedPow c y fInf = fInf :=
  (guardedPow_of_pos (by decide) (by decide)).trans (hp.inf y hy)

/-- No result is a NaN or has its sign bit set (P5). -/
theorem guardedPow_le_fInf (v : Word) : guardedPow c y v ≤ fInf := by
  by_cases h : isNaN v = false ∧ 0 < fKey v
  · obtain ⟨hn, hk⟩ := h
    rw [guardedPow_of_pos hn hk]
    exact hp.range y hy v (le_fInf_of_pos hn hk).1
  · rw [guardedPow, if_neg (fgt_zero_iff.not.2 h)]
    decide

end

theorem exec_gdec (s : State) : exec .gdec s = .next (onColourLanes (guardedPow Config.here kG22) s) := rfl

theorem exec_genc (s : State) : exec .genc s = .next (onColourLanes (guardedPow Config.here kGINV) s) := rfl

/-- A command that maps a guarded power over the colour lanes. -/
theorem guardedPow_lanes {y : Word} (hy : y ∈ powExponents) {xs : List Word} {l : Word × Word}
    (hl : l ∈ xs.map fun x => (x, guardedPow Config.here y x)) :
    ((isNaN l.1 = true ∨ fKey l.1 ≤ 0) → l.2 = 0x00000000) ∧
    (isNaN l.1 = false → 0 < fKey l.1 → l.2 = Config.here.params.pow32 l.1 y) ∧
    (l.1 = 0x3F800000 → l.2 = 0x3F800000) ∧ (l.1 = 0x7F800000 → l.2 = 0x7F800000) ∧ l.2 ≤ 0x7F800000 := by
  have hlaws : PowLaws Config.here.params.pow32 := Config.openParams.ok.pow
  rw [snd_eq_of_mem_map hl]
  exact ⟨guardedPow_of_not_pos, guardedPow_of_pos, fun h => (congrArg _ h).trans (guardedPow_one hlaws hy),
    fun h => (congrArg _ h).trans (guardedPow_inf hlaws hy), guardedPow_le_fInf hlaws hy l.1⟩

/-- Settles O10: both commands map a guarded power over the colour lanes, and the laws of R13 give its values. -/
theorem gammaCommandsRaiseColourLanes : Obligations.GammaCommandsRaiseColourLanes := by
  intro s p hp
  simp only [List.mem_cons, List.not_mem_nil, or_false] at hp
  rcases hp with rfl | rfl
  · exact ⟨_, exec_gdec s, rfl, rfl, fun l hl => guardedPow_lanes (xs := [s.v.r, s.v.g, s.v.b]) (by decide) hl⟩
  · exact ⟨_, exec_genc s, rfl, rfl, fun l hl => guardedPow_lanes (xs := [s.v.r, s.v.g, s.v.b]) (by decide) hl⟩

/-! ## `pq` (R97) -/

section
variable {c : Config} (hp : PowLaws c.params.pow32)
include hp

theorem pq_fZero : pq c fZero = c.params.pow32 0x3F560000 kM2 := by
  have hy : pqY c fZero = fZero := by
    rw [pqY, clamp01_of_le_one (by decide)]
    exact hp.zero kK kK_mem_powExponents
  rw [pq, hy, pqT_zero, pow32]

/-- Each stage of `pq` is monotone, so `pq` is. -/
theorem pq_mono {v v' : Word} (h : v ≤ v') (h' : v' ≤ kONE) : pq c v ≤ pq c v' := by
  have hy : pqY c v ≤ pqY c v' := by
    rw [pqY, pqY, clamp01_of_le_one h', clamp01_of_le_one (BitVec.le_trans h h')]
    exact hp.mono kK kK_mem_powExponents v v' h (BitVec.le_trans h' (by decide))
  have ht : pqT (pqY c v) ≤ pqT (pqY c v') := pqT_mono hy (pqY_le_one hp v')
  exact hp.mono kM2 kM2_mem_powExponents _ _ ht (BitVec.le_trans (pqT_le_one (pqY_le_one hp v')) (by decide))

end

/-- Settles O12: the laws of the power function through the stages of `pq`; the code of `+0` evaluated. -/
theorem pqIsMonotoneAndFixesOne : Obligations.PqIsMonotoneAndFixesOne := by
  refine ⟨fun c hp => ⟨pq_of_ge hp (by decide) le_rfl, pq_fZero hp, fun v v' h h' => pq_mono hp h h',
    fun v => pq_congr_clamp01 c (clamp01_clamp01 v).symm, fun v hn h => pq_of_ge hp hn h,
    fun v h => pq_of_not_pos c h⟩, pow32cr_pqT_zero, fun d => ?dark⟩
  case dark => cases d <;> decide +kernel

/-- Settles O13: the result of `POW32_CR` is the largest pattern that the exact power reaches, which obeys the laws. -/
theorem referencePowerObeysTheLaws : Obligations.ReferencePowerObeysTheLaws := pow32cr_laws

/-! ## Rounding to nearest (R11) -/

section
variable {num den : Nat}

/-- How far a magnitude pattern lies from the exact value `num / den`, in units over `den`. -/
def roundingError (num den c : Nat) : ℤ := |(magUnits c * den : ℤ) - num|

theorem magUnits_mul_le {c c' : Nat} (h : c ≤ c') (den : Nat) : (magUnits c * den : ℤ) ≤ magUnits c' * den := by
  exact_mod_cast Nat.mul_le_mul_right den (magUnits_strictMono.monotone h)

theorem magUnits_mul_lt (h : 0 < den) {c c' : Nat} (hc : c < c') : (magUnits c * den : ℤ) < magUnits c' * den := by
  exact_mod_cast Nat.mul_lt_mul_of_pos_right (magUnits_strictMono hc) h

/-- A boundary, times `den`, as the sum of its two neighbours. -/
theorem boundary2_mul (c den : Nat) :
    ((boundary2 c * den : Nat) : ℤ) = magUnits (c - 1) * den + magUnits c * den := by
  rw [boundary2]
  push_cast
  ring

/-- From the midpoint of `y` and `z` on, `z` is nearer than every number up to `y`, and equally near only at the
midpoint. -/
theorem nearest_above_midpoint {x y z n : ℤ} (hx : x ≤ y) (hyz : y < z) (hmid : y + z ≤ 2 * n) :
    |z - n| ≤ |x - n| ∧ (|z - n| = |x - n| → y + z = 2 * n) := by
  have hxn : |x - n| = n - x := by rw [abs_sub_comm, abs_of_nonneg (by omega)]
  rcases abs_cases (z - n) with ⟨hz, -⟩ | ⟨hz, -⟩ <;> rw [hz, hxn] <;> omega

/-- Up to the midpoint of `z` and `y`, `z` is nearer than every number from `y` on, and equally near only at the
midpoint. -/
theorem nearest_below_midpoint {x y z n : ℤ} (hx : y ≤ x) (hyz : z < y) (hmid : 2 * n ≤ z + y) :
    |z - n| ≤ |x - n| ∧ (|z - n| = |x - n| → 2 * n = z + y) := by
  have hxn : |x - n| = x - n := abs_of_nonneg (by omega)
  rcases abs_cases (z - n) with ⟨hz, -⟩ | ⟨hz, -⟩ <;> rw [hz, hxn] <;> omega

/-- Below the result no pattern is nearer, and one equally near means that the result is even. -/
theorem roundingError_of_lt (h : 0 < den) {c : Nat} (hc : c < roundMag num den) :
    roundingError num den (roundMag num den) ≤ roundingError num den c ∧
    (roundingError num den (roundMag num den) = roundingError num den c → roundMag num den % 2 = 0) := by
  obtain ⟨-, lower, -⟩ := roundMag_spec num den h
  obtain ⟨hb, heven⟩ := lower (by omega)
  have hsum := boundary2_mul (roundMag num den) den
  obtain ⟨hle, htie⟩ := nearest_above_midpoint (magUnits_mul_le (show c ≤ roundMag num den - 1 by omega) den)
    (magUnits_mul_lt h (show roundMag num den - 1 < roundMag num den by omega)) (n := num) (by omega)
  exact ⟨hle, fun he => heven (by have := htie he; omega)⟩

/-- Above the result no finite pattern is nearer, and one equally near means that the result is even. -/
theorem roundingError_of_gt (h : 0 < den) {c : Nat} (hc : roundMag num den < c) (hfin : c < 0x7F800000) :
    roundingError num den (roundMag num den) ≤ roundingError num den c ∧
    (roundingError num den (roundMag num den) = roundingError num den c → roundMag num den % 2 = 0) := by
  obtain ⟨-, -, upper⟩ := roundMag_spec num den h
  obtain ⟨hb, heven⟩ := upper (by omega)
  have hsum := boundary2_mul (roundMag num den + 1) den
  rw [Nat.add_sub_cancel] at hsum
  obtain ⟨hle, htie⟩ := nearest_below_midpoint (magUnits_mul_le (show roundMag num den + 1 ≤ c by omega) den)
    (magUnits_mul_lt h (Nat.lt_succ_self (roundMag num den))) (n := num) (by omega)
  exact ⟨hle, fun he => heven (by have := htie he; omega)⟩

end

/-- Settles O47: `roundMag` lies between the boundaries around it, which are the midpoints to its neighbours; the last
boundary is that of infinity, whose pattern is even. -/
theorem roundingIsNearestTiesToEven : Obligations.RoundingIsNearestTiesToEven := by
  refine fun num den h => ⟨fun hfin c hc => ?nearest, ?infinite⟩
  case nearest =>
    rcases Nat.lt_trichotomy c (roundMag num den) with hlt | rfl | hgt
    · obtain ⟨hle, heven⟩ := roundingError_of_lt h hlt
      exact ⟨hle, fun _ => heven⟩
    · exact ⟨le_rfl, fun hne => absurd rfl hne⟩
    · obtain ⟨hle, heven⟩ := roundingError_of_gt h hgt hc
      exact ⟨hle, fun _ => heven⟩
  case infinite =>
    have hmax := (roundMag_spec num den h).1
    have hreach := le_roundMag_iff (num := num) h (c := 0x7F800000) (by decide) le_rfl
    constructor
    · intro heq
      rcases hreach.1 heq.ge with hlt | ⟨he, -⟩
      · exact hlt.le
      · exact he.le
    · intro hle
      refine le_antisymm hmax (hreach.2 ?_)
      rcases Nat.lt_or_eq_of_le hle with hlt | he
      · exact .inl hlt
      · exact .inr ⟨he, by decide⟩

end Sys2Proof.Machine
end

section
/-! PROOFS. The statements of 45_frame.md on scalar pixels (R159, R160): the commands of `PIXGM` and `PIXSL` do what one
pixel step of the engine does. Each expansion is cut into the parts that the pixel functions of R148 are made of, and one
lemma per part says what its commands leave. -/

namespace Sys2Proof.Machine

/-! ## Packed pixels as numbers (42_quantize_pack.md R118 to R120; R148) -/

/-- A field put above the bits used so far adds its number to theirs, and the sum fits both. -/
theorem or_field_toNat {n b k x : Nat} {w : BitVec n} (hw : w.toNat < 2 ^ k) (hx : x < 2 ^ b) (hfit : b + k ≤ n) :
    (w ||| BitVec.ofNat n x <<< k).toNat = w.toNat + x * 2 ^ k ∧ w.toNat + x * 2 ^ k < 2 ^ (b + k) := by
  have hsum : w.toNat + x * 2 ^ k < 2 ^ (b + k) := calc
    w.toNat + x * 2 ^ k < 2 ^ k + x * 2 ^ k := Nat.add_lt_add_right hw _
    _ = (x + 1) * 2 ^ k := by ring
    _ ≤ 2 ^ b * 2 ^ k := Nat.mul_le_mul_right _ hx
    _ = 2 ^ (b + k) := (pow_add ..).symm
  have hn : 2 ^ (b + k) ≤ 2 ^ n := Nat.pow_le_pow_right (by decide) hfit
  have hxn : x < 2 ^ n := hx.trans_le (Nat.pow_le_pow_right (by decide) (by omega))
  refine ⟨?_, hsum⟩
  rw [BitVec.toNat_or, BitVec.toNat_shiftLeft, BitVec.toNat_ofNat, Nat.mod_eq_of_lt hxn, Nat.shiftLeft_eq,
    Nat.mod_eq_of_lt (by omega), ← Nat.shiftLeft_eq, Nat.or_comm, ← Nat.shiftLeft_add_eq_or_of_lt hw, Nat.add_comm]

/-- Three fields of `b` bits and one of `b'` bits side by side. -/
theorem four_fields_toNat {n b b' x0 x1 x2 x3 : Nat} (h0 : x0 < 2 ^ b) (h1 : x1 < 2 ^ b) (h2 : x2 < 2 ^ b)
    (h3 : x3 < 2 ^ b') (hfit : b' + (b + (b + b)) ≤ n) :
    (BitVec.ofNat n x0 ||| BitVec.ofNat n x1 <<< b ||| BitVec.ofNat n x2 <<< (b + b)
      ||| BitVec.ofNat n x3 <<< (b + (b + b))).toNat =
    x0 + x1 * 2 ^ b + x2 * 2 ^ (b + b) + x3 * 2 ^ (b + (b + b)) := by
  have hn : x0 < 2 ^ n := h0.trans_le (Nat.pow_le_pow_right (by decide) (by omega))
  have e0 : (BitVec.ofNat n x0).toNat = x0 := Nat.mod_eq_of_lt hn
  obtain ⟨e1, b1⟩ := or_field_toNat (w := BitVec.ofNat n x0) (k := b) (by rwa [e0]) h1 (by omega)
  rw [← e1] at b1
  obtain ⟨e2, b2⟩ := or_field_toNat b1 h2 (by omega)
  rw [← e2] at b2
  obtain ⟨e3, -⟩ := or_field_toNat b2 h3 (by omega)
  rw [e3, e2, e1, e0]

/-- A code that fits its field is packed whole. -/
theorem packField_quantLane {d : Depth} {bits : Nat} (h : d.max < 2 ^ bits) (v : Word) (shift : Nat) :
    packField (quantLane d v) bits shift = BitVec.ofNat 64 (quant v d) <<< shift := by
  have hlt : quant v d < 2 ^ bits := (quant_le_max v d).trans_lt h
  rw [packField]
  congr 1
  apply BitVec.eq_of_toNat_eq
  rw [BitVec.toNat_setWidth, BitVec.extractLsb'_toNat, Nat.shiftRight_zero, quantLane_toNat, Nat.mod_eq_of_lt hlt,
    BitVec.toNat_ofNat]

theorem quant_lt (v : Word) (d : Depth) {n : Nat} (h : d.max < n) : quant v d < n := (quant_le_max v d).trans_lt h

/-- The codes of a sample's SDR pixel. -/
def codes8 (p : Lanes Word) : Lanes Half := p.map (quantLane .d8)

/-- `PK8` packs the number of `sdr_px`. -/
theorem pack8_codes8 (p : Lanes Word) : (pack8 (codes8 p)).toNat = (sdrPx p).toNat := by
  have hq (v : Word) : quant v .d8 < 2 ^ 8 := quant_lt v .d8 (by decide)
  have hfields (n : Nat) (hn : 32 ≤ n) := four_fields_toNat (n := n) (hq p.r) (hq p.g) (hq p.b) (hq p.a) (by omega)
  simp only [pack8, codes8, Lanes.map, packField_quantLane (d := .d8) (bits := 8) (by decide), BitVec.shiftLeft_zero]
  exact (hfields 64 (by decide)).trans (hfields 32 (by decide)).symm

/-- The codes of a sample's gain-map HDR pixel. -/
def codes10 (c : Config) (p : Lanes Word) : Lanes Half :=
  ⟨quantLane .d10 (encPq c p).r, quantLane .d10 (encPq c p).g, quantLane .d10 (encPq c p).b, quantLane .d2 p.a⟩

/-- The codes of a sample's single-layer HDR pixel. -/
def codes16 (c : Config) (p : Lanes Word) : Lanes Half :=
  ⟨quantLane .d16 (encPq c p).r, quantLane .d16 (encPq c p).g, quantLane .d16 (encPq c p).b, quantLane .d16 p.a⟩

/-- `PK10` packs the number of `hdr10_px`. -/
theorem pack10_codes10 (c : Config) (p : Lanes Word) : (pack10 (codes10 c p)).toNat = (hdr10Px c p).toNat := by
  have hq (v : Word) : quant v .d10 < 2 ^ 10 := quant_lt v .d10 (by decide)
  have ha : quant p.a .d2 < 2 ^ 2 := quant_lt p.a .d2 (by decide)
  have hfields (n : Nat) (hn : 32 ≤ n) := four_fields_toNat (n := n) (hq (encPq c p).r) (hq (encPq c p).g)
    (hq (encPq c p).b) ha (by omega)
  simp only [pack10, codes10, packField_quantLane (d := .d10) (bits := 10) (by decide),
    packField_quantLane (d := .d2) (bits := 2) (by decide), BitVec.shiftLeft_zero]
  exact (hfields 64 (by decide)).trans (hfields 32 (by decide)).symm

/-- `PK16` packs `hdr16_px`. -/
theorem pack16_codes16 (c : Config) (p : Lanes Word) : pack16 (codes16 c p) = hdr16Px c p := by
  simp only [pack16, codes16, packField_quantLane (d := .d16) (bits := 16) (by decide), BitVec.shiftLeft_zero, hdr16Px]

@[simp] theorem quantLane_clamp01 (d : Depth) (v : Word) : quantLane d (clamp01 v) = quantLane d v := by
  rw [quantLane, quantLane, quant_clamp01]

/-! ## The parts of the expansions (30_encoding.md R83) -/

/-- The linear part of R148: `GDEC`, `NSCALE`, `MAT3`, `CLAMP`. -/
def linearCommands : List Instr := [.gdec, .nscale, .mat3, .clamp]

/-- The lanes after the linear part. -/
def linLanes (c : Config) (p : Lanes Word) : Lanes Word := ⟨(lin c p).r, (lin c p).g, (lin c p).b, clamp01 p.a⟩

/-- The lanes after `PQENC`. -/
def encLanes (c : Config) (p : Lanes Word) : Lanes Word := ⟨(encPq c p).r, (encPq c p).g, (encPq c p).b, clamp01 p.a⟩

/-- The state with the four datapath registers set (10_state.md R36 to R39). -/
def State.datapath (s : State) (v : Lanes Word) (q : Lanes Half) (y : Half) (w : DWord) : State :=
  { s with v := v, q := q, y := y, w := w }

@[simp] theorem State.datapath_nonfin (s : State) (v : Lanes Word) (q : Lanes Half) (y : Half) (w : DWord) :
    (s.datapath v q y w).nonfin = s.nonfin := rfl
@[simp] theorem State.datapath_sdrBuf (s : State) (v : Lanes Word) (q : Lanes Half) (y : Half) (w : DWord) :
    (s.datapath v q y w).sdrBuf = s.sdrBuf := rfl
@[simp] theorem State.datapath_hdrBuf (s : State) (v : Lanes Word) (q : Lanes Half) (y : Half) (w : DWord) :
    (s.datapath v q y w).hdrBuf = s.hdrBuf := rfl

theorem execAll_linearCommands (s : State) :
    execAll linearCommands s = .next (s.datapath (linLanes Config.here s.v) s.q s.y s.w) := by
  rw [linearCommands, execAll_cons_of_next (exec_gdec s), execAll_cons_of_next (exec_nscale _),
    execAll_cons_of_next (exec_mat3 _), execAll_cons_of_next (exec_clamp _), execAll]
  rfl

theorem exec_pqenc_linLanes (s : State) (p : Lanes Word) (q : Lanes Half) (y : Half) (w : DWord) :
    exec .pqenc (s.datapath (linLanes Config.here p) q y w) = .next (s.datapath (encLanes Config.here p) q y w) := rfl

theorem exec_q10a2_encLanes (s : State) (p : Lanes Word) (q : Lanes Half) (y : Half) (w : DWord) :
    exec .q10a2 (s.datapath (encLanes Config.here p) q y w) =
      .next (s.datapath (encLanes Config.here p) (codes10 Config.here p) y w) := by
  rw [exec_q10a2]
  simp only [State.datapath, encLanes, codes10, quantLane_clamp01]

theorem exec_q16_encLanes (s : State) (p : Lanes Word) (q : Lanes Half) (y : Half) (w : DWord) :
    exec .q16 (s.datapath (encLanes Config.here p) q y w) =
      .next (s.datapath (encLanes Config.here p) (codes16 Config.here p) y w) := by
  rw [exec_q16]
  simp only [State.datapath, Lanes.map, encLanes, codes16, quantLane_clamp01]

section
variable {s : State} (h : s.idx.toNat < Config.here.maxPixels)
include h

/-- `PIXSDR`: quantise, pack and store the SDR pixel. -/
theorem execAll_pixSdr : ∃ q w, execAll (macroCommands .pixSdr) s = .next
    ((s.datapath s.v q s.y w).memWrite .sdr (4 * s.idx.toNat) 4 (sdrPx s.v).toNat) := by
  have hsts := exec_sts_of_lt (s := s.datapath s.v (codes8 s.v) s.y
    (pack8 (codes8 s.v))) h
  refine ⟨codes8 s.v, pack8 (codes8 s.v), ?_⟩
  rw [macroCommands, execAll_cons_of_next (exec_q8 s), execAll_cons_of_next (exec_pk8 _)]
  refine (execAll_cons_of_next hsts []).trans ?_
  rw [execAll, ← pack8_codes8]
  rfl

/-- `PIXHDR10`: transform, encode, quantise, pack and store the gain-map pixel. -/
theorem execAll_pixHdr10 : ∃ v q w, execAll (macroCommands .pixHdr10) s = .next
    ((s.datapath v q s.y w).memWrite .hdr (4 * s.idx.toNat) 4 (hdr10Px Config.here s.v).toNat) := by
  have hpk10 := exec_pk10 (s.datapath (encLanes Config.here s.v) (codes10 Config.here s.v) s.y s.w)
  have hsth10 := exec_sth10_of_lt (s := s.datapath (encLanes Config.here s.v) (codes10 Config.here s.v) s.y
    (pack10 (codes10 Config.here s.v))) h
  refine ⟨encLanes Config.here s.v, codes10 Config.here s.v, pack10 (codes10 Config.here s.v), ?_⟩
  rw [show macroCommands .pixHdr10 = linearCommands ++ [.pqenc, .q10a2, .pk10, .sth10] from rfl,
    execAll_append_of_next (execAll_linearCommands s), execAll_cons_of_next (exec_pqenc_linLanes s s.v s.q s.y s.w),
    execAll_cons_of_next (exec_q10a2_encLanes s s.v s.q s.y s.w), execAll_cons_of_next hpk10]
  refine (execAll_cons_of_next hsth10 []).trans ?_
  rw [execAll, ← pack10_codes10]
  rfl

/-- `PIXHDR16`: transform, measure, encode, quantise, pack and store the single-layer pixel. -/
theorem execAll_pixHdr16 (hfull : s.cllCnt ≠ 0xFFFFFFFF) : ∃ v q w, execAll (macroCommands .pixHdr16) s = .next
    (((s.cllAccumulate (BitVec.ofNat 16 (yPx Config.here s.v))).datapath v q (BitVec.ofNat 16 (yPx Config.here s.v))
      w).memWrite .hdr (8 * s.idx.toNat) 8 (hdr16Px Config.here s.v).toNat) := by
  generalize hy : BitVec.ofNat 16 (yPx Config.here s.v) = y
  have hluma : exec .luma (s.datapath (linLanes Config.here s.v) s.q s.y s.w) =
      .next (s.datapath (linLanes Config.here s.v) s.q y s.w) := hy ▸ rfl
  have hcllacc : exec .cllacc (s.datapath (linLanes Config.here s.v) s.q y s.w) =
      .next ((s.cllAccumulate y).datapath (linLanes Config.here s.v) s.q y s.w) := exec_cllacc_of_not_full hfull
  have hpk16 := exec_pk16 ((s.cllAccumulate y).datapath (encLanes Config.here s.v) (codes16 Config.here s.v) y s.w)
  have hsth16 := exec_sth16_of_lt (s := (s.cllAccumulate y).datapath (encLanes Config.here s.v)
    (codes16 Config.here s.v) y (pack16 (codes16 Config.here s.v))) h
  refine ⟨encLanes Config.here s.v, codes16 Config.here s.v, pack16 (codes16 Config.here s.v), ?_⟩
  rw [show macroCommands .pixHdr16 = linearCommands ++ [.luma, .cllacc, .pqenc, .q16, .pk16, .sth16] from rfl,
    execAll_append_of_next (execAll_linearCommands s), execAll_cons_of_next hluma, execAll_cons_of_next hcllacc,
    execAll_cons_of_next (exec_pqenc_linLanes _ s.v s.q y s.w),
    execAll_cons_of_next (exec_q16_encLanes _ s.v s.q y s.w), execAll_cons_of_next hpk16]
  refine (execAll_cons_of_next hsth16 []).trans ?_
  rw [execAll, ← pack16_codes16]
  rfl

/-! ## The whole expansions (R159) -/

/-- The state after `LDPX` below the capacity (43_memory_ops.md R129). -/
def State.loaded (s : State) : State :=
  { s with v := s.sample s.idx.toNat, nonfin := s.nonfin || sampleNonfinite (s.sample s.idx.toNat) }

/-- `PIXGM` is the gain-map pixel step's writes, beside the datapath registers. -/
theorem execAll_pixGm : ∃ v q w, execAll (macroCommands .pixGm) s = .next
    ((writePixel Config.here .gm s.idx.toNat (s.sample s.idx.toNat) s).datapath v q s.y w) := by
  obtain ⟨q, w, hsdr⟩ := execAll_pixSdr (s := s.loaded) h
  obtain ⟨v, q', w', hhdr⟩ := execAll_pixHdr10 (s := (s.loaded.datapath s.loaded.v q s.y w).memWrite .sdr
    (4 * s.idx.toNat) 4 (sdrPx s.loaded.v).toNat) h
  refine ⟨v, q', w', ?_⟩
  rw [show macroCommands .pixGm = .ldpx :: (macroCommands .pixSdr ++ macroCommands .pixHdr10) from rfl,
    execAll_cons_of_next (exec_ldpx_of_lt h), writePixel_gm]
  exact (execAll_append_of_next hsdr _).trans hhdr

/-- `PIXSL` is the single-layer pixel step's writes and accumulation, beside the datapath registers. -/
theorem execAll_pixSl (hfull : s.cllCnt ≠ 0xFFFFFFFF) : ∃ v q w, execAll (macroCommands .pixSl) s = .next
    ((writePixel Config.here .sl s.idx.toNat (s.sample s.idx.toNat) s).datapath v q
      (BitVec.ofNat 16 (yPx Config.here (s.sample s.idx.toNat))) w) := by
  obtain ⟨q, w, hsdr⟩ := execAll_pixSdr (s := s.loaded) h
  obtain ⟨v, q', w', hhdr⟩ := execAll_pixHdr16 (s := (s.loaded.datapath s.loaded.v q s.y w).memWrite .sdr
    (4 * s.idx.toNat) 4 (sdrPx s.loaded.v).toNat) h hfull
  refine ⟨v, q', w', ?_⟩
  rw [show macroCommands .pixSl = .ldpx :: (macroCommands .pixSdr ++ macroCommands .pixHdr16) from rfl,
    execAll_cons_of_next (exec_ldpx_of_lt h), writePixel_sl]
  exact (execAll_append_of_next hsdr _).trans hhdr

end

/-- Settles O44: the expansion's run is the pixel's writes but for the datapath registers. -/
theorem scalarPixelEqualsGainMapStep : Obligations.ScalarPixelEqualsGainMapStep := by
  intro s h
  obtain ⟨v, q, w, hrun⟩ := execAll_pixGm h
  refine ⟨_, hrun, State.datapath_sdrBuf .., State.datapath_hdrBuf .., State.datapath_nonfin .., ?_⟩
  rw [writePixel_gm]
  rfl

/-- Settles O45: the expansion's run is the pixel's writes but for the datapath registers, and `Y` holds the measure. -/
theorem scalarPixelEqualsSingleLayerStep : Obligations.ScalarPixelEqualsSingleLayerStep := by
  intro s h hfull
  obtain ⟨v, q, w, hrun⟩ := execAll_pixSl h hfull
  exact ⟨_, hrun, rfl, ofNat_yPx_toNat _ _⟩

/-! ## The all-zero sample (R160) -/

theorem gdec_fZero (c : Config) : gdec c fZero = fZero := guardedPow_of_not_pos (y := kG22) (by decide)

/-- The linear part of an all-zero sample is zero: every product and sum is `+0`. -/
theorem lin_zero {c : Config} (hm : c.mat = matR14) : lin c ⟨0, 0, 0, 0⟩ = ⟨fZero, fZero, fZero⟩ := by
  have hraw : linRaw c ⟨0, 0, 0, 0⟩ = mat3 c (nscale fZero) (nscale fZero) (nscale fZero) := by
    rw [linRaw, show (0 : Word) = fZero from rfl, gdec_fZero]
  rw [lin, hraw, mat3, hm]
  decide +kernel

/-- Settles O46: the linear part is zero, `luma` of it is zero, and the code that `POW32_CR` gives it quantises to
zero. -/
theorem zeroSampleGivesZeroPixels : Obligations.ZeroSampleGivesZeroPixels := by
  refine ⟨by decide +kernel, fun c hm _ => ?measure, fun c hm hc => ?hdr⟩
  case measure =>
    rw [yPx, lin_zero hm]
    exact luma_of_not_pos (by decide) (by decide) (by decide)
  case hdr =>
    obtain ⟨-, -, hzero, -⟩ := pq_pow32cr_example hc
    have henc : encPq c ⟨0, 0, 0, 0⟩ = ⟨0x354436E8, 0x354436E8, 0x354436E8⟩ := by
      rw [encPq, lin_zero hm]
      simp only [fZero, hzero]
    rw [hdr10Px, hdr16Px, henc]
    decide +kernel

end Sys2Proof.Machine
end

section
/-! PROOFS. The remaining statements of 10_state.md: what written registers read back (R22, R28, R36 to R40), the bounds
of `PIXDONE` (R31), the sticky `NONFIN` (R25); and of 70_reset_and_hazards.md on `rst` (R195, R197). -/

namespace Sys2Proof.Machine

/-! ## Written registers (R22, R28, R36 to R39) -/

@[simp] theorem readReg_respond (c : Config) (s : State) (x : Response) (r : Reg) :
    readReg c (s.respond x) r = readReg c s r := by
  cases r <;> rfl

/-- Cutting a word to its low `n` bits is masking it. -/
theorem setWidth_setWidth_eq_and (x : Word) {n : Nat} (hn : n ≤ 32) :
    (x.setWidth n).setWidth 32 = x &&& BitVec.ofNat 32 (2 ^ n - 1) := by
  have hpow : 2 ^ n ≤ 2 ^ 32 := Nat.pow_le_pow_right (by decide) hn
  have hmask : (2 ^ n - 1) % 2 ^ 32 = 2 ^ n - 1 := Nat.mod_eq_of_lt (by have := Nat.two_pow_pos n; omega)
  apply BitVec.eq_of_toNat_eq
  rw [BitVec.toNat_setWidth_of_le hn, BitVec.toNat_setWidth, BitVec.toNat_and, BitVec.toNat_ofNat, hmask,
    Nat.and_two_pow_sub_one_eq_mod]

theorem and_full_mask (x : Word) : x &&& 0xFFFFFFFF = x := BitVec.and_allOnes

section
variable {c : Config} {s : State} {r r' : Reg} {x : Word}

/-- The other half of `W` is kept. -/
theorem readReg_wHi_writeReg_wLo : readReg c (writeReg s .wLo x) .wHi = readReg c s .wHi :=
  BitVec.extractLsb'_append_eq_left

theorem readReg_wLo_writeReg_wHi : readReg c (writeReg s .wHi x) .wLo = readReg c s .wLo :=
  BitVec.extractLsb'_append_eq_right

theorem readReg_wLo_writeReg_wLo : readReg c (writeReg s .wLo x) .wLo = x := BitVec.extractLsb'_append_eq_right

theorem readReg_wHi_writeReg_wHi : readReg c (writeReg s .wHi x) .wHi = x := BitVec.extractLsb'_append_eq_left

/-- No register shares a bit with another. -/
theorem readReg_writeReg_of_ne (h : r' ≠ r) : readReg c (writeReg s r x) r' = readReg c s r' := by
  cases r
  case wLo =>
    cases r'
    case wLo => exact absurd rfl h
    case wHi => exact readReg_wHi_writeReg_wLo
    all_goals rfl
  case wHi =>
    cases r'
    case wHi => exact absurd rfl h
    case wLo => exact readReg_wLo_writeReg_wHi
    all_goals rfl
  all_goals cases r' <;> trivial

/-- What a read-write register reads back is the data written, masked. -/
theorem hostWrite_reads_back (hr : s.rst = false) (hb : s.busy = false) (hc : r ≠ .cmd) {mask : Word}
    (hback : readReg Config.here (writeReg s r x) r = x &&& mask) :
    ∃ t, hostWrite .reg (regOffset r) 4 x s = .next t ∧ t.response = some .ok ∧
      readReg Config.here t r = x &&& mask ∧ ∀ r' ≠ r, readReg Config.here t r' = readReg Config.here s r' := by
  refine ⟨_, (hostWrite_reg_of_released hr ..).trans (hostWriteReg_of_not_busy hb hc x), rfl, ?_, fun r' hne => ?_⟩
  · rw [readReg_respond, hback]
  · rw [readReg_respond, readReg_writeReg_of_ne hne]

/-! ## Reserved offsets (R40) -/

theorem regAt_eq_none {off : Nat} (h : ∀ r, regOffset r ≠ off) : regAt off = none :=
  List.find?_eq_none.2 fun r _ => by simpa using h r

theorem regOffset_lt (r : Reg) : regOffset r < 0x80 := by cases r <;> decide

theorem regAt_reserved {off : Nat} (h : off = 0x48 ∨ off = 0x4C ∨ off = 0x74 ∨ (0x80 ≤ off ∧ off ≤ 0xFC)) :
    regAt off = none := by
  rcases h with rfl | rfl | rfl | ⟨hlo, -⟩
  · rfl
  · rfl
  · rfl
  · exact regAt_eq_none fun r => ((regOffset_lt r).trans_le hlo).ne

variable {off : Nat} (hr : s.rst = false) (hok : regAccessOk off 4 = true) (hnone : regAt off = none)
include hr hok hnone

theorem hostRead_reserved : hostRead .reg off 4 s = s.respond (.data 0) := by
  simp [hostRead, hr, hok, hnone]

theorem hostWrite_reserved (hb : s.busy = false) (x : Word) : hostWrite .reg off 4 x s = .next (s.respond .ok) := by
  simp [hostWrite, hostWriteReg, hr, hok, hnone, hb]

end

/-- Settles O49: one entry per read-write register; a reserved offset is an aligned word without a register. -/
theorem writtenRegistersReadBackMasked : Obligations.WrittenRegistersReadBackMasked := by
  refine ⟨fun s x hr hb => ?table, fun s x off hr halign hres => ?reserved⟩
  case table =>
    have back (r : Reg) (hc : r ≠ .cmd) {mask : Word}
        (hback : readReg Config.here (writeReg s r x) r = x &&& mask) := hostWrite_reads_back hr hb hc hback
    have whole (r : Reg) (hc : r ≠ .cmd) (hback : readReg Config.here (writeReg s r x) r = x) :=
      back r hc (hback.trans (and_full_mask x).symm)
    have half : (x.setWidth 16).setWidth 32 = x &&& 0xFFFF := setWidth_setWidth_eq_and x (by decide)
    have pair : (x.setWidth 2).setWidth 32 = x &&& 0x3 := setWidth_setWidth_eq_and x (by decide)
    simp only [List.forall_mem_cons]
    exact ⟨back .irqEn nofun pair, whole .width nofun rfl, whole .height nofun rfl, whole .inCount nofun rfl,
      whole .idx nofun rfl, whole .v0 nofun rfl, whole .v1 nofun rfl, whole .v2 nofun rfl, whole .v3 nofun rfl,
      back .q0 nofun half, back .q1 nofun half, back .q2 nofun half, back .q3 nofun half, back .y nofun half,
      whole .wLo nofun readReg_wLo_writeReg_wLo, whole .wHi nofun readReg_wHi_writeReg_wHi, fun _ h => nomatch h⟩
  case reserved =>
    have hok : regAccessOk off 4 = true := by
      simp [regAccessOk, halign]
      omega
    exact ⟨hostRead_reserved hr hok (regAt_reserved hres), fun hb => hostWrite_reserved hr hok (regAt_reserved hres) hb x⟩

/-! ## `PIXDONE` while a frame runs (R31) -/

section
variable {s : State} {e : Engine} (he : s.engine = some e)
include he

theorem readReg_pixdone_of_none_done (c : Config) (hnil : e.doneSet = []) : readReg c s .pixdone = s.pixdone := by
  simp only [readReg, State.pixdoneRead, he, hnil, if_true]

theorem readReg_pixdone_of_some_done (c : Config) (hne : e.doneSet ≠ []) : readReg c s .pixdone =
    s.pixdone + BitVec.ofNat 32 (Config.stepsAhead s.choice % (e.n - e.doneSet.length + 1)) := by
  simp only [readReg, State.pixdoneRead, he, hne, if_false]

end

/-- Settles O52: a read adds to the steps performed at most the steps that remain, which does not wrap. -/
theorem pixdoneReadsWithinProgress : Obligations.PixdoneReadsWithinProgress := by
  intro s e h he
  have hrun := h.running e he
  have hprogress := hrun.progress
  by_cases hnil : e.doneSet = []
  · rw [readReg_pixdone_of_none_done he Config.here hnil, hprogress]
    refine ⟨le_rfl, hrun.length_le, fun _ => BitVec.eq_of_toNat_eq ?_⟩
    rw [hprogress, hnil]
    rfl
  · rw [readReg_pixdone_of_some_done he Config.here hnil]
    have hle := hrun.length_le
    have hcap := hrun.fits.trans_lt (maxPixels_lt Config.here)
    have hahead := Nat.mod_lt (Config.stepsAhead s.choice) (Nat.add_one_pos (e.n - e.doneSet.length))
    have hsum : (s.pixdone + BitVec.ofNat 32 (Config.stepsAhead s.choice % (e.n - e.doneSet.length + 1))).toNat =
        e.doneSet.length + Config.stepsAhead s.choice % (e.n - e.doneSet.length + 1) := by
      rw [BitVec.toNat_add, hprogress, BitVec.toNat_ofNat]
      omega
    rw [hsum]
    exact ⟨by omega, by omega, fun h0 => absurd h0 hnil⟩

/-! ## `NONFIN` (R25) -/

theorem startFrame_nonfin (c : Config) (m : EngMode) (w : Word) (s : State) :
    (startFrame c m w s).nonfin = s.nonfin := by
  rcases startFrame_raises_or_accepts c m w s with ⟨e, info, heq⟩ | ⟨-, heq⟩ <;> rw [heq]
  · rfl
  · cases m <;> rfl

theorem indexChecked_nonfin {s effect : State} (h : s.nonfin = true → effect.nonfin = true) (c : Config)
    (hs : s.nonfin = true) : (s.indexChecked c effect).nonfin = true := by
  rcases s.indexChecked_cases c effect with ⟨-, heq⟩ | ⟨-, heq⟩ <;> rw [heq]
  · exact hs
  · exact h hs

/-- A command other than `CLR` sets `NONFIN` or leaves it. -/
theorem exec_nonfin {i : Instr} {s t : State} (hrun : exec i s = .next t) (hs : s.nonfin = true) (hi : i ≠ .clr) :
    t.nonfin = true := by
  cases i
  case clr => exact absurd rfl hi
  case runGm => cases hrun; exact (startFrame_nonfin ..).trans hs
  case runSl => cases hrun; exact (startFrame_nonfin ..).trans hs
  case ldpx => cases hrun; exact indexChecked_nonfin (fun h => by simp [h]) _ hs
  case sts | sth10 | sth16 => cases hrun; exact indexChecked_nonfin (fun h => (State.memWrite_nonfin ..).trans h) _ hs
  case cllacc => cases hrun; rw [apply_ite State.nonfin]; exact (ite_self _).trans hs
  case cllfin => cases hrun; rw [apply_ite State.nonfin]; exact (ite_self _).trans hs
  all_goals cases hrun; exact hs

/-- Settles O53: a command or a pixel step only adds to `NONFIN`, and completion leaves it. -/
theorem nonfinIsStickyButForClr : Obligations.NonfinIsStickyButForClr := by
  refine ⟨fun i s t hrun hs hi => exec_nonfin hrun hs hi, fun e s t hstep hs => ?_⟩
  rcases engineStep_cases Config.here e s with ⟨-, heq⟩ | ⟨i, -, heq⟩ <;> rw [heq] at hstep
  · rcases completionStep_next hstep with ⟨-, rfl⟩ | ⟨-, -, rfl⟩ <;> exact hs
  · obtain ⟨hi, -⟩ := pixelStep_next hstep
    cases hstep.symm.trans (pixelStep_eq_pixelNext hi e s.tick)
    rw [pixelNext_nonfin, State.tick_nonfin, hs, Bool.true_or]

/-! ## `rst` (70_reset_and_hazards.md R195, R197) -/

section
variable {s : State} (hr : s.rst = true)
include hr

theorem hostRead_in_reset (win : Window) (off n : Nat) : hostRead win off n s = s.respond .busError := if_pos hr

theorem hostWrite_in_reset (win : Window) (off n : Nat) (x : Word) :
    hostWrite win off n x s = .next (s.respond .busError) := if_pos hr

theorem engine_not_enabled_in_reset : Agent.engine ∉ s.enabledAgents := by
  simp [State.mem_enabledAgents, hr]

end

/-- After a reset every register reads as in the reset state, whatever fields of the model's own are kept. -/
theorem readReg_afterReset (c : Config) (s : State) (level : Bool) (resets : Nat) (r : Reg) :
    readReg c (s.afterReset level resets) r = readReg c State.reset r := by
  cases r <;> rfl

theorem byteAt_afterReset (s : State) (level : Bool) (resets : Nat) (b : Buffer) (x : Nat) :
    (s.afterReset level resets).byteAt b x = Config.unspecifiedByte resets b x := by
  cases b <;> rfl

/-- Settles O56: in reset the first test of every access fails; a release after an assertion leaves the state after
reset. -/
theorem resetRefusesThenRestoresResetState : Obligations.ResetRefusesThenRestoresResetState :=
  ⟨fun _ win off n x hr => ⟨hostRead_in_reset hr win off n, hostWrite_in_reset hr win off n x,
      engine_not_enabled_in_reset hr⟩,
    fun s => ⟨rfl, _, driveReset_released_after_asserted s, rfl, rfl, readReg_afterReset _ s _ _,
      byteAt_afterReset s _ _⟩⟩

end Sys2Proof.Machine
end
